-- ==== Sys2Proof/Word.lean ====
section
/-! DEFINITION. The word types of the block (spec/00_scope.md R7, R8, R10): every width the parameter table fixes. -/

namespace Sys2Proof

/-- A host register word, `WORD_W` = 32 bits (R7). -/
abbrev Word := BitVec 32

/-- A byte of a stream (R7: a symbol is one byte value). -/
abbrev Byte := BitVec 8

/-- A symbol, `SYM_W` = 8 bits (R7). -/
abbrev Sym := BitVec 8

/-- A frequency, `FREQ_W` = 64 bits (R7). -/
abbrev Freq := BitVec 64

/-- A node weight, `WEIGHT_W` = 72 bits (R7). -/
abbrev Weight := BitVec 72

/-- A node index, `IDX_W` = 9 bits (R7). -/
abbrev NodeIdx := BitVec 9

/-- A stream bit counter, `CNT_W` = 64 bits (R7). -/
abbrev BitCount := BitVec 64

/-- The ARG field of a command word, 9 bits (spec/30_encoding.md R80). -/
abbrev Arg := BitVec 9

/-- A bit string; the head is the first bit (R10). -/
abbrev Bits := List Bool

/-- The index no node has, `NIL` = 0x1FF (R7). -/
abbrev NodeIdx.nil : NodeIdx := 0x1FF#9

/-- One entry of the node arena (spec/10_state.md R41): a leaf owns a symbol and a weight, an internal node a weight
and two children. The fields the spec stores beside these (a leaf's NIL children, an internal node's zero symbol, R120)
are the views below (log entry 7). -/
inductive Node where
  | leaf (sym : Sym) (w : Weight)
  | internal (w : Weight) (left right : NodeIdx)
deriving DecidableEq, Repr, Inhabited

/-- The `tag` field: is the node internal (R41)? -/
def Node.isInternal : Node → Bool
  | .leaf _ _ => false
  | .internal _ _ _ => true

/-- The `sym` field: a leaf's symbol, 0 in an internal node (R120). -/
def Node.sym : Node → Sym
  | .leaf s _ => s
  | .internal _ _ _ => 0

/-- The `w` field (R41). -/
def Node.weight : Node → Weight
  | .leaf _ w => w
  | .internal w _ _ => w

/-- The `left` field: NIL in a leaf (R120). -/
def Node.left : Node → NodeIdx
  | .leaf _ _ => NodeIdx.nil
  | .internal _ l _ => l

/-- The `right` field: NIL in a leaf (R120). -/
def Node.right : Node → NodeIdx
  | .leaf _ _ => NodeIdx.nil
  | .internal _ _ r => r

end Sys2Proof
end

