-- ==== Sys2Proof/Syntax.lean ====
section
/-! DEFINITION. The twelve commands (spec/30_encoding.md R83), one constructor per row of the opcode table. -/

namespace Sys2Proof

/-- A command. A command of the *sym* or *idx* form carries its whole 9-bit ARG field (R80); that a *sym* operand fits
8 bits is the check `Instr.wellFormed` (R81). -/
inductive Instr where
  /-- NOP, spec/40_control.md R102. -/
  | nop
  /-- RESET, spec/40_control.md R103. -/
  | reset
  /-- LOAD_FREQ s, spec/41_freq_table.md R110. -/
  | loadFreq (arg : Arg)
  /-- READ_FREQ s, spec/41_freq_table.md R111. -/
  | readFreq (arg : Arg)
  /-- BUILD, spec/42_tree_builder.md R126. -/
  | build
  /-- QUERY_NODE i, spec/42_tree_builder.md R127. -/
  | queryNode (arg : Arg)
  /-- DERIVE, spec/43_code_deriver.md R150. -/
  | derive
  /-- QUERY_CODE s, spec/43_code_deriver.md R152. -/
  | queryCode (arg : Arg)
  /-- PACK_BYTE x, spec/44_bit_packer.md R171. -/
  | packByte (arg : Arg)
  /-- PACK_FLUSH, spec/44_bit_packer.md R172. -/
  | packFlush
  /-- UNPACK_BYTE x, spec/45_bit_unpacker.md R191. -/
  | unpackByte (arg : Arg)
  /-- UNPACK_END, spec/45_bit_unpacker.md R192. -/
  | unpackEnd
deriving DecidableEq, Repr

end Sys2Proof
end

