-- ==== Sys2Proof/WellFormed.lean ====
section
/-! DEFINITION. Which commands an encoding exists for (spec/30_encoding.md R81, R85). -/

namespace Sys2Proof

/-- A *sym* operand: bit 16 of the word, ARG's bit 8, must be 0 (R81). -/
def symArgOk (arg : Arg) : Bool := !arg.getLsbD 8

/-- The operand fits its form (R81): a *sym* operand has bit 16 = 0; an *idx* operand may be any 9-bit value; the *none*
form has no operand. -/
def Instr.wellFormed : Instr → Bool
  | .nop => true
  | .reset => true
  | .loadFreq arg => symArgOk arg
  | .readFreq arg => symArgOk arg
  | .build => true
  | .queryNode _ => true
  | .derive => true
  | .queryCode arg => symArgOk arg
  | .packByte arg => symArgOk arg
  | .packFlush => true
  | .unpackByte arg => symArgOk arg
  | .unpackEnd => true

/-- `Instr.wellFormed` as a proposition. -/
abbrev Instr.WellFormed (i : Instr) : Prop := i.wellFormed = true

end Sys2Proof
end

