-- ==== Sys2Proof/Decode.lean ====
section
/-! DEFINITION. The command encoding (spec/30_encoding.md): decoding, total on every 32-bit word and naming why a word is
Illegal (R84, R85), the encoder (R80, R81), and the opcode table as R83 prints it. -/

namespace Sys2Proof

/-- Why a word is Illegal (R85). All raise IllegalOpcode; the reason itself is no state of the block (log entry 17). -/
inductive IllegalWord where
  /-- RSV, bits 31:17, is not 0. -/
  | reservedBits
  /-- OP is none of the twelve of R83. -/
  | unassignedOp
  /-- A *none* form with ARG not 0. -/
  | argNotZero
  /-- A *sym* form with bit 16 = 1. -/
  | symBit16
deriving DecidableEq, Repr

/-- What a word decodes to (R84): one command, or Illegal. -/
inductive Decoded where
  | command (i : Instr)
  | illegal (why : IllegalWord)
deriving DecidableEq, Repr

/-- OP, bits 7:0 (R80). -/
def opField (w : Word) : BitVec 8 := w.extractLsb' 0 8

/-- ARG, bits 16:8 (R80). -/
def argField (w : Word) : Arg := w.extractLsb' 8 9

/-- RSV, bits 31:17 (R80). -/
def rsvField (w : Word) : BitVec 15 := w.extractLsb' 17 15

/-- The *none* form (R81): ARG must be 0. -/
def noneForm (i : Instr) (arg : Arg) : Decoded :=
  if arg = 0 then .command i else .illegal .argNotZero

/-- The *sym* form (R81): bit 16 must be 0. -/
def symForm (mk : Arg → Instr) (arg : Arg) : Decoded :=
  if symArgOk arg then .command (mk arg) else .illegal .symBit16

/-- The *idx* form (R81): every 9-bit value. -/
def idxForm (mk : Arg → Instr) (arg : Arg) : Decoded := .command (mk arg)

/-- The row of R83 that an OP value names, read by its operand form. -/
def decodeOp (op : BitVec 8) (arg : Arg) : Decoded :=
  if op = 0x00#8 then noneForm .nop arg
  else if op = 0x01#8 then noneForm .reset arg
  else if op = 0x10#8 then symForm .loadFreq arg
  else if op = 0x11#8 then symForm .readFreq arg
  else if op = 0x20#8 then noneForm .build arg
  else if op = 0x21#8 then idxForm .queryNode arg
  else if op = 0x30#8 then noneForm .derive arg
  else if op = 0x31#8 then symForm .queryCode arg
  else if op = 0x40#8 then symForm .packByte arg
  else if op = 0x41#8 then noneForm .packFlush arg
  else if op = 0x50#8 then symForm .unpackByte arg
  else if op = 0x51#8 then noneForm .unpackEnd arg
  else .illegal .unassignedOp

/-- `Decode(word)` (R84). -/
def decode (w : Word) : Decoded :=
  if rsvField w = 0 then decodeOp (opField w) (argField w) else .illegal .reservedBits

/-- The OP of a command (R83). -/
def Instr.op : Instr → BitVec 8
  | .nop => 0x00#8
  | .reset => 0x01#8
  | .loadFreq _ => 0x10#8
  | .readFreq _ => 0x11#8
  | .build => 0x20#8
  | .queryNode _ => 0x21#8
  | .derive => 0x30#8
  | .queryCode _ => 0x31#8
  | .packByte _ => 0x40#8
  | .packFlush => 0x41#8
  | .unpackByte _ => 0x50#8
  | .unpackEnd => 0x51#8

/-- The ARG of a command: 0 in the *none* form (R81). -/
def Instr.arg : Instr → Arg
  | .nop => 0
  | .reset => 0
  | .loadFreq a => a
  | .readFreq a => a
  | .build => 0
  | .queryNode a => a
  | .derive => 0
  | .queryCode a => a
  | .packByte a => a
  | .packFlush => 0
  | .unpackByte a => a
  | .unpackEnd => 0

/-- A command word from its three fields: RSV, ARG, OP from the top bit down (R80). -/
def packFields (rsv : BitVec 15) (arg : Arg) (op : BitVec 8) : Word := rsv ++ arg ++ op

/-- The word of a command (R80, R81, R83). -/
def encode (i : Instr) : Word := packFields 0 i.arg i.op

/-- One row of R83: the command's name and the pair that tells its words. -/
structure OpRow where
  mnemonic : String
  value : Word
  mask : Word
deriving DecidableEq, Repr

/-- R83's table, as printed. -/
def opcodeTable : List OpRow :=
  [ ⟨"NOP", 0x00000000#32, 0xFFFFFFFF#32⟩, ⟨"RESET", 0x00000001#32, 0xFFFFFFFF#32⟩,
    ⟨"LOAD_FREQ", 0x00000010#32, 0xFFFF00FF#32⟩, ⟨"READ_FREQ", 0x00000011#32, 0xFFFF00FF#32⟩,
    ⟨"BUILD", 0x00000020#32, 0xFFFFFFFF#32⟩, ⟨"QUERY_NODE", 0x00000021#32, 0xFFFE00FF#32⟩,
    ⟨"DERIVE", 0x00000030#32, 0xFFFFFFFF#32⟩, ⟨"QUERY_CODE", 0x00000031#32, 0xFFFF00FF#32⟩,
    ⟨"PACK_BYTE", 0x00000040#32, 0xFFFF00FF#32⟩, ⟨"PACK_FLUSH", 0x00000041#32, 0xFFFFFFFF#32⟩,
    ⟨"UNPACK_BYTE", 0x00000050#32, 0xFFFF00FF#32⟩, ⟨"UNPACK_END", 0x00000051#32, 0xFFFFFFFF#32⟩ ]

/-- The name of a command in R83. -/
def Instr.mnemonic : Instr → String
  | .nop => "NOP"
  | .reset => "RESET"
  | .loadFreq _ => "LOAD_FREQ"
  | .readFreq _ => "READ_FREQ"
  | .build => "BUILD"
  | .queryNode _ => "QUERY_NODE"
  | .derive => "DERIVE"
  | .queryCode _ => "QUERY_CODE"
  | .packByte _ => "PACK_BYTE"
  | .packFlush => "PACK_FLUSH"
  | .unpackByte _ => "UNPACK_BYTE"
  | .unpackEnd => "UNPACK_END"

/-- The command this decoder reads from a row of the opcode table: a 32-bit word, bit 0 the least significant (R9, R68).
Bits above `nbits` are 0; no command is longer than one word (R86). -/
def decodeTableWord (nbits w : Nat) : Option Instr :=
  if nbits ≤ 32 then
    match decode (BitVec.ofNat 32 (w % 2 ^ nbits)) with
    | .command i => some i
    | .illegal _ => none
  else none

end Sys2Proof
end

