-- ==== Sys2Proof/Config.lean ====
section
/-! DEFINITION. What one configuration of the block fixes (spec/00_scope.md R7) and the free values the spec leaves open. -/

namespace Sys2Proof.Config

/-- `NSYM` (R7). -/
def nsym : Nat := 256

/-- `NODE_MAX`: the slots of the node arena (R7). -/
def nodeMax : Nat := 511

/-- `PQ_MAX`: the most entries the priority queue holds (R7). -/
def pqMax : Nat := 256

/-- `CODE_MAX`: the longest code (R7). -/
def codeMax : Nat := 255

/-- `OUT_DEPTH`: the capacity of the output FIFO (R7). -/
def outDepth : Nat := 64

/-- The value of every padding bit of the last packed byte (spec/44_bit_packer.md R172: PAD(r) = 0). -/
def padBit : Bool := false

/-- FREE VALUE. What the n-th read of a register other than STATUS while BUSY = 1 returns
(spec/70_reset_and_hazards.md R246: an unspecified 32-bit value; log entry 5). -/
opaque freeRead : Nat → Word

/-- FREE VALUE. The contents of an arena slot at or above NODE_COUNT (spec/10_state.md R41: unspecified contents that no
rule reads; log entry 6). -/
opaque unallocatedNode : NodeIdx → Node

end Sys2Proof.Config
end

