-- ==== Sys2Proof/Machine/State.lean ====
section
/-! DEFINITION. Everything the spec gives the block to hold (spec/10_state.md R50), the host's side of the bus
(spec/20_memory.md R71), the state after reset (R51), and the reasons a step can stop. -/

namespace Sys2Proof.Machine

/-- STATUS.PHASE (R24). -/
inductive Phase where
  | load | tree | codes | error
deriving DecidableEq, Repr

/-- STATUS.STREAM (R24). The value 3 is never read, so it has no constructor. -/
inductive Stream where
  | none | pack | unpack
deriving DecidableEq, Repr

/-- STATUS.ERR (spec/60_exceptions.md R210). `invalidFormat` is reserved for the host and never raised by the block;
`emptyContainer` is raised by no run (log entry 18); codes 8 to 15 have no constructor. -/
inductive Err where
  | none | emptyAlphabet | emptyContainer | unknownSymbol | invalidFormat | corruptStream | illegalOpcode | illegalSequence
deriving DecidableEq, Repr

/-- The data-register operands sampled at acceptance (R48, spec/30_encoding.md R82). -/
inductive Snapshot where
  /-- The command reads no data register. -/
  | none
  /-- LOAD_FREQ: the pair FREQ_HI, FREQ_LO. -/
  | freq (v : Freq)
  /-- UNPACK_BYTE: CTRL.LIMIT_EN and LIMIT. -/
  | limit (enabled : Bool) (bound : BitCount)
deriving DecidableEq, Repr

/-- An accepted command with its snapshot (R48). -/
structure Pending where
  cmd : Instr
  snap : Snapshot
deriving DecidableEq, Repr

/-- An entry of the priority queue: a weight and a node index (R42). -/
structure PQEntry where
  w : Weight
  i : NodeIdx
deriving DecidableEq, Repr

/-- One host access (spec/20_memory.md R61): its size in bytes, its offset and, for a write, the value. Only aligned
4-byte accesses inside the window are in the contract. -/
inductive HostAccess where
  | read (size off : Nat)
  | write (size off : Nat) (v : Word)
deriving DecidableEq, Repr

/-- What happens next at the block's boundary (R71; log entries 1 to 3, 10). -/
inductive Event where
  /-- The host performs one access. -/
  | access (a : HostAccess)
  /-- The command engine's step falls here, if a command is pending (spec/40_control.md R101). -/
  | engine
  /-- A host command line under the atomic reading of spec/70_reset_and_hazards.md R253: the CMD write, then the engine's step. -/
  | command (w : Word)
  /-- The host asserts (true) or releases (false) the reset input (spec/70_reset_and_hazards.md R240). -/
  | resetInput (asserted : Bool)
deriving DecidableEq, Repr

/-- The block's state record (R50) and the host's side of the bus. NODE_COUNT is the length of `nodes`, BUSY is
`pend ≠ none`, OUT_COUNT the length of `out`, and a code's `len` the length of its bit string (log entry 9). -/
structure State where
  /-- STATUS.PHASE (R24). -/
  phase : Phase
  /-- STATUS.ERR (R24). -/
  err : Err
  /-- STATUS.OVR (R24). -/
  ovr : Bool
  /-- STATUS.REJ (R24). -/
  rej : Bool
  /-- STATUS.PARTIAL (R24). -/
  partialFlag : Bool
  /-- STATUS.LIMHIT (R24). -/
  limhit : Bool
  /-- STATUS.SINGLE (R24). -/
  single : Bool
  /-- STATUS.STREAM (R24). -/
  stream : Stream
  /-- STATUS.CLOSED (R24). -/
  closed : Bool
  /-- PEND (R48). -/
  pend : Option Pending
  /-- CTRL.LIMIT_EN (R25). -/
  limitEn : Bool
  /-- FREQ_LO (R26). -/
  freqLo : Word
  /-- FREQ_HI (R26). -/
  freqHi : Word
  /-- LIMIT, the pair LIMIT_HI, LIMIT_LO (R33). -/
  limit : BitCount
  /-- FREQ (R40). -/
  freq : Vector Freq 256
  /-- NODE[0 .. NODE_COUNT−1] (R41, R27). -/
  nodes : List Node
  /-- ROOT (R28). -/
  root : NodeIdx
  /-- PQ, in ascending key order (R42; log entry 16). -/
  pq : List PQEntry
  /-- CODE (R43). -/
  code : Vector Bits 256
  /-- PACC (R44). -/
  pacc : Bits
  /-- PACK_BITS (R31). -/
  packBits : BitCount
  /-- UPTR (R45). -/
  uptr : NodeIdx
  /-- UNPACK_BITS (R32). -/
  unpackBits : BitCount
  /-- OUT, the head first (R46). -/
  out : List Byte
  /-- CODE_LEN (R34). -/
  codeLen : BitVec 8
  /-- CODE_W0 .. CODE_W7 (R35). -/
  codeW : Vector Word 8
  /-- NODE_INFO (R36). -/
  nodeInfo : Word
  /-- NODE_W0 (R37). -/
  nodeW0 : Word
  /-- NODE_W1 (R37). -/
  nodeW1 : Word
  /-- NODE_W2, its 8 used bits (R37). -/
  nodeW2 : BitVec 8
  /-- DSTK, the top first (R47). -/
  dstk : List (NodeIdx × Bits)
  /-- Is the reset input asserted (spec/70_reset_and_hazards.md R240)? -/
  inReset : Bool
  /-- The model's own: what the host does next and when the engine moves (log entries 1, 2). -/
  agenda : List Event
  /-- The model's own: the offset and value of every read so far, newest first (log entry 15). -/
  seen : List (Nat × Word)
  /-- The model's own: how many free values have been drawn for reads while BUSY (log entry 5). -/
  draws : Nat
deriving DecidableEq, Repr

/-- Why a step stops with a fault. -/
inductive Fault where
  /-- DERIVE on an arena whose walk from ROOT does not end within 512 pops: no tree that BUILD makes (R120, R128), so no
  run reaches it. The spec's loop would not end, so no completion exists. Safe (log entry 8). -/
  | deriveDoesNotEnd
deriving DecidableEq, Repr

/-- Why a step is refused. -/
inductive Refusal where
  /-- A command with no meaning yet; raised by `exec` alone. No command is in this case. Safe. -/
  | notModelled (mnemonic : String)
  /-- A host access that is not an aligned 32-bit access (spec/20_memory.md R61: a model must refuse it). Safe (log entry 11). -/
  | accessNotAlignedWord
  /-- A host access outside offsets 0x00 to 0xFF (R61): it does not reach the block. Safe (log entry 11). -/
  | accessOutsideWindow
  /-- A host access while the reset input is asserted (spec/70_reset_and_hazards.md R240). Safe (log entry 10). -/
  | accessDuringReset
deriving DecidableEq, Repr

/-- The outcome of a step of this block. -/
abbrev Outcome := Host.Outcome State Fault Refusal

/-- The state after hardware reset (R51), with nothing on the agenda. -/
def State.reset : State where
  phase := .load
  err := .none
  ovr := false
  rej := false
  partialFlag := false
  limhit := false
  single := false
  stream := .none
  closed := false
  pend := none
  limitEn := false
  freqLo := 0
  freqHi := 0
  limit := 0
  freq := Vector.replicate 256 0
  nodes := []
  root := NodeIdx.nil
  pq := []
  code := Vector.replicate 256 []
  pacc := []
  packBits := 0
  uptr := NodeIdx.nil
  unpackBits := 0
  out := []
  codeLen := 0
  codeW := Vector.replicate 8 0
  nodeInfo := 0
  nodeW0 := 0
  nodeW1 := 0
  nodeW2 := 0
  dstk := []
  inReset := false
  agenda := []
  seen := []
  draws := 0

end Sys2Proof.Machine
end

