-- ==== Sys2Proof/Machine/Operands.lean ====
section
/-! DEFINITION. The operand forms of the commands (spec/30_encoding.md R81, R82): fields of the word, table entries by
symbol, arena entries by index, data registers snapshotted at acceptance, and the bit order of a byte (spec/20_memory.md R64). -/

namespace Sys2Proof.Machine

/-- The *sym* operand, bits 15:8 of the word: the low 8 bits of ARG (R81). -/
def symOperand (arg : Arg) : Sym := arg.setWidth 8

/-- The *idx* operand, bits 16:8 of the word: the whole ARG (R81). -/
def idxOperand (arg : Arg) : NodeIdx := arg

/-- The 64-bit value of FREQ_HI and FREQ_LO (R9, R26). -/
def State.freqPair (s : State) : Freq := s.freqHi ++ s.freqLo

/-- FREQ[x] (R40). -/
def State.freqAt (s : State) (x : Sym) : Freq := s.freq[x.toNat]'x.isLt

/-- CODE[x] (R43). -/
def State.codeAt (s : State) (x : Sym) : Bits := s.code[x.toNat]'x.isLt

/-- FREQ[x] <- v. -/
def State.setFreq (s : State) (x : Sym) (v : Freq) : State := { s with freq := s.freq.set x.toNat v x.isLt }

/-- CODE[x] <- p. -/
def State.setCode (s : State) (x : Sym) (p : Bits) : State := { s with code := s.code.set x.toNat p x.isLt }

/-- NODE[i]: an allocated entry, or the free value of an unallocated slot (R41; log entry 6). -/
def State.nodeAt (s : State) (i : NodeIdx) : Node := s.nodes[i.toNat]?.getD (Config.unallocatedNode i)

/-- `Snapshot(c)`: the data-register operands of a command at its acceptance (spec/40_control.md R100). -/
def snapshot (c : Instr) (s : State) : Snapshot :=
  match c with
  | .loadFreq _ => .freq s.freqPair
  | .unpackByte _ => .limit s.limitEn s.limit
  | _ => .none

/-- LOAD_FREQ's operand V: the pending snapshot; with none pending it is sampled now (R82; log entry 12). -/
def freqOperand (s : State) : Freq :=
  match s.pend with
  | some ⟨_, .freq v⟩ => v
  | _ => s.freqPair

/-- UNPACK_BYTE's operands LIMIT_EN and LIMIT: the pending snapshot; with none pending they are sampled now (R82; log
entry 12). -/
def limitOperand (s : State) : Bool × BitCount :=
  match s.pend with
  | some ⟨_, .limit en n⟩ => (en, n)
  | _ => (s.limitEn, s.limit)

/-- The bits of a stream byte in stream order, bit 7 first (spec/20_memory.md R64). -/
def byteBits (x : Byte) : Bits :=
  [x.getLsbD 7, x.getLsbD 6, x.getLsbD 5, x.getLsbD 4, x.getLsbD 3, x.getLsbD 2, x.getLsbD 1, x.getLsbD 0]

/-- The byte of a group of at most eight bits: bit k of the group at bit 7 − k, the rest padding (R64,
spec/44_bit_packer.md R170, R172). -/
def groupByte (p : Bits) : Byte :=
  (BitVec.ofBoolListBE ((List.range 8).map fun k => p.getD k Config.padBit)).setWidth 8

/-- Word j of a code left-justified in the 256-bit window: bit k of the code at bit 31 − (k mod 32) of word k / 32, and 0
past the code's end (spec/10_state.md R35). -/
def windowWord (p : Bits) (j : Nat) : Word :=
  (BitVec.ofBoolListBE ((List.range 32).map fun k => p.getD (32 * j + k) false)).setWidth 32

end Sys2Proof.Machine
end

