-- ==== Sys2Proof/Machine/Flags.lean ====
section
/-! DEFINITION. The flags and STATUS (spec/10_state.md R24, R49), the acceptance conditions that read them
(spec/40_control.md R104, R105), and the unpacker's limit (spec/45_bit_unpacker.md R193). -/

namespace Sys2Proof.Machine

/-- BUSY: a command is pending (R48, R50). -/
def State.busy (s : State) : Bool := s.pend.isSome

/-- STATUS.PHASE's value (R24). -/
def Phase.code : Phase → BitVec 2
  | .load => 0
  | .tree => 1
  | .codes => 2
  | .error => 3

/-- STATUS.STREAM's value (R24). -/
def Stream.code : Stream → BitVec 2
  | .none => 0
  | .pack => 1
  | .unpack => 2

/-- STATUS.ERR's value (spec/60_exceptions.md R210). -/
def Err.code : Err → BitVec 4
  | .none => 0
  | .emptyAlphabet => 1
  | .emptyContainer => 2
  | .unknownSymbol => 3
  | .invalidFormat => 4
  | .corruptStream => 5
  | .illegalOpcode => 6
  | .illegalSequence => 7

/-- STATUS (R24), its fields from bit 31 down to bit 0. -/
def statusWord (s : State) : Word :=
  0#17 ++ BitVec.ofBool s.limhit ++ BitVec.ofBool s.single ++ BitVec.ofBool s.closed ++ s.stream.code
    ++ BitVec.ofBool s.partialFlag ++ BitVec.ofBool s.rej ++ BitVec.ofBool s.ovr ++ s.err.code ++ s.phase.code
    ++ BitVec.ofBool s.busy

/-- Is a pack command allowed by the stream state (spec/40_control.md R104)? -/
def packOpen (stream : Stream) (closed : Bool) : Bool := stream != .unpack && !closed

/-- Is an unpack command allowed by the stream state (R104)? -/
def unpackOpen (stream : Stream) (closed : Bool) : Bool := stream != .pack && !closed

/-- `Legal(c, PHASE, STREAM, CLOSED)` (R104). RESET's row is "any". -/
def legal (c : Instr) (phase : Phase) (stream : Stream) (closed : Bool) : Bool :=
  match c with
  | .nop => phase == .load || phase == .tree || phase == .codes
  | .reset => true
  | .loadFreq _ => phase == .load
  | .readFreq _ => phase == .load || phase == .tree || phase == .codes
  | .build => phase == .load
  | .queryNode _ => phase == .tree || phase == .codes
  | .derive => phase == .tree
  | .queryCode _ => phase == .codes
  | .packByte _ => phase == .codes && packOpen stream closed
  | .packFlush => phase == .codes && packOpen stream closed
  | .unpackByte _ => (phase == .tree || phase == .codes) && unpackOpen stream closed
  | .unpackEnd => (phase == .tree || phase == .codes) && unpackOpen stream closed

/-- `Worst(c)`: the output room a command reserves, in bytes (spec/40_control.md R105). -/
def worst (c : Instr) : Nat :=
  match c with
  | .packByte _ => 32
  | .packFlush => 1
  | .unpackByte _ => 8
  | _ => 0

/-- Has OUT the room the command reserves (R100 step 5, R105)? -/
def hasRoom (c : Instr) (s : State) : Bool := decide (s.out.length + worst c ≤ Config.outDepth)

/-- `Limited(LIMIT_EN, LIMIT)`: an unsigned 64-bit compare (spec/45_bit_unpacker.md R193). -/
def limited (lim : Bool × BitCount) (s : State) : Bool := lim.1 && decide (lim.2 ≤ s.unpackBits)

end Sys2Proof.Machine
end

