-- ==== Sys2Proof/Machine/Ops.lean ====
section
/-! DEFINITION. The operations the commands share: the error entry and the reset that leaves it, acceptance, the node
allocator, the priority queue, the output FIFO, one packed bit and one unpacked bit. -/

namespace Sys2Proof.Machine

/-! ### The error state (spec/60_exceptions.md R211, R214) -/

/-- `raise E` (R211): the block's one exception entry. -/
def raise (e : Err) (s : State) : State := { s with phase := .error, err := e, pend := none }

/-- Every field of the block takes its reset value (spec/10_state.md R51): the only way out of ERROR (R214). The host's
side of the bus (agenda, record of reads, draw counter, reset input) is not the block's. -/
def resetBlock (s : State) : State :=
  { State.reset with inReset := s.inReset, agenda := s.agenda, seen := s.seen, draws := s.draws }

/-! ### Acceptance (spec/40_control.md R100 step 6) -/

/-- REJ <- 0 and PEND <- (c, Snapshot(c)). -/
def accept (c : Instr) (s : State) : State := { s with rej := false, pend := some ⟨c, snapshot c s⟩ }

/-! ### The node allocator (spec/42_tree_builder.md R121) -/

/-- The index `Alloc` hands out next: NODE_COUNT. -/
def State.nextIdx (s : State) : NodeIdx := BitVec.ofNat 9 s.nodes.length

/-- `Alloc(node)`: the node goes to slot NODE_COUNT, and NODE_COUNT grows by one. -/
def alloc (n : Node) (s : State) : State := { s with nodes := s.nodes ++ [n] }

/-! ### The priority queue (spec/42_tree_builder.md R122 to R125) -/

/-- The key order (R122): weight first, then node index, both unsigned. -/
def PQEntry.lt (a b : PQEntry) : Bool := decide (a.w < b.w) || (a.w == b.w && decide (a.i < b.i))

/-- Ordered insertion: the entry goes before the first entry with a greater key. -/
def pqInsert (e : PQEntry) : List PQEntry → List PQEntry
  | [] => [e]
  | x :: xs => if e.lt x then e :: x :: xs else x :: pqInsert e xs

/-- `PQ.Insert(w, i)` (R123). -/
def insertPQ (e : PQEntry) (s : State) : State := { s with pq := pqInsert e s.pq }

/-- `PQ.PeekMin()` (R125); none stands for EmptyContainer. -/
def peekMin (s : State) : Option PQEntry := s.pq.head?

/-- `PQ.ExtractMin()` (R124); none stands for EmptyContainer. -/
def extractMin (s : State) : Option (PQEntry × State) :=
  match s.pq with
  | [] => none
  | e :: rest => some (e, { s with pq := rest })

/-- Allocate a node and insert its entry (spec/42_tree_builder.md R126). -/
def enqueueNode (n : Node) (s : State) : State := insertPQ ⟨n.weight, s.nextIdx⟩ (alloc n s)

/-! ### The output FIFO (spec/10_state.md R46) -/

/-- `OUT.Push(b)`. Acceptance has reserved the room (R105). -/
def pushOut (b : Byte) (s : State) : State := { s with out := s.out ++ [b] }

/-- `OUT.Pop()`: the head leaves; an empty FIFO stays (R29). -/
def popOut (s : State) : State := { s with out := s.out.tail }

/-! ### The bit packer (spec/44_bit_packer.md R170) -/

/-- `AppendBit(x)`. -/
def appendBit (x : Bool) (s : State) : State :=
  let acc := s.pacc ++ [x]
  let s1 := { s with packBits := s.packBits + 1 }
  if acc.length = 8 then { pushOut (groupByte acc) s1 with pacc := [] } else { s1 with pacc := acc }

/-- `AppendBit` for each bit of a string, first to last. -/
def appendBits (p : Bits) (s : State) : State := p.foldl (fun t x => appendBit x t) s

/-! ### The bit unpacker (spec/45_bit_unpacker.md R190, R193) -/

/-- `StepBit(x)` (R190). none stands for CorruptStream: the bit that raises it changes nothing. -/
def stepBit (x : Bool) (s : State) : Option State :=
  match s.nodeAt s.uptr with
  | .leaf sym _ => if x then none else some { pushOut sym s with unpackBits := s.unpackBits + 1 }
  | .internal _ l r =>
    let c := if x then r else l
    if c = NodeIdx.nil then none
    else
      let s1 := { s with unpackBits := s.unpackBits + 1, uptr := c }
      match s.nodeAt c with
      | .leaf sym _ => some { pushOut sym s1 with uptr := s.root }
      | .internal _ _ _ => some s1

/-- The bits of one UNPACK_BYTE in order (R191): a bit past the limit is discarded and sets LIMHIT, a bit that raises
CorruptStream ends the command. -/
def unpackBits (lim : Bool × BitCount) : Bits → State → State
  | [], s => s
  | x :: xs, s =>
    if limited lim s then unpackBits lim xs { s with limhit := true }
    else
      match stepBit x s with
      | none => raise .corruptStream s
      | some t => unpackBits lim xs t

end Sys2Proof.Machine
end

