-- ==== Sys2Proof/Machine/BitPacker.lean ====
section
/-! DEFINITION. PACK_BYTE and PACK_FLUSH (spec/44_bit_packer.md R171, R172). -/

namespace Sys2Proof.Machine

/-- PACK_BYTE x (R171): UnknownSymbol where x has no code, else STREAM <- PACK and the code's bits are appended. -/
def execPackByte (arg : Arg) (s : State) : Host.Outcome State Fault Refusal :=
  let p := s.codeAt (symOperand arg)
  if p.length = 0 then .next (raise .unknownSymbol s)
  else .next (appendBits p { s with stream := .pack })

/-- PACK_FLUSH (R172): a non-empty PACC leaves as one zero-padded byte, and the stream closes. -/
def execPackFlush (s : State) : Host.Outcome State Fault Refusal :=
  let s1 := { s with stream := .pack, closed := true }
  if 0 < s.pacc.length then .next { pushOut (groupByte s.pacc) s1 with pacc := [] }
  else .next s1

end Sys2Proof.Machine
end

