-- ==== Sys2Proof/Machine/BitUnpacker.lean ====
section
/-! DEFINITION. UNPACK_BYTE and UNPACK_END (spec/45_bit_unpacker.md R191, R192). -/

namespace Sys2Proof.Machine

/-- UNPACK_BYTE x (R191): STREAM <- UNPACK, then the eight bits, bit 7 first, under the snapshotted limit. -/
def execUnpackByte (arg : Arg) (s : State) : Host.Outcome State Fault Refusal :=
  .next (unpackBits (limitOperand s) (byteBits (symOperand arg)) { s with stream := .unpack })

/-- UNPACK_END (R192): a partial path is discarded and flagged, and the stream closes. -/
def execUnpackEnd (s : State) : Host.Outcome State Fault Refusal :=
  let s1 := { s with stream := .unpack, closed := true }
  if s.uptr = s.root then .next s1
  else .next { s1 with partialFlag := true, uptr := s.root }

end Sys2Proof.Machine
end

