-- ==== Sys2Proof/Machine/CodeDeriver.lean ====
section
/-! DEFINITION. DERIVE and QUERY_CODE (spec/43_code_deriver.md R150, R152). -/

namespace Sys2Proof.Machine

/-- The code recorded at a leaf reached by a path: the path, or "0" for a lone leaf (R150). -/
def leafCode (p : Bits) : Bits := if p = [] then [false] else p

/-- What DERIVE does with the popped pair: a leaf records its code, an internal node pushes its right child and then its
left one (R150). -/
def visit (n : NodeIdx) (p : Bits) (s : State) : State :=
  match s.nodeAt n with
  | .leaf sym _ => s.setCode sym (leafCode p)
  | .internal _ l r => { s with dstk := (l, p ++ [false]) :: (r, p ++ [true]) :: s.dstk }

/-- DERIVE's loop (R150): while DSTK is not empty. The first argument bounds the pops; none says that the walk has not
ended within them (log entry 8). -/
def deriveLoop : Nat → State → Option State
  | 0, s => if s.dstk = [] then some s else none
  | k + 1, s =>
    match s.dstk with
    | [] => some s
    | (n, p) :: rest => deriveLoop k (visit n p { s with dstk := rest })

/-- The most pops a walk of a BUILD-made tree takes is 511, one for each node (R128); 512 leaves one to spare. -/
def derivePops : Nat := 512

/-- DERIVE (R150). -/
def execDerive (s : State) : Host.Outcome State Fault Refusal :=
  match deriveLoop derivePops { s with code := Vector.replicate 256 [], dstk := [(s.root, [])] } with
  | none => .fault .deriveDoesNotEnd
  | some t => .next { t with phase := .codes }

/-- QUERY_CODE s (R152): the length and the left-justified window of CODE[s]. -/
def execQueryCode (arg : Arg) (s : State) : Host.Outcome State Fault Refusal :=
  let p := s.codeAt (symOperand arg)
  .next { s with
    codeLen := BitVec.ofNat 8 p.length
    codeW := #v[windowWord p 0, windowWord p 1, windowWord p 2, windowWord p 3,
      windowWord p 4, windowWord p 5, windowWord p 6, windowWord p 7] }

end Sys2Proof.Machine
end

