-- ==== Sys2Proof/Machine/Control.lean ====
section
/-! DEFINITION. NOP and RESET (spec/40_control.md R102, R103). -/

namespace Sys2Proof.Machine

/-- NOP (R102): nothing at completion. -/
def execNop (s : State) : Host.Outcome State Fault Refusal := .next s

/-- RESET (R103): every state field takes its reset value. -/
def execReset (s : State) : Host.Outcome State Fault Refusal := .next (resetBlock s)

end Sys2Proof.Machine
end

