-- ==== Sys2Proof/Machine/FreqTable.lean ====
section
/-! DEFINITION. LOAD_FREQ and READ_FREQ (spec/41_freq_table.md R110, R111). -/

namespace Sys2Proof.Machine

/-- LOAD_FREQ s (R110): FREQ[s] <- V. -/
def execLoadFreq (arg : Arg) (s : State) : Host.Outcome State Fault Refusal :=
  .next (s.setFreq (symOperand arg) (freqOperand s))

/-- READ_FREQ s (R111): FREQ_LO and FREQ_HI take the halves of FREQ[s]. -/
def execReadFreq (arg : Arg) (s : State) : Host.Outcome State Fault Refusal :=
  let f := s.freqAt (symOperand arg)
  .next { s with freqLo := f.extractLsb' 0 32, freqHi := f.extractLsb' 32 32 }

end Sys2Proof.Machine
end

