-- ==== Sys2Proof/Machine/TreeBuilder.lean ====
section
/-! DEFINITION. BUILD and QUERY_NODE (spec/42_tree_builder.md R126, R127). -/

namespace Sys2Proof.Machine

/-- BUILD's seeding loop (R126): one leaf per present symbol, in ascending symbol order. The list holds FREQ from symbol
`sym` on. -/
def seed : List Freq → Nat → State → State
  | [], _, s => s
  | f :: fs, sym, s =>
    seed fs (sym + 1) (if f = 0 then s else enqueueNode (.leaf (BitVec.ofNat 8 sym) (f.setWidth 72)) s)

/-- One pass of BUILD's merge loop (R126): the two least entries become the children of a new node, the first extracted
the left one. none stands for EmptyContainer. -/
def mergeTwo (s : State) : Option State :=
  match extractMin s with
  | none => none
  | some (a, s1) =>
    match extractMin s1 with
    | none => none
    | some (b, s2) => some (enqueueNode (.internal (a.w + b.w) a.i b.i) s2)

/-- BUILD's merge loop (R126): while PQ.Size > 1. Each pass lowers the size by one, so the first argument, the size at
the start, never runs out. -/
def mergeAll : Nat → State → Option State
  | 0, s => some s
  | k + 1, s =>
    if 1 < s.pq.length then
      match mergeTwo s with
      | none => none
      | some t => mergeAll k t
    else some s

/-- BUILD's end (R126): the last entry is the root, and it leaves the queue. none stands for EmptyContainer. -/
def finishBuild (s : State) : Option State :=
  match peekMin s with
  | none => none
  | some e =>
    match extractMin s with
    | none => none
    | some (_, t) =>
      some { t with root := e.i, uptr := e.i, single := !(t.nodeAt e.i).isInternal, phase := .tree }

/-- BUILD (R126). EmptyAlphabet when nothing was seeded; EmptyContainer is coded and reached by no run (R124; log entry
18). -/
def execBuild (s : State) : Host.Outcome State Fault Refusal :=
  let seeded := seed s.freq.toList 0 s
  if seeded.pq.length = 0 then .next (raise .emptyAlphabet seeded)
  else
    match mergeAll seeded.pq.length seeded with
    | none => .next (raise .emptyContainer seeded)
    | some merged =>
      match finishBuild merged with
      | none => .next (raise .emptyContainer merged)
      | some t => .next t

/-- The NODE_INFO word of a node (spec/10_state.md R36): bits 31:28 zero, RIGHT, LEFT, SYM, TAG, VALID. -/
def nodeInfoWord (n : Node) : Word :=
  0#4 ++ n.right ++ n.left ++ n.sym ++ BitVec.ofBool n.isInternal ++ 1#1

/-- QUERY_NODE i (R127): an allocated node's fields, or zeros. -/
def execQueryNode (arg : Arg) (s : State) : Host.Outcome State Fault Refusal :=
  let i := idxOperand arg
  if i.toNat < s.nodes.length then
    let n := s.nodeAt i
    .next { s with
      nodeInfo := nodeInfoWord n
      nodeW0 := n.weight.extractLsb' 0 32
      nodeW1 := n.weight.extractLsb' 32 32
      nodeW2 := n.weight.extractLsb' 64 8 }
  else .next { s with nodeInfo := 0, nodeW0 := 0, nodeW1 := 0, nodeW2 := 0 }

end Sys2Proof.Machine
end

