-- ==== Sys2Proof/Machine/Dispatch.lean ====
section
/-! DEFINITION. Execute(c, snap) of spec/40_control.md R101: one arm per command, each one call of its meaning. The checks
of R100 (decode, Legal, room) stand before it, in Machine/Engine.lean. -/

namespace Sys2Proof.Machine

def exec (i : Instr) (s : State) : Host.Outcome State Fault Refusal :=
  match i with
  | .nop => Sys2Proof.Machine.execNop s
  | .reset => Sys2Proof.Machine.execReset s
  | .loadFreq arg => Sys2Proof.Machine.execLoadFreq arg s
  | .readFreq arg => Sys2Proof.Machine.execReadFreq arg s
  | .build => Sys2Proof.Machine.execBuild s
  | .queryNode arg => Sys2Proof.Machine.execQueryNode arg s
  | .derive => Sys2Proof.Machine.execDerive s
  | .queryCode arg => Sys2Proof.Machine.execQueryCode arg s
  | .packByte arg => Sys2Proof.Machine.execPackByte arg s
  | .packFlush => Sys2Proof.Machine.execPackFlush s
  | .unpackByte arg => Sys2Proof.Machine.execUnpackByte arg s
  | .unpackEnd => Sys2Proof.Machine.execUnpackEnd s

end Sys2Proof.Machine
end

