-- ==== Sys2Proof/Machine/Engine.lean ====
section
/-! DEFINITION. Issue and completion of a command (spec/40_control.md R100, R101). -/

namespace Sys2Proof.Machine

/-- The word of RESET, the only command evaluated in ERROR (R100 step 2). -/
def resetWord : Word := 0x00000001#32

/-- Handling of `RegWrite(CMD, w)` (R100): the checks in their order, the first that applies decides. -/
def issue (w : Word) (s : State) : State :=
  if s.busy then { s with ovr := true }
  else if s.phase = .error then
    if w = resetWord then accept .reset s else s
  else
    match decode w with
    | .illegal _ => raise .illegalOpcode s
    | .command c =>
      if !legal c s.phase s.stream s.closed then raise .illegalSequence s
      else if !hasRoom c s then { s with rej := true }
      else accept c s

/-- The command engine's step (R101): execute the pending command, then PEND <- none. With none pending nothing changes
(spec/20_memory.md R71; log entry 13). -/
def complete (s : State) : Host.Outcome State Fault Refusal :=
  match s.pend with
  | none => .next s
  | some p =>
    match exec p.cmd s with
    | .next t => .next { t with pend := none }
    | .fault r => .fault r
    | .refused r => .refused r

end Sys2Proof.Machine
end

