-- ==== Sys2Proof/Machine/Window.lean ====
section
/-! DEFINITION. The register window (spec/10_state.md R22 to R39), host accesses to it (spec/20_memory.md R61 to R63,
spec/70_reset_and_hazards.md R246, R247) and the reset input (R240). -/

namespace Sys2Proof.Machine

/-- The registers of R22's table. -/
inductive Reg where
  | cmd | status | ctrl | freqLo | freqHi | nodeCount | root | outData | outCount
  | packBitsLo | packBitsHi | unpackBitsLo | unpackBitsHi | limitLo | limitHi | codeLen
  | codeW (k : Fin 8)
  | nodeInfo | nodeW0 | nodeW1 | nodeW2 | unpackPtr
deriving DecidableEq, Repr

/-- A register's offset (R22). -/
def Reg.offset : Reg → Nat
  | .cmd => 0x00
  | .status => 0x04
  | .ctrl => 0x08
  | .freqLo => 0x0C
  | .freqHi => 0x10
  | .nodeCount => 0x14
  | .root => 0x18
  | .outData => 0x1C
  | .outCount => 0x20
  | .packBitsLo => 0x24
  | .packBitsHi => 0x28
  | .unpackBitsLo => 0x2C
  | .unpackBitsHi => 0x30
  | .limitLo => 0x34
  | .limitHi => 0x38
  | .codeLen => 0x3C
  | .codeW k => 0x40 + 4 * k.val
  | .nodeInfo => 0x60
  | .nodeW0 => 0x64
  | .nodeW1 => 0x68
  | .nodeW2 => 0x6C
  | .unpackPtr => 0x70

/-- Every register of R22's table, in offset order. -/
def allRegs : List Reg :=
  [.cmd, .status, .ctrl, .freqLo, .freqHi, .nodeCount, .root, .outData, .outCount, .packBitsLo, .packBitsHi,
    .unpackBitsLo, .unpackBitsHi, .limitLo, .limitHi, .codeLen, .codeW 0, .codeW 1, .codeW 2, .codeW 3, .codeW 4,
    .codeW 5, .codeW 6, .codeW 7, .nodeInfo, .nodeW0, .nodeW1, .nodeW2, .unpackPtr]

/-- The register at an offset; none at a reserved one (R39). -/
def regAt (off : Nat) : Option Reg := allRegs.find? fun r => r.offset == off

/-- OUT_DATA's value (R29): VALID and the head byte, or 0. -/
def outDataWord (s : State) : Word :=
  match s.out with
  | [] => 0
  | b :: _ => 0#23 ++ 1#1 ++ b

/-- What a register reads as while BUSY = 0 (R22 to R38). Unused bits read 0. -/
def regValue (s : State) : Reg → Word
  | .cmd => 0
  | .status => statusWord s
  | .ctrl => 0#31 ++ BitVec.ofBool s.limitEn
  | .freqLo => s.freqLo
  | .freqHi => s.freqHi
  | .nodeCount => 0#22 ++ BitVec.ofNat 10 s.nodes.length
  | .root => 0#23 ++ s.root
  | .outData => outDataWord s
  | .outCount => 0#25 ++ BitVec.ofNat 7 s.out.length
  | .packBitsLo => s.packBits.extractLsb' 0 32
  | .packBitsHi => s.packBits.extractLsb' 32 32
  | .unpackBitsLo => s.unpackBits.extractLsb' 0 32
  | .unpackBitsHi => s.unpackBits.extractLsb' 32 32
  | .limitLo => s.limit.extractLsb' 0 32
  | .limitHi => s.limit.extractLsb' 32 32
  | .codeLen => 0#24 ++ s.codeLen
  | .codeW k => s.codeW[k.val]'k.isLt
  | .nodeInfo => s.nodeInfo
  | .nodeW0 => s.nodeW0
  | .nodeW1 => s.nodeW1
  | .nodeW2 => 0#24 ++ s.nodeW2
  | .unpackPtr => 0#23 ++ s.uptr

/-- What the window reads as at an offset while BUSY = 0: a reserved offset reads 0 (R39). -/
def windowValue (s : State) (off : Nat) : Word :=
  match regAt off with
  | some r => regValue s r
  | none => 0

/-- The host notes what a read returned. -/
def note (off : Nat) (v : Word) (s : State) : State := { s with seen := (off, v) :: s.seen }

/-- `RegRead(off)`: while BUSY every read but STATUS returns a free value and has no side effect (R246; log entry 5);
otherwise OUT_DATA pops (R29, R63) and nothing else changes. -/
def regRead (off : Nat) (s : State) : State :=
  if s.busy && regAt off != some .status then
    { note off (Config.freeRead s.draws) s with draws := s.draws + 1 }
  else if regAt off = some .outData then note off (windowValue s off) (popOut s)
  else note off (windowValue s off) s

/-- `RegWrite(off, v)`: CMD issues (R100); CTRL, FREQ_LO, FREQ_HI, LIMIT_LO and LIMIT_HI are set at once, BUSY or not
(R247); every other write is ignored (R63). -/
def regWrite (off : Nat) (v : Word) (s : State) : State :=
  match regAt off with
  | some .cmd => issue v s
  | some .ctrl => { s with limitEn := v.getLsbD 0 }
  | some .freqLo => { s with freqLo := v }
  | some .freqHi => { s with freqHi := v }
  | some .limitLo => { s with limit := s.limit.extractLsb' 32 32 ++ v }
  | some .limitHi => { s with limit := v ++ s.limit.extractLsb' 0 32 }
  | _ => s

/-- Is this size and offset an aligned 32-bit access (spec/20_memory.md R61)? -/
def alignedWord (size off : Nat) : Bool := size == 4 && off % 4 == 0

/-- The access's size in bytes. -/
def HostAccess.size : HostAccess → Nat
  | .read n _ => n
  | .write n _ _ => n

/-- The access's offset. -/
def HostAccess.off : HostAccess → Nat
  | .read _ o => o
  | .write _ o _ => o

/-- The accesses the interface defines (R61): aligned, 32 bits, at an offset 0x00 to 0xFC. -/
def HostAccess.wellFormed (a : HostAccess) : Bool := alignedWord a.size a.off && decide (a.off < 256)

/-- A host access inside the contract. -/
def performAccess (a : HostAccess) (s : State) : State :=
  match a with
  | .read _ off => regRead off s
  | .write _ off v => regWrite off v s

/-- A host access: refused in reset (R240, log entry 10) and outside the contract of R61 (log entry 11), else performed. -/
def hostAccess (a : HostAccess) (s : State) : Host.Outcome State Fault Refusal :=
  if s.inReset then .refused .accessDuringReset
  else if !alignedWord a.size a.off then .refused .accessNotAlignedWord
  else if !decide (a.off < 256) then .refused .accessOutsideWindow
  else .next (performAccess a s)

/-- The reset input (R240): asserting it abandons a pending command and resets every field of the block; releasing it
leaves the block in its reset state. -/
def driveReset (asserted : Bool) (s : State) : State :=
  if asserted then { resetBlock s with inReset := true } else { s with inReset := false }

/-- A command line under R253's atomic reading: the CMD write, then the engine's step before any other access. -/
def commandLine (w : Word) (s : State) : Host.Outcome State Fault Refusal :=
  match hostAccess (.write 4 Reg.cmd.offset w) s with
  | .next t => complete t
  | .fault r => .fault r
  | .refused r => .refused r

/-- One event at the block's boundary (spec/20_memory.md R71). -/
def perform (e : Event) (s : State) : Host.Outcome State Fault Refusal :=
  match e with
  | .access a => hostAccess a s
  | .engine => complete s
  | .command w => commandLine w s
  | .resetInput b => .next (driveReset b s)

end Sys2Proof.Machine
end

