-- ==== Sys2Proof/Machine/Step.lean ====
section
/-! DEFINITION. One step of the block and its host: the next event of the agenda, and with an empty agenda the command
engine's step (spec/20_memory.md R71, spec/40_control.md R101; log entries 1, 2, 13). -/

namespace Sys2Proof.Machine

/-- One step. -/
def step (s : State) : Host.Outcome State Fault Refusal :=
  match s.agenda with
  | [] => complete s
  | e :: rest => perform e { s with agenda := rest }

/-- The state in which the very next step issues and runs the command word `w` (log entry 4): the host's next event is
that command line, and the block is ready for it (no command pending, reset input released). -/
def State.withFetchWord (s : State) (nbits w : Nat) : State :=
  { s with pend := none, inReset := false, agenda := .command (BitVec.ofNat 32 (w % 2 ^ nbits)) :: s.agenda }

end Sys2Proof.Machine
end

