-- ==== Sys2Proof/Safety.lean ====
section
/-! DEFINITION. The vocabulary of the claims: the tree an arena holds (spec/42_tree_builder.md R120, R128), the invariant
that rules out states no run reaches (spec/10_state.md R53), the reference Huffman construction, decoder and packer the
commands are held against, and runs of command lines with draining (spec/30_encoding.md R88). -/

namespace Sys2Proof.Machine

/-! ### Trees -/

/-- A Huffman tree by itself, without arena indices (spec/00_scope.md R13). -/
inductive Tree where
  | leaf (sym : Sym) (w : Weight)
  | node (l r : Tree)
deriving DecidableEq, Repr

/-- The exact weight: a leaf's frequency, or the sum of the two children (R13). -/
def Tree.total : Tree → Nat
  | .leaf _ w => w.toNat
  | .node l r => l.total + r.total

/-- The number of nodes. -/
def Tree.size : Tree → Nat
  | .leaf _ _ => 1
  | .node l r => l.size + r.size + 1

/-- The depth of the deepest leaf. -/
def Tree.depth : Tree → Nat
  | .leaf _ _ => 0
  | .node l r => max l.depth r.depth + 1

/-- The symbols of the leaves, left to right. -/
def Tree.syms : Tree → List Sym
  | .leaf x _ => [x]
  | .node l r => l.syms ++ r.syms

/-- Is the tree a lone leaf? -/
def Tree.isLeaf : Tree → Bool
  | .leaf _ _ => true
  | .node _ _ => false

/-- Every leaf with its path, where the root has the path `p`: false is a left edge, true a right edge
(spec/43_code_deriver.md R150). -/
def Tree.paths : Tree → Bits → List (Sym × Bits)
  | .leaf x _, p => [(x, p)]
  | .node l r, p => l.paths (p ++ [false]) ++ r.paths (p ++ [true])

/-- The arena holds the tree at an index (R120): a leaf's entry, or an internal entry with the sum of its children's
weights whose children have lower indices and hold the two subtrees. -/
def Spans (nodes : List Node) : Tree → NodeIdx → Prop
  | .leaf x w, i => nodes[i.toNat]? = some (.leaf x w)
  | .node l r, i => ∃ w a b, nodes[i.toNat]? = some (.internal w a b) ∧ a.toNat < i.toNat ∧ b.toNat < i.toNat ∧
      w.toNat = l.total + r.total ∧ Spans nodes l a ∧ Spans nodes r b

/-- The second index is on a downward path from the first. -/
inductive Reaches (nodes : List Node) : NodeIdx → NodeIdx → Prop where
  | here (i : NodeIdx) : Reaches nodes i i
  | left (i a b j : NodeIdx) (w : Weight) : nodes[i.toNat]? = some (.internal w a b) → Reaches nodes a j → Reaches nodes i j
  | right (i a b j : NodeIdx) (w : Weight) : nodes[i.toNat]? = some (.internal w a b) → Reaches nodes b j → Reaches nodes i j

/-! ### The frequency table -/

/-- All 256 symbols, ascending. -/
def allSyms : List Sym := (List.range 256).map (BitVec.ofNat 8)

/-- The alphabet: the symbols with a frequency other than 0, ascending (spec/41_freq_table.md R112). -/
def State.alphabet (s : State) : List Sym := allSyms.filter fun x => s.freqAt x != 0

/-- The sum of all frequencies. -/
def State.totalFreq (s : State) : Nat := (allSyms.map fun x => (s.freqAt x).toNat).sum

/-- The arena holds a tree that BUILD made from this table (R53, R120, R128 items 1 to 3). -/
structure BuiltTree (s : State) (T : Tree) : Prop where
  spans : Spans s.nodes T s.root
  nonempty : s.alphabet ≠ []
  count : s.nodes.length = 2 * s.alphabet.length - 1
  root : s.root.toNat = s.nodes.length - 1
  size : T.size = s.nodes.length
  syms : T.syms.Perm s.alphabet
  weights : ∀ (k : Nat) (x : Sym) (w : Weight), s.nodes[k]? = some (.leaf x w) → w = (s.freqAt x).setWidth 72
  single : s.single = true ↔ s.alphabet.length = 1

/-! ### The invariant -/

/-- The snapshot a pending command holds is of the kind it samples (R48). -/
def snapFits (p : Pending) : Bool :=
  match p.cmd, p.snap with
  | .loadFreq _, .freq _ => true
  | .loadFreq _, _ => false
  | .unpackByte _, .limit _ _ => true
  | .unpackByte _, _ => false
  | _, .none => true
  | _, _ => false

/-- A tree exists: PHASE is TREE or CODES. -/
def State.hasTree (s : State) : Prop := s.phase = .tree ∨ s.phase = .codes

/-- What every state a run reaches satisfies: spec/10_state.md R53 and the bounds of R24, R44, R46, R48. -/
structure Inv (s : State) : Prop where
  /-- ERR is 0 exactly while PHASE is not ERROR (R24). -/
  err : s.err = .none ↔ s.phase ≠ .error
  /-- PQ and DSTK are empty between commands (R53). -/
  queues : s.pq = [] ∧ s.dstk = []
  /-- OUT never holds more than 64 bytes (R46). -/
  out : s.out.length ≤ Config.outDepth
  /-- A pending command was legal when accepted, has its snapshot and its reserved room, and REJ is 0 (R48, R100,
  spec/70_reset_and_hazards.md R246). -/
  pending : ∀ p, s.pend = some p →
    legal p.cmd s.phase s.stream s.closed = true ∧ snapFits p = true ∧ hasRoom p.cmd s = true ∧ s.rej = false
  /-- PACC holds PACK_BITS mod 8 bits until the stream closes, and none after (R44, R53). -/
  pacc : s.pacc.length = if s.closed then 0 else s.packBits.toNat % 8
  /-- In LOAD there is no tree, no code and no stream (R53). -/
  load : s.phase = .load → s.nodes = [] ∧ s.root = NodeIdx.nil ∧ s.uptr = NodeIdx.nil ∧ s.stream = .none ∧ s.single = false
  /-- In LOAD and TREE no symbol has a code (R43, R53). -/
  noCode : s.phase = .load ∨ s.phase = .tree → ∀ x, s.codeAt x = []
  /-- In TREE and CODES the arena holds the tree of the table (R53). -/
  tree : s.hasTree → ∃ T, BuiltTree s T
  /-- In CODES exactly the present symbols have codes (R53). -/
  codes : s.phase = .codes → ∀ x, s.codeAt x ≠ [] ↔ s.freqAt x ≠ 0
  /-- No code is longer than 255 bits (R43). -/
  codeLen : ∀ x, (s.codeAt x).length ≤ Config.codeMax
  /-- No stream yet: nothing was packed, unpacked or pushed (R49). -/
  streamNone : s.stream = .none → s.packBits = 0 ∧ s.unpackBits = 0 ∧ s.out = [] ∧ s.closed = false
  /-- Packing happens in CODES, and nothing is unpacked (R53). -/
  streamPack : s.stream = .pack → (s.phase = .codes ∨ s.phase = .error) ∧ s.unpackBits = 0
  /-- Unpacking happens with a tree, and nothing is packed (R53). -/
  streamUnpack : s.stream = .unpack → (s.hasTree ∨ s.phase = .error) ∧ s.packBits = 0
  /-- UPTR is ROOT or an internal node on a path from ROOT (R53). -/
  uptr : Reaches s.nodes s.root s.uptr ∧ (s.uptr = s.root ∨ (s.nodeAt s.uptr).isInternal = true)
  /-- While the reset input is asserted every field of the block has its reset value (spec/70_reset_and_hazards.md R240). -/
  reset : s.inReset = true → s = resetBlock s

/-- A state ready for BUILD: what LOAD implies of the arena and the queue (R53). -/
def LoadReady (s : State) : Prop := s.phase = .load ∧ s.nodes = [] ∧ s.pq = []

/-! ### The reference Huffman construction (spec/42_tree_builder.md R122, R126), on trees with exact weights -/

/-- A tree waiting in the queue, with its weight and its place in allocation order. -/
structure Root where
  w : Nat
  i : Nat
  tree : Tree
deriving DecidableEq, Repr

/-- Insert by the key (w, i), lexicographic (R122). -/
def Root.insert (e : Root) : List Root → List Root
  | [] => [e]
  | x :: xs => if e.w < x.w ∨ (e.w = x.w ∧ e.i < x.i) then e :: x :: xs else x :: Root.insert e xs

/-- The leaves in ascending symbol order, each inserted when made. -/
def leafRoots (s : State) : List Root :=
  (s.alphabet.zipIdx.foldl (fun q p => Root.insert ⟨(s.freqAt p.1).toNat, p.2, .leaf p.1 ((s.freqAt p.1).setWidth 72)⟩ q) [])

/-- Merge the two least until one remains; `n` is the next index and the first argument bounds the merges. -/
def mergeRoots : Nat → Nat → List Root → List Root
  | 0, _, q => q
  | k + 1, n, a :: b :: q => mergeRoots k (n + 1) (Root.insert ⟨a.w + b.w, n, .node a.tree b.tree⟩ q)
  | _ + 1, _, q => q

/-- The Huffman tree of the table: none for an empty alphabet. -/
def huffman (s : State) : Option Tree :=
  ((mergeRoots s.alphabet.length s.alphabet.length (leafRoots s)).head?).map Root.tree

/-! ### The reference decoder (spec/45_bit_unpacker.md R190) for a tree with at least two leaves -/

/-- Walk the bits from the subtree `cur`: the symbols emitted, in order, and the subtree the pointer ends at. A leaf is
emitted as soon as it is reached, and the walk goes on from the root. -/
def walk (root : Tree) : Tree → Bits → List Sym × Tree
  | cur, [] => ([], cur)
  | .leaf _ _, _ :: _ => ([], root)
  | .node l r, x :: xs =>
    match (if x then r else l) with
    | .leaf y _ => let (out, c) := walk root root xs; (y :: out, c)
    | .node a b => walk root (.node a b) xs

/-- How many of the eight bits of an UNPACK_BYTE are traversed under the limit (spec/45_bit_unpacker.md R193). -/
def traversed (lim : Bool × BitCount) (done : BitCount) : Nat :=
  if lim.1 then min 8 (lim.2.toNat - done.toNat) else 8

/-! ### Runs of command lines (spec/30_encoding.md R88) -/

/-- A command line followed by a complete DRAIN: the state with OUT empty, and the bytes drained. none if it stops. -/
def lineAndDrain (i : Instr) (s : State) : Option (State × List Byte) :=
  match commandLine (encode i) s with
  | .next t => some ({ t with out := [] }, t.out)
  | _ => none

/-- Several command lines, each followed by a DRAIN: the last state and all bytes drained, in order. -/
def runLines : List Instr → State → Option (State × List Byte)
  | [], s => some (s, [])
  | i :: is, s =>
    match lineAndDrain i s with
    | none => none
    | some (t, b) =>
      match runLines is t with
      | none => none
      | some (u, c) => some (u, b ++ c)

/-- PACK_BYTE of a byte. -/
def packCmd (x : Byte) : Instr := .packByte (x.setWidth 9)

/-- UNPACK_BYTE of a byte. -/
def unpackCmd (x : Byte) : Instr := .unpackByte (x.setWidth 9)

/-- The block just out of reset with its frequency table loaded (spec/70_reset_and_hazards.md R243). -/
def loaded (freq : Vector Freq 256) : State := { State.reset with freq := freq }

/-- The host's next event is the command line with word `w`, to a block out of reset with no command pending and at most
64 bytes in OUT. -/
structure HostIssues (s : State) (w : Word) (rest : List Event) : Prop where
  agenda : s.agenda = .command w :: rest
  outOfReset : s.inReset = false
  idle : s.pend = none
  out : s.out.length ≤ Config.outDepth

/-- The next step is one access, one engine step or one change of the reset input (every event but the composite command
line, which is an access and an engine step). -/
def PlainEvent (s : State) : Prop := ∀ w rest, s.agenda ≠ .command w :: rest

/-- The next step is the completion of the pending command `c` (spec/40_control.md R101). -/
def Completing (s : State) (c : Instr) : Prop :=
  (∃ snap, s.pend = some ⟨c, snap⟩) ∧ (s.agenda = [] ∨ ∃ rest, s.agenda = .engine :: rest)

/-- The next step is a reset: RESET's completion, or the reset input asserted (spec/60_exceptions.md R214). -/
def Resetting (s : State) : Prop := Completing s .reset ∨ ∃ rest, s.agenda = .resetInput true :: rest

/-- The bit string `bits`, cut into bytes first bit in bit 7 (spec/20_memory.md R64), agrees with `bytes`; past the end of
`bits` the bytes hold 0. -/
def BytesHold (bytes : List Byte) (bits : Bits) : Prop :=
  ∀ k j, k < bytes.length → j < 8 → (bytes.getD k 0).getLsbD (7 - j) = bits.getD (8 * k + j) false

/-- Same state except the data registers a host may write at any time (spec/20_memory.md R74). -/
def SameButDataRegs (a b : State) : Prop :=
  { a with freqLo := b.freqLo, freqHi := b.freqHi, limitEn := b.limitEn, limit := b.limit } = b

end Sys2Proof.Machine
end

