-- ==== Sys2Proof/Certificates/Slice0/Obligations.lean ====
section
/-! DEFINITION. What is claimed of the model, statement by statement; each docstring names the rule of spec/ it rests on. -/

section

open Sys2Proof Sys2Proof.Machine

/-! ### Encoding (spec/30_encoding.md) -/

/-- R80, R81, R83: decoding the word of a well-formed command gives the command back, at every operand value. -/
def Obligations.DecodeOfEncode : Prop := ∀ i : Instr, i.WellFormed → decode (encode i) = .command i

/-- R80, R81, R84: a word decodes to at most one command, that command is well-formed, and the word is its encoding: no
bit of a decoded word is ignored. -/
def Obligations.EncodeOfDecode : Prop :=
  ∀ (w : Word) (i : Instr), decode w = .command i → i.WellFormed ∧ encode i = w

/-- R83: a word is the named command exactly when (word & mask) == match, for the twelve rows as printed, and the rows do
not overlap. -/
def Obligations.OpcodeTableRows : Prop :=
  (∀ r ∈ opcodeTable, ∀ w : Word, w &&& r.mask = r.value ↔ ∃ i, decode w = .command i ∧ i.mnemonic = r.mnemonic) ∧
  ∀ w : Word, ∀ r ∈ opcodeTable, ∀ q ∈ opcodeTable, w &&& r.mask = r.value → w &&& q.mask = q.value → r = q

/-- R84, R85: a word is Illegal exactly when no row of the table names it. -/
def Obligations.IllegalExactlyOutsideTheTable : Prop :=
  ∀ w : Word, (∃ why, decode w = .illegal why) ↔ ∀ r ∈ opcodeTable, w &&& r.mask ≠ r.value

/-- R83, R87: words written out from the format decode to the commands they stand for. -/
def Obligations.SampleWordsDecode : Prop :=
  decode 0x00006110#32 = .command (.loadFreq 0x61#9) ∧ decode 0x0001FE21#32 = .command (.queryNode 510#9) ∧
  decode 0x00000041#32 = .command .packFlush ∧ decode 0x0000FF50#32 = .command (.unpackByte 0xFF#9) ∧
  decode 0x00000030#32 = .command .derive ∧ decode 0x00000001#32 = .command .reset ∧
  decode 0x00016110#32 = .illegal .symBit16 ∧ decode 0x00000100#32 = .illegal .argNotZero ∧
  decode 0x00020021#32 = .illegal .reservedBits ∧ decode 0x00000002#32 = .illegal .unassignedOp

/-! ### Issue, completion and the step (spec/40_control.md R100, R101) -/

/-- R100: the outcomes of a CMD write, in the order of its checks, and what each command snapshots. -/
def Obligations.CmdWriteOutcomes : Prop :=
  ∀ (s : State) (w : Word) (rest : List Event), s.inReset = false → s.agenda = .access (.write 4 0x00 w) :: rest →
    let r : State := { s with agenda := rest }
    (s.pend ≠ none → step s = .next { r with ovr := true }) ∧
    (s.pend = none → s.phase = .error → w = 0x00000001#32 →
      step s = .next { r with rej := false, pend := some ⟨.reset, .none⟩ }) ∧
    (s.pend = none → s.phase = .error → w ≠ 0x00000001#32 → step s = .next r) ∧
    (s.pend = none → s.phase ≠ .error → (∀ i, decode w ≠ .command i) →
      step s = .next { r with phase := .error, err := .illegalOpcode }) ∧
    (∀ c, s.pend = none → s.phase ≠ .error → decode w = .command c →
      (legal c s.phase s.stream s.closed = false → step s = .next { r with phase := .error, err := .illegalSequence }) ∧
      (legal c s.phase s.stream s.closed = true → 64 < s.out.length + worst c → step s = .next { r with rej := true }) ∧
      (legal c s.phase s.stream s.closed = true → s.out.length + worst c ≤ 64 →
        step s = .next { r with rej := false, pend := some ⟨c, snapshot c s⟩ }) ∧
      (match c with
        | .loadFreq _ => snapshot c s = .freq (s.freqHi ++ s.freqLo)
        | .unpackByte _ => snapshot c s = .limit s.limitEn s.limit
        | _ => snapshot c s = .none))

/-- R104: the table of the phases and stream states in which each command is legal. -/
def Obligations.LegalityTable : Prop :=
  ∀ (p : Phase) (st : Stream) (cl : Bool) (a : Arg),
    (legal .nop p st cl = true ↔ p ≠ .error) ∧ legal .reset p st cl = true ∧
    (legal (.loadFreq a) p st cl = true ↔ p = .load) ∧ (legal (.readFreq a) p st cl = true ↔ p ≠ .error) ∧
    (legal .build p st cl = true ↔ p = .load) ∧
    (legal (.queryNode a) p st cl = true ↔ p = .tree ∨ p = .codes) ∧
    (legal .derive p st cl = true ↔ p = .tree) ∧ (legal (.queryCode a) p st cl = true ↔ p = .codes) ∧
    (legal (.packByte a) p st cl = true ↔ p = .codes ∧ (st = .none ∨ st = .pack) ∧ cl = false) ∧
    (legal .packFlush p st cl = true ↔ p = .codes ∧ (st = .none ∨ st = .pack) ∧ cl = false) ∧
    (legal (.unpackByte a) p st cl = true ↔ (p = .tree ∨ p = .codes) ∧ (st = .none ∨ st = .unpack) ∧ cl = false) ∧
    (legal .unpackEnd p st cl = true ↔ (p = .tree ∨ p = .codes) ∧ (st = .none ∨ st = .unpack) ∧ cl = false)

/-- R100, R101, R253: where the host's next command line decodes to a legal command with room, the step is exec of that
command at the state with the command accepted, and then PEND <- none. -/
def Obligations.StepRunsTheDecodedCommand : Prop :=
  ∀ (s : State) (w : Word) (i : Instr) (rest : List Event), s.agenda = .command w :: rest → s.inReset = false →
    s.pend = none → s.phase ≠ .error → decode w = .command i → legal i s.phase s.stream s.closed = true →
    s.out.length + worst i ≤ 64 →
    step s = match exec i { s with agenda := rest, rej := false, pend := some ⟨i, snapshot i s⟩ } with
      | .next t => .next { t with pend := none }
      | .fault r => .fault r
      | .refused r => .refused r

/-- R101: the engine's step executes the pending command and then sets PEND to none. That it falls where the agenda says, and
at the latest when the host does nothing more (the case of the empty agenda), is the model's choice (log entry 2). -/
def Obligations.EngineStepExecutesThePendingCommand : Prop :=
  ∀ (s : State) (p : Pending) (rest : List Event), s.pend = some p →
    (s.agenda = .engine :: rest ∨ (s.agenda = [] ∧ rest = [])) →
    step s = match exec p.cmd { s with agenda := rest } with
      | .next t => .next { t with pend := none }
      | .fault r => .fault r
      | .refused r => .refused r

/-- R253: the atomic reading of a command line is the CMD write followed by the engine's step. -/
def Obligations.CommandLineIsWriteThenCompletion : Prop :=
  ∀ (s : State) (w : Word) (rest : List Event),
    step { s with agenda := .command w :: rest } =
      Host.Core.run Sys2Proof.core 2 { s with agenda := .access (.write 4 0x00 w) :: .engine :: rest }

/-- R71: with no host event and no pending command nothing changes (that idle time is a step is the model's choice, log
entry 13). -/
def Obligations.IdleBlockKeepsItsState : Prop :=
  ∀ s : State, s.pend = none → (s.agenda = [] → step s = .next s) ∧
    ∀ rest, s.agenda = .engine :: rest → step s = .next { s with agenda := rest }

/-! ### What each command does, at exec -/

/-- R102, R103, R110, R111: NOP changes nothing, RESET gives every field its reset value, LOAD_FREQ and READ_FREQ move one
table entry; nothing else changes. (LOAD_FREQ's operand with nothing pending is the model's choice, log entry 12.) -/
def Obligations.ControlAndTableCommandsComplete : Prop :=
  ∀ (s : State) (a : Arg),
    exec .nop s = .next s ∧
    exec .reset s = .next { State.reset with inReset := s.inReset, agenda := s.agenda, seen := s.seen, draws := s.draws } ∧
    (∃ t : State, exec (.loadFreq a) s = .next t ∧ t = { s with freq := t.freq } ∧
      ∀ x, t.freqAt x = if x = a.extractLsb' 0 8 then freqOperand s else s.freqAt x) ∧
    (∃ t : State, exec (.readFreq a) s = .next t ∧ t = { s with freqLo := t.freqLo, freqHi := t.freqHi } ∧
      t.freqHi ++ t.freqLo = s.freqAt (a.extractLsb' 0 8))

/-- R127, R36, R37: QUERY_NODE reports the five fields of an allocated node, or zeros, and changes nothing else. A leaf
reports LEFT = RIGHT = 0x1FF, an internal node SYM = 0. -/
def Obligations.QueryNodeCompletes : Prop :=
  ∀ (s : State) (a : Arg), ∃ t : State, exec (.queryNode a) s = .next t ∧
    t = { s with nodeInfo := t.nodeInfo, nodeW0 := t.nodeW0, nodeW1 := t.nodeW1, nodeW2 := t.nodeW2 } ∧
    (∀ n : Node, s.nodes[a.toNat]? = some n →
      t.nodeInfo.getLsbD 0 = true ∧ t.nodeInfo.extractLsb' 28 4 = 0 ∧
      match n with
      | .leaf y w => t.nodeInfo.getLsbD 1 = false ∧ t.nodeInfo.extractLsb' 2 8 = y ∧
          t.nodeInfo.extractLsb' 10 9 = 0x1FF#9 ∧ t.nodeInfo.extractLsb' 19 9 = 0x1FF#9 ∧
          t.nodeW2 ++ t.nodeW1 ++ t.nodeW0 = w
      | .internal w l r => t.nodeInfo.getLsbD 1 = true ∧ t.nodeInfo.extractLsb' 2 8 = 0#8 ∧
          t.nodeInfo.extractLsb' 10 9 = l ∧ t.nodeInfo.extractLsb' 19 9 = r ∧
          t.nodeW2 ++ t.nodeW1 ++ t.nodeW0 = w) ∧
    (s.nodes[a.toNat]? = none → t.nodeInfo = 0 ∧ t.nodeW0 = 0 ∧ t.nodeW1 = 0 ∧ t.nodeW2 = 0)

/-- R152, R34, R35: QUERY_CODE reports the length and the left-justified bits of a code of at most 255 bits, zeros past its
end, and changes nothing else. -/
def Obligations.QueryCodeCompletes : Prop :=
  ∀ (s : State) (a : Arg), (s.codeAt (a.extractLsb' 0 8)).length ≤ 255 →
    ∃ t : State, exec (.queryCode a) s = .next t ∧ t = { s with codeLen := t.codeLen, codeW := t.codeW } ∧
      t.codeLen.toNat = (s.codeAt (a.extractLsb' 0 8)).length ∧
      ∀ (j : Fin 8) (m : Nat), m < 32 →
        (t.codeW[j.val]'j.isLt).getLsbD (31 - m) = (s.codeAt (a.extractLsb' 0 8)).getD (32 * j.val + m) false

/-- R126, R128: BUILD on a table with a symbol makes its tree and changes nothing else: leaves first in ascending symbol
order with their zero-extended frequencies, then the internal nodes, 2L − 1 in all, the root last, SINGLE for a lone leaf. -/
def Obligations.BuildCompletesWithTheTree : Prop :=
  ∀ s : State, LoadReady s → s.alphabet ≠ [] →
    ∃ (t : State) (T : Tree), exec .build s = .next t ∧
      t = { s with nodes := t.nodes, root := t.root, uptr := t.root, single := t.single, phase := .tree } ∧
      BuiltTree t T ∧ T.total = s.totalFreq ∧ T.depth ≤ s.alphabet.length - 1 ∧
      (∀ (k : Nat) (x : Sym), s.alphabet[k]? = some x → t.nodes[k]? = some (Node.leaf x ((s.freqAt x).setWidth 72))) ∧
      (∀ (k : Nat) (n : Node), s.alphabet.length ≤ k → t.nodes[k]? = some n → n.isInternal = true) ∧
      (∀ i : NodeIdx, i.toNat < t.nodes.length → Reaches t.nodes t.root i)

/-- R126, R212: BUILD on the empty table raises EmptyAlphabet and changes nothing besides PHASE, ERR and PEND. -/
def Obligations.BuildRejectsTheEmptyAlphabet : Prop :=
  ∀ s : State, s.pq = [] → s.alphabet = [] →
    exec .build s = .next { s with phase := .error, err := .emptyAlphabet, pend := none }

/-- R150: DERIVE on an arena that holds a tree with distinct symbols gives each leaf's symbol its path, "0" to a lone leaf,
no code to any other symbol, sets PHASE to CODES and changes nothing else. -/
def Obligations.DeriveCompletesWithThePaths : Prop :=
  ∀ (s : State) (T : Tree), Spans s.nodes T s.root → T.size ≤ 511 → T.syms.Nodup →
    ∃ t : State, exec .derive s = .next t ∧ t = { s with code := t.code, dstk := [], phase := .codes } ∧
      (∀ x p, (x, p) ∈ T.paths [] → t.codeAt x = if T.isLeaf then [false] else p) ∧
      (∀ x, x ∉ T.syms → t.codeAt x = [])

/-- R170, R171: PACK_BYTE of a symbol with a code appends the code's bits: every full group of eight leaves as a byte, first
bit in bit 7, the rest stays in PACC, PACK_BITS counts the bits, STREAM becomes PACK, and nothing else changes. Of a symbol
without a code it raises UnknownSymbol and appends nothing. -/
def Obligations.PackByteCompletes : Prop :=
  ∀ (s : State) (a : Arg), s.pacc.length < 8 →
    let p := s.codeAt (a.extractLsb' 0 8)
    let bits := s.pacc ++ p
    (p ≠ [] → ∃ (t : State) (new : List Byte), exec (.packByte a) s = .next t ∧
      t = { s with stream := .pack, packBits := s.packBits + BitVec.ofNat 64 p.length, pacc := t.pacc, out := s.out ++ new } ∧
      new.length = bits.length / 8 ∧ BytesHold new bits ∧ t.pacc = bits.drop (8 * (bits.length / 8))) ∧
    (p = [] → exec (.packByte a) s = .next { s with phase := .error, err := .unknownSymbol, pend := none })

/-- R172: PACK_FLUSH emits a non-empty PACC as one byte padded with zeros, closes the stream, and changes nothing else. -/
def Obligations.PackFlushCompletes : Prop :=
  ∀ s : State, s.pacc.length < 8 →
    (s.pacc = [] → exec .packFlush s = .next { s with stream := .pack, closed := true }) ∧
    (s.pacc ≠ [] → ∃ b : Byte, exec .packFlush s =
        .next { s with stream := .pack, closed := true, pacc := [], out := s.out ++ [b] } ∧ BytesHold [b] s.pacc)

/-- R190, R191, R193: UNPACK_BYTE on a tree with two leaves or more walks the bits the limit leaves, bit 7 first, from the
pointer's subtree: the symbols it meets are pushed, the pointer ends where the walk ends, UNPACK_BITS counts the bits
modulo 2^64 (R32), LIMHIT is set if one was discarded, and nothing else changes. (The limit used with nothing pending is the
model's choice, log entry 12.) -/
def Obligations.UnpackByteCompletes : Prop :=
  ∀ (s : State) (a : Arg) (T c : Tree), Spans s.nodes T s.root → T.isLeaf = false → Spans s.nodes c s.uptr →
    c.isLeaf = false → s.nodes.length ≤ 511 →
    let n := traversed (limitOperand s) s.unpackBits
    let bits := (List.range 8).map fun k => (a.extractLsb' 0 8).getLsbD (7 - k)
    let end_ := walk T c (bits.take n)
    ∃ t : State, exec (.unpackByte a) s = .next t ∧
      t = { s with stream := .unpack, out := s.out ++ end_.1, uptr := t.uptr,
                   unpackBits := s.unpackBits + BitVec.ofNat 64 n, limhit := s.limhit || decide (n < 8) } ∧
      Spans t.nodes end_.2 t.uptr

/-- R190, R191: UNPACK_BYTE on a lone leaf pushes its symbol for every 0 bit the limit leaves; the first 1 bit among them
raises CorruptStream, is not counted, and what came before it stands (R212). (The limit used with nothing pending is the
model's choice, log entry 12.) -/
def Obligations.UnpackByteOfALoneLeaf : Prop :=
  ∀ (s : State) (a : Arg) (y : Sym) (w : Weight), s.nodes[s.root.toNat]? = some (Node.leaf y w) → s.uptr = s.root →
    let n := traversed (limitOperand s) s.unpackBits
    let bits := ((List.range 8).map fun k => (a.extractLsb' 0 8).getLsbD (7 - k)).take n
    let z := bits.idxOf true
    (true ∉ bits → exec (.unpackByte a) s =
      .next { s with stream := .unpack, out := s.out ++ List.replicate n y,
                     unpackBits := s.unpackBits + BitVec.ofNat 64 n, limhit := s.limhit || decide (n < 8) }) ∧
    (true ∈ bits → exec (.unpackByte a) s =
      .next { s with stream := .unpack, out := s.out ++ List.replicate z y,
                     unpackBits := s.unpackBits + BitVec.ofNat 64 z,
                     phase := .error, err := .corruptStream, pend := none })

/-- R192: UNPACK_END closes the stream; a pointer off the root goes back to it and sets PARTIAL; nothing else changes. -/
def Obligations.UnpackEndCompletes : Prop :=
  ∀ s : State,
    (s.uptr = s.root → exec .unpackEnd s = .next { s with stream := .unpack, closed := true }) ∧
    (s.uptr ≠ s.root → exec .unpackEnd s =
      .next { s with stream := .unpack, closed := true, partialFlag := true, uptr := s.root })

/-! ### The commands as the host issues them: encoding, legality, exceptions and effect in one step -/

/-- R102: the words with OP 0x00. -/
def Obligations.NopCommandLine : Prop :=
  ∀ (s : State) (w : Word) (rest : List Event), HostIssues s w rest → w.extractLsb' 0 8 = 0x00#8 →
    let r : State := { s with agenda := rest }
    (s.phase = .error → step s = .next r) ∧
    (s.phase ≠ .error → w ≠ 0 → step s = .next { r with phase := .error, err := .illegalOpcode }) ∧
    (s.phase ≠ .error → w = 0 → step s = .next { r with rej := false })

/-- R103: the word 0x00000001 resets the block in every phase, but is dropped while BUSY = 1; the other words with OP 0x01
are Illegal, and ignored in ERROR. -/
def Obligations.ResetCommandLine : Prop :=
  (∀ (s : State) (rest : List Event), s.inReset = false → s.pend ≠ none →
    s.agenda = .access (.write 4 0x00 0x00000001#32) :: rest → step s = .next { s with agenda := rest, ovr := true }) ∧
  ∀ (s : State) (w : Word) (rest : List Event), HostIssues s w rest → w.extractLsb' 0 8 = 0x01#8 →
    (w = 0x00000001#32 → step s = .next { State.reset with agenda := rest, seen := s.seen, draws := s.draws }) ∧
    (w ≠ 0x00000001#32 → s.phase = .error → step s = .next { s with agenda := rest }) ∧
    (w ≠ 0x00000001#32 → s.phase ≠ .error →
      step s = .next { s with agenda := rest, phase := .error, err := .illegalOpcode })

/-- R110: the words with OP 0x10. -/
def Obligations.LoadFreqCommandLine : Prop :=
  ∀ (s : State) (w : Word) (rest : List Event), HostIssues s w rest → w.extractLsb' 0 8 = 0x10#8 →
    let r : State := { s with agenda := rest }
    (s.phase = .error → step s = .next r) ∧
    (s.phase ≠ .error → w.extractLsb' 16 16 ≠ 0 → step s = .next { r with phase := .error, err := .illegalOpcode }) ∧
    (s.phase = .tree ∨ s.phase = .codes → w.extractLsb' 16 16 = 0 →
      step s = .next { r with phase := .error, err := .illegalSequence }) ∧
    (s.phase = .load → w.extractLsb' 16 16 = 0 → ∃ t : State, step s = .next t ∧ t = { r with rej := false, freq := t.freq } ∧
      ∀ x, t.freqAt x = if x = w.extractLsb' 8 8 then s.freqHi ++ s.freqLo else s.freqAt x)

/-- R111: the words with OP 0x11. -/
def Obligations.ReadFreqCommandLine : Prop :=
  ∀ (s : State) (w : Word) (rest : List Event), HostIssues s w rest → w.extractLsb' 0 8 = 0x11#8 →
    let r : State := { s with agenda := rest }
    (s.phase = .error → step s = .next r) ∧
    (s.phase ≠ .error → w.extractLsb' 16 16 ≠ 0 → step s = .next { r with phase := .error, err := .illegalOpcode }) ∧
    (s.phase ≠ .error → w.extractLsb' 16 16 = 0 →
      step s = .next { r with rej := false, freqLo := (s.freqAt (w.extractLsb' 8 8)).extractLsb' 0 32,
                              freqHi := (s.freqAt (w.extractLsb' 8 8)).extractLsb' 32 32 })

/-- R126: the words with OP 0x20. -/
def Obligations.BuildCommandLine : Prop :=
  ∀ (s : State) (w : Word) (rest : List Event), HostIssues s w rest → w.extractLsb' 0 8 = 0x20#8 →
    let r : State := { s with agenda := rest }
    (s.phase = .error → step s = .next r) ∧
    (s.phase ≠ .error → w ≠ 0x00000020#32 → step s = .next { r with phase := .error, err := .illegalOpcode }) ∧
    (s.phase = .tree ∨ s.phase = .codes → w = 0x00000020#32 →
      step s = .next { r with phase := .error, err := .illegalSequence }) ∧
    (LoadReady s → w = 0x00000020#32 → s.alphabet = [] →
      step s = .next { r with rej := false, phase := .error, err := .emptyAlphabet }) ∧
    (LoadReady s → w = 0x00000020#32 → s.alphabet ≠ [] → ∃ (t : State) (T : Tree), step s = .next t ∧
      t = { r with rej := false, nodes := t.nodes, root := t.root, uptr := t.root, single := t.single, phase := .tree } ∧
      BuiltTree t T)

/-- R127: the words with OP 0x21; the index is bits 16:8. -/
def Obligations.QueryNodeCommandLine : Prop :=
  ∀ (s : State) (w : Word) (rest : List Event), HostIssues s w rest → w.extractLsb' 0 8 = 0x21#8 →
    let r : State := { s with agenda := rest }
    let i : Nat := (w.extractLsb' 8 9).toNat
    (s.phase = .error → step s = .next r) ∧
    (s.phase ≠ .error → w.extractLsb' 17 15 ≠ 0 → step s = .next { r with phase := .error, err := .illegalOpcode }) ∧
    (s.phase = .load → w.extractLsb' 17 15 = 0 → step s = .next { r with phase := .error, err := .illegalSequence }) ∧
    (s.phase = .tree ∨ s.phase = .codes → w.extractLsb' 17 15 = 0 → s.nodes.length ≤ i →
      step s = .next { r with rej := false, nodeInfo := 0, nodeW0 := 0, nodeW1 := 0, nodeW2 := 0 }) ∧
    (∀ (y : Sym) (v : Weight), s.phase = .tree ∨ s.phase = .codes → w.extractLsb' 17 15 = 0 →
      s.nodes[i]? = some (Node.leaf y v) → step s = .next { r with
        rej := false
        nodeInfo := BitVec.ofNat 32 (2 ^ 19 * 0x1FF + 2 ^ 10 * 0x1FF + 2 ^ 2 * y.toNat + 1)
        nodeW0 := BitVec.ofNat 32 v.toNat
        nodeW1 := BitVec.ofNat 32 (v.toNat / 2 ^ 32)
        nodeW2 := BitVec.ofNat 8 (v.toNat / 2 ^ 64) }) ∧
    (∀ (v : Weight) (a b : NodeIdx), s.phase = .tree ∨ s.phase = .codes → w.extractLsb' 17 15 = 0 →
      s.nodes[i]? = some (Node.internal v a b) → step s = .next { r with
        rej := false
        nodeInfo := BitVec.ofNat 32 (2 ^ 19 * b.toNat + 2 ^ 10 * a.toNat + 2 + 1)
        nodeW0 := BitVec.ofNat 32 v.toNat
        nodeW1 := BitVec.ofNat 32 (v.toNat / 2 ^ 32)
        nodeW2 := BitVec.ofNat 8 (v.toNat / 2 ^ 64) })

/-- R150: the words with OP 0x30, on a tree that BUILD made. -/
def Obligations.DeriveCommandLine : Prop :=
  ∀ (s : State) (w : Word) (rest : List Event), HostIssues s w rest → w.extractLsb' 0 8 = 0x30#8 →
    let r : State := { s with agenda := rest }
    (s.phase = .error → step s = .next r) ∧
    (s.phase ≠ .error → w ≠ 0x00000030#32 → step s = .next { r with phase := .error, err := .illegalOpcode }) ∧
    (s.phase = .load ∨ s.phase = .codes → w = 0x00000030#32 →
      step s = .next { r with phase := .error, err := .illegalSequence }) ∧
    (∀ T, s.phase = .tree → w = 0x00000030#32 → BuiltTree s T → ∃ t : State, step s = .next t ∧
      t = { r with rej := false, code := t.code, dstk := [], phase := .codes } ∧
      (∀ x p, (x, p) ∈ T.paths [] → t.codeAt x = if T.isLeaf then [false] else p) ∧
      (∀ x, s.freqAt x = 0 → t.codeAt x = []))

/-- R152: the words with OP 0x31. -/
def Obligations.QueryCodeCommandLine : Prop :=
  ∀ (s : State) (w : Word) (rest : List Event), HostIssues s w rest → w.extractLsb' 0 8 = 0x31#8 →
    let r : State := { s with agenda := rest }
    let p := s.codeAt (w.extractLsb' 8 8)
    (s.phase = .error → step s = .next r) ∧
    (s.phase ≠ .error → w.extractLsb' 16 16 ≠ 0 → step s = .next { r with phase := .error, err := .illegalOpcode }) ∧
    (s.phase = .load ∨ s.phase = .tree → w.extractLsb' 16 16 = 0 →
      step s = .next { r with phase := .error, err := .illegalSequence }) ∧
    (s.phase = .codes → w.extractLsb' 16 16 = 0 → p.length ≤ 255 → ∃ t : State, step s = .next t ∧
      t = { r with rej := false, codeLen := BitVec.ofNat 8 p.length, codeW := t.codeW } ∧
      (∀ k, (h : k < p.length) → (hw : k / 32 < 8) → (t.codeW[k / 32]'hw).getLsbD (31 - k % 32) = p[k]) ∧
      (∀ k, p.length ≤ k → (hw : k / 32 < 8) → (t.codeW[k / 32]'hw).getLsbD (31 - k % 32) = false))

/-- R171: the words with OP 0x40. -/
def Obligations.PackByteCommandLine : Prop :=
  ∀ (s : State) (w : Word) (rest : List Event), HostIssues s w rest → w.extractLsb' 0 8 = 0x40#8 → s.pacc.length < 8 →
    let r : State := { s with agenda := rest }
    let p := s.codeAt (w.extractLsb' 8 8)
    let bits := s.pacc ++ p
    let open_ := s.phase = .codes ∧ s.stream ≠ .unpack ∧ s.closed = false
    (s.phase = .error → step s = .next r) ∧
    (s.phase ≠ .error → w.extractLsb' 16 16 ≠ 0 → step s = .next { r with phase := .error, err := .illegalOpcode }) ∧
    (s.phase ≠ .error → ¬ open_ → w.extractLsb' 16 16 = 0 →
      step s = .next { r with phase := .error, err := .illegalSequence }) ∧
    (open_ → w.extractLsb' 16 16 = 0 → 32 < s.out.length → step s = .next { r with rej := true }) ∧
    (open_ → w.extractLsb' 16 16 = 0 → s.out.length ≤ 32 → p = [] →
      step s = .next { r with rej := false, phase := .error, err := .unknownSymbol }) ∧
    (open_ → w.extractLsb' 16 16 = 0 → s.out.length ≤ 32 → p ≠ [] → ∃ (t : State) (new : List Byte), step s = .next t ∧
      t = { r with rej := false, stream := .pack, packBits := s.packBits + BitVec.ofNat 64 p.length, pacc := t.pacc,
                   out := s.out ++ new } ∧
      new.length = bits.length / 8 ∧ BytesHold new bits ∧ t.pacc = bits.drop (8 * (bits.length / 8)))

/-- R172: the words with OP 0x41. -/
def Obligations.PackFlushCommandLine : Prop :=
  ∀ (s : State) (w : Word) (rest : List Event), HostIssues s w rest → w.extractLsb' 0 8 = 0x41#8 → s.pacc.length < 8 →
    let r : State := { s with agenda := rest }
    let open_ := s.phase = .codes ∧ s.stream ≠ .unpack ∧ s.closed = false
    (s.phase = .error → step s = .next r) ∧
    (s.phase ≠ .error → w ≠ 0x00000041#32 → step s = .next { r with phase := .error, err := .illegalOpcode }) ∧
    (s.phase ≠ .error → ¬ open_ → w = 0x00000041#32 →
      step s = .next { r with phase := .error, err := .illegalSequence }) ∧
    (open_ → w = 0x00000041#32 → 63 < s.out.length → step s = .next { r with rej := true }) ∧
    (open_ → w = 0x00000041#32 → s.out.length ≤ 63 → s.pacc = [] →
      step s = .next { r with rej := false, stream := .pack, closed := true }) ∧
    (open_ → w = 0x00000041#32 → s.out.length ≤ 63 → s.pacc ≠ [] → ∃ b : Byte,
      step s = .next { r with rej := false, stream := .pack, closed := true, pacc := [], out := s.out ++ [b] } ∧
      BytesHold [b] s.pacc)

/-- R191: the words with OP 0x50. An accepted one walks a tree that BUILD made with two symbols or more; on a lone leaf it
repeats the symbol for every 0 bit, and the first 1 bit raises CorruptStream (R190). -/
def Obligations.UnpackByteCommandLine : Prop :=
  ∀ (s : State) (w : Word) (rest : List Event), HostIssues s w rest → w.extractLsb' 0 8 = 0x50#8 →
    let r : State := { s with agenda := rest }
    let open_ := (s.phase = .tree ∨ s.phase = .codes) ∧ s.stream ≠ .pack ∧ s.closed = false
    (s.phase = .error → step s = .next r) ∧
    (s.phase ≠ .error → w.extractLsb' 16 16 ≠ 0 → step s = .next { r with phase := .error, err := .illegalOpcode }) ∧
    (s.phase ≠ .error → ¬ open_ → w.extractLsb' 16 16 = 0 →
      step s = .next { r with phase := .error, err := .illegalSequence }) ∧
    (open_ → w.extractLsb' 16 16 = 0 → 56 < s.out.length → step s = .next { r with rej := true }) ∧
    (∀ T c, open_ → w.extractLsb' 16 16 = 0 → s.out.length ≤ 56 → BuiltTree s T → T.isLeaf = false →
      Spans s.nodes c s.uptr → c.isLeaf = false →
      let n := traversed (s.limitEn, s.limit) s.unpackBits
      let bits := (List.range 8).map fun k => (w.extractLsb' 8 8).getLsbD (7 - k)
      let end_ := walk T c (bits.take n)
      ∃ t : State, step s = .next t ∧
        t = { r with rej := false, stream := .unpack, out := s.out ++ end_.1, uptr := t.uptr,
                     unpackBits := s.unpackBits + BitVec.ofNat 64 n, limhit := s.limhit || decide (n < 8) } ∧
        Spans t.nodes end_.2 t.uptr) ∧
    (∀ y v, open_ → w.extractLsb' 16 16 = 0 → s.out.length ≤ 56 → s.nodes[s.root.toNat]? = some (Node.leaf y v) →
      s.uptr = s.root →
      let n := traversed (s.limitEn, s.limit) s.unpackBits
      let bits := ((List.range 8).map fun k => (w.extractLsb' 8 8).getLsbD (7 - k)).take n
      let z := bits.idxOf true
      (true ∉ bits → step s =
        .next { r with rej := false, stream := .unpack, out := s.out ++ List.replicate n y,
                       unpackBits := s.unpackBits + BitVec.ofNat 64 n, limhit := s.limhit || decide (n < 8) }) ∧
      (true ∈ bits → step s =
        .next { r with rej := false, stream := .unpack, out := s.out ++ List.replicate z y,
                       unpackBits := s.unpackBits + BitVec.ofNat 64 z,
                       phase := .error, err := .corruptStream }))

/-- R192: the words with OP 0x51. -/
def Obligations.UnpackEndCommandLine : Prop :=
  ∀ (s : State) (w : Word) (rest : List Event), HostIssues s w rest → w.extractLsb' 0 8 = 0x51#8 →
    let r : State := { s with agenda := rest }
    let open_ := (s.phase = .tree ∨ s.phase = .codes) ∧ s.stream ≠ .pack ∧ s.closed = false
    (s.phase = .error → step s = .next r) ∧
    (s.phase ≠ .error → w ≠ 0x00000051#32 → step s = .next { r with phase := .error, err := .illegalOpcode }) ∧
    (s.phase ≠ .error → ¬ open_ → w = 0x00000051#32 →
      step s = .next { r with phase := .error, err := .illegalSequence }) ∧
    (open_ → w = 0x00000051#32 → s.uptr = s.root →
      step s = .next { r with rej := false, stream := .unpack, closed := true }) ∧
    (open_ → w = 0x00000051#32 → s.uptr ≠ s.root →
      step s = .next { r with rej := false, stream := .unpack, closed := true, partialFlag := true, uptr := s.root })

/-! ### The priority queue (spec/42_tree_builder.md R122 to R125) -/

/-- R122: the key order is a strict total order on entries. -/
def Obligations.QueueKeyIsAStrictTotalOrder : Prop :=
  (∀ a : PQEntry, a.lt a = false) ∧ (∀ a b c : PQEntry, a.lt b = true → b.lt c = true → a.lt c = true) ∧
  (∀ a b : PQEntry, a ≠ b → a.lt b = true ∨ b.lt a = true) ∧
  (∀ a b : PQEntry, a.lt b = true ↔ a.w.toNat < b.w.toNat ∨ (a.w.toNat = b.w.toNat ∧ a.i.toNat < b.i.toNat))

/-- R123, R124, R125: inserting a new entry keeps the queue in strict key order and adds exactly that entry; extracting
takes the least entry and leaves the rest; peeking names it and leaves the queue; both refuse an empty queue. -/
def Obligations.QueueOperations : Prop :=
  (∀ (e : PQEntry) (s : State), s.pq.Pairwise (fun a b => a.lt b = true) → e ∉ s.pq →
    (insertPQ e s).pq.Pairwise (fun a b => a.lt b = true) ∧ (insertPQ e s).pq.Perm (e :: s.pq)) ∧
  (∀ s : State, s.pq = [] → extractMin s = none ∧ peekMin s = none) ∧
  (∀ s : State, s.pq.Pairwise (fun a b => a.lt b = true) → s.pq ≠ [] → ∃ (e : PQEntry) (t : State), extractMin s = some (e, t) ∧
    peekMin s = some e ∧ (∀ x ∈ s.pq, x ≠ e → e.lt x = true) ∧ s.pq = e :: t.pq ∧ t = { s with pq := t.pq })

/-! ### The tree and the codes (spec/42_tree_builder.md R128, spec/43_code_deriver.md R153: inferences the spec marks as
derived from its command rules) -/

/-- R122, R126, R128 item 4: the tree in the arena is the one the Huffman construction on exact weights gives, merging the
two least by weight and then by allocation order, the first of them to the left. -/
def Obligations.BuildRefinesHuffman : Prop :=
  ∀ s : State, LoadReady s → s.alphabet ≠ [] →
    ∃ (t : State) (T : Tree), exec .build s = .next t ∧ huffman s = some T ∧ Spans t.nodes T t.root

/-- R128 item 5: the arena, the root and SINGLE are functions of the frequency table alone. -/
def Obligations.TreeIsAFunctionOfTheTable : Prop :=
  ∀ s u : State, LoadReady s → LoadReady u → s.freq = u.freq → s.alphabet ≠ [] →
    ∃ t v : State, exec .build s = .next t ∧ exec .build u = .next v ∧ t.nodes = v.nodes ∧ t.root = v.root ∧ t.uptr = v.uptr ∧
      t.single = v.single

/-- R153 items 1 to 3: after BUILD and DERIVE exactly the present symbols have codes, no code starts another, and with two
symbols or more every length is between 1 and L − 1 and the lengths meet Kraft's equality; a lone symbol has "0". -/
def Obligations.DerivedCodesArePrefixFree : Prop :=
  ∀ s : State, LoadReady s → s.alphabet ≠ [] →
    ∃ t u : State, exec .build s = .next t ∧ exec .derive t = .next u ∧
      (∀ x, u.codeAt x ≠ [] ↔ s.freqAt x ≠ 0) ∧
      (∀ a b, a ≠ b → s.freqAt a ≠ 0 → s.freqAt b ≠ 0 → ¬ u.codeAt a <+: u.codeAt b) ∧
      (2 ≤ s.alphabet.length → (∀ x, s.freqAt x ≠ 0 →
          1 ≤ (u.codeAt x).length ∧ (u.codeAt x).length ≤ s.alphabet.length - 1) ∧
        (s.alphabet.map fun x => 2 ^ (255 - (u.codeAt x).length)).sum = 2 ^ 255) ∧
      (∀ x, s.alphabet = [x] → u.codeAt x = [false])

/-! ### Whole streams (spec/44_bit_packer.md R173, R174, spec/45_bit_unpacker.md R194, R195: inferences the spec marks as
derived from its command rules) -/

/-- R173, R174, R154: packing an input and flushing delivers the MSB-first 8-bit groups of the concatenated codes, the last
one zero-padded, ⌈N / 8⌉ bytes in all, with PACK_BITS = N. -/
def Obligations.PackRunDeliversTheCodes : Prop :=
  ∀ (freq : Vector Freq 256) (input : List Byte), (loaded freq).alphabet ≠ [] →
    (∀ x ∈ input, (loaded freq).freqAt x ≠ 0) →
    ∃ (s : State) (payload : List Byte), runLines ([.build, .derive] ++ input.map packCmd ++ [.packFlush]) (loaded freq) = some (s, payload) ∧
      s.phase = .codes ∧ s.closed = true ∧
      let bits := (input.map s.codeAt).flatten
      payload.length = (bits.length + 7) / 8 ∧ BytesHold payload bits ∧ s.packBits = BitVec.ofNat 64 bits.length

/-- R194: what a compression run packs, a decompression run with the same table and the limit PACK_BITS unpacks to exactly
the input, with PARTIAL = 0. -/
def Obligations.RoundTripUnderTheLimit : Prop :=
  ∀ (freq : Vector Freq 256) (input : List Byte), input ≠ [] → (∀ x ∈ input, (loaded freq).freqAt x ≠ 0) →
    ∃ (s : State) (payload : List Byte), runLines ([.build, .derive] ++ input.map packCmd ++ [.packFlush]) (loaded freq) = some (s, payload) ∧
      ((input.map fun x => (s.codeAt x).length).sum < 2 ^ 64 →
        ∃ u : State, runLines ([.build] ++ payload.map unpackCmd ++ [.unpackEnd])
            { loaded freq with limitEn := true, limit := s.packBits } = some (u, input) ∧
          u.partialFlag = false ∧ u.phase = .tree ∧ u.err = .none)

/-- R195: without the limit the decoder adds the symbols the padding decodes to: ⌊p / d⌋ copies of the symbol whose code is
d zeros, where p is the number of padding bits, and PARTIAL is set exactly when p mod d is not 0. A lone leaf's code "0" is
the case d = 1. -/
def Obligations.BaselineDecodeAddsThePadding : Prop :=
  ∀ (freq : Vector Freq 256) (input : List Byte), input ≠ [] → (∀ x ∈ input, (loaded freq).freqAt x ≠ 0) →
    ∃ (s : State) (payload : List Byte) (z : Sym) (d : Nat) (u : State),
      runLines ([.build, .derive] ++ input.map packCmd ++ [.packFlush]) (loaded freq) = some (s, payload) ∧
      0 < d ∧ s.codeAt z = List.replicate d false ∧
      let n := (input.map fun x => (s.codeAt x).length).sum
      let p := 8 * ((n + 7) / 8) - n
      runLines ([.build] ++ payload.map unpackCmd ++ [.unpackEnd]) (loaded freq) =
        some (u, input ++ List.replicate (p / d) z) ∧
      (u.partialFlag = true ↔ p % d ≠ 0)

/-! ### The whole machine -/

/-- R53 (an inference the spec marks as derived) and the bounds of R24, R44, R46, R48: every step keeps the invariant. -/
def Obligations.StepKeepsInv : Prop := ∀ s t : State, Inv s → step s = .next t → Inv t

/-- R51, R53: the invariant holds after reset (the released level of the reset input and the empty agenda are the model's
choice, log entries 1 and 10). -/
def Obligations.ResetSatisfiesInv : Prop := Inv State.reset

/-- R101, R251: in a state that meets the invariant no step faults, and the completion of a pending command is enabled
whenever the engine moves: it answers a next state with nothing pending. That the one fault there is, `deriveDoesNotEnd`,
exists is the model's choice (log entry 8), and so is that the engine moves at the empty agenda (log entry 2). -/
def Obligations.PendingCommandCompletes : Prop :=
  ∀ s : State, Inv s → (∀ r, step s ≠ .fault r) ∧
    ((∃ c, Completing s c) → ∃ t : State, step s = .next t ∧ t.pend = none)

/-- R211, R214: in ERROR the error code never changes, and only RESET's completion or the reset input leaves ERROR, to
LOAD with ERR = 0. -/
def Obligations.OnlyResetLeavesError : Prop :=
  ∀ s t : State, Inv s → PlainEvent s → s.phase = .error → step s = .next t →
    (¬ Resetting s → t.phase = .error ∧ t.err = s.err) ∧ (Resetting s → t.phase = .load ∧ t.err = .none)

/-- R49: what sets and what clears each flag, row by row. -/
def Obligations.FlagsChangeOnlyAsTheTableSays : Prop :=
  ∀ s t : State, Inv s → PlainEvent s → step s = .next t →
    (s.busy = false → t.busy = true → ∃ w rest, s.agenda = .access (.write 4 0x00 w) :: rest) ∧
    (s.busy = true → t.busy = false → (∃ c, Completing s c) ∨ Resetting s) ∧
    (s.ovr = false → t.ovr = true → s.busy = true ∧ ∃ w rest, s.agenda = .access (.write 4 0x00 w) :: rest) ∧
    (s.rej = false → t.rej = true → s.busy = false ∧ ∃ w c rest, s.agenda = .access (.write 4 0x00 w) :: rest ∧
      decode w = .command c ∧ 64 < s.out.length + worst c) ∧
    (s.partialFlag = false → t.partialFlag = true → Completing s .unpackEnd ∧ s.uptr ≠ s.root) ∧
    (s.limhit = false → t.limhit = true → ∃ a, Completing s (.unpackByte a) ∧ (limitOperand s).1 = true ∧
      (limitOperand s).2 ≤ t.unpackBits) ∧
    (s.single = false → t.single = true → Completing s .build ∧ s.alphabet.length = 1) ∧
    (s.closed = false → t.closed = true → Completing s .packFlush ∨ Completing s .unpackEnd) ∧
    (t.stream ≠ s.stream → ¬ Resetting s → s.stream = .none ∧
      ((t.stream = .pack ∧ (Completing s .packFlush ∨ ∃ a, Completing s (.packByte a))) ∨
       (t.stream = .unpack ∧ (Completing s .unpackEnd ∨ ∃ a, Completing s (.unpackByte a))))) ∧
    (t.phase ≠ s.phase → ¬ Resetting s → t.phase = .error ∨ (t.phase = .tree ∧ Completing s .build) ∨
      (t.phase = .codes ∧ Completing s .derive)) ∧
    (s.rej = true → t.rej = false → Resetting s ∨ (s.pend = none ∧ t.pend ≠ none)) ∧
    ((s.ovr = true ∧ t.ovr = false) ∨ (s.partialFlag = true ∧ t.partialFlag = false) ∨
      (s.limhit = true ∧ t.limhit = false) ∨ (s.single = true ∧ t.single = false) ∨
      (s.closed = true ∧ t.closed = false) → Resetting s)

/-- R40, R41, R43: FREQ is written only by LOAD_FREQ in LOAD, the arena and ROOT only by BUILD in LOAD, CODE only by DERIVE
in TREE, besides reset. -/
def Obligations.TablesAreWrittenOnlyByTheirCommands : Prop :=
  ∀ s t : State, Inv s → PlainEvent s → step s = .next t → ¬ Resetting s →
    (t.freq ≠ s.freq → s.phase = .load ∧ ∃ a, Completing s (.loadFreq a)) ∧
    (t.nodes ≠ s.nodes ∨ t.root ≠ s.root → s.phase = .load ∧ Completing s .build) ∧
    (t.code ≠ s.code → s.phase = .tree ∧ Completing s .derive)

/-- R105: PACK_BYTE reserves 32 bytes, PACK_FLUSH 1, UNPACK_BYTE 8, every other command none; no command pushes more
bytes than it reserves, where PACC holds at most 7 bits and no code more than 255. -/
def Obligations.OutputFitsTheReservation : Prop :=
  (∀ c : Instr, worst c = match c with | .packByte _ => 32 | .packFlush => 1 | .unpackByte _ => 8 | _ => 0) ∧
  ∀ (s t : State) (c : Instr), s.pacc.length ≤ 7 → (∀ x, (s.codeAt x).length ≤ 255) → exec c s = .next t →
    t.out.length ≤ s.out.length + worst c

/-- R74, R247, R48: a write of CTRL, FREQ_LO, FREQ_HI, LIMIT_LO or LIMIT_HI while a command is pending takes effect at once
and leaves the pending command alone: the completion that follows differs in nothing but those registers. -/
def Obligations.PendingCommandIgnoresLaterWrites : Prop :=
  ∀ (s t : State) (p : Pending) (off : Nat) (v : Word), s.pend = some p → snapFits p = true →
    off ∈ [0x08, 0x0C, 0x10, 0x34, 0x38] → complete s = .next t →
    (regWrite off v s).pend = s.pend ∧ ∃ u : State, complete (regWrite off v s) = .next u ∧ SameButDataRegs u t

/-! ### The register window and the reset input (spec/10_state.md, spec/20_memory.md, spec/70_reset_and_hazards.md) -/

/-- R61: exactly the aligned 32-bit accesses at offsets 0x00 to 0xFC are performed; every other access is refused. -/
def Obligations.AccessContract : Prop :=
  ∀ (s : State) (a : HostAccess) (rest : List Event), s.inReset = false → s.agenda = .access a :: rest →
    ((∃ t : State, step s = .next t) ↔ a.size = 4 ∧ a.off % 4 = 0 ∧ a.off ≤ 0xFC) ∧
    (¬ (a.size = 4 ∧ a.off % 4 = 0) → step s = .refused .accessNotAlignedWord) ∧
    (a.size = 4 → a.off % 4 = 0 → 0xFC < a.off → step s = .refused .accessOutsideWindow)

/-- R29, R63: a read while BUSY = 0 tells the host the register's value and changes nothing else, except that a read of
OUT_DATA takes the head byte off the FIFO. -/
def Obligations.ReadsWhileIdle : Prop :=
  ∀ (s : State) (off : Nat) (rest : List Event), s.inReset = false → s.pend = none → off % 4 = 0 → off ≤ 0xFC →
    s.agenda = .access (.read 4 off) :: rest →
    let r : State := { s with agenda := rest }
    (off ≠ 0x1C → step s = .next { r with seen := (off, windowValue s off) :: s.seen }) ∧
    (off = 0x1C → s.out = [] → step s = .next { r with seen := (off, 0) :: s.seen }) ∧
    (∀ b bs, off = 0x1C → s.out = b :: bs →
      step s = .next { r with out := bs, seen := (off, BitVec.ofNat 32 (2 ^ 8 + b.toNat)) :: s.seen })

/-- R246: a read while BUSY = 1 changes nothing but the host's record; STATUS reads BUSY = 1 and REJ = 0 and keeps its
other fields; any other register returns the next free value. That a read of CMD (R23) and of a reserved offset (R39) while
BUSY is a free value too, and not 0, is the model's reading of R246 (log entry 5). -/
def Obligations.ReadsWhileBusy : Prop :=
  ∀ (s : State) (off : Nat) (rest : List Event), Inv s → s.inReset = false → s.pend ≠ none → off % 4 = 0 → off ≤ 0xFC →
    s.agenda = .access (.read 4 off) :: rest →
    (off = 0x04 → step s = .next { s with agenda := rest, seen := (off, statusWord s) :: s.seen } ∧
      (statusWord s).getLsbD 0 = true ∧ (statusWord s).getLsbD 8 = false ∧
      ∀ k, 0 < k → (statusWord { s with pend := none }).getLsbD k = (statusWord s).getLsbD k) ∧
    (off ≠ 0x04 → step s =
      .next { s with agenda := rest, seen := (off, Config.freeRead s.draws) :: s.seen, draws := s.draws + 1 })

/-- R63, R247: the five data-register writes set exactly their register, BUSY or not; a write of any other offset than CMD
is ignored. -/
def Obligations.DataRegisterWrites : Prop :=
  ∀ (s : State) (off : Nat) (v : Word) (rest : List Event), s.inReset = false → off % 4 = 0 → off ≤ 0xFC → off ≠ 0x00 →
    s.agenda = .access (.write 4 off v) :: rest →
    let r : State := { s with agenda := rest }
    (off = 0x08 → step s = .next { r with limitEn := v.getLsbD 0 }) ∧
    (off = 0x0C → step s = .next { r with freqLo := v }) ∧
    (off = 0x10 → step s = .next { r with freqHi := v }) ∧
    (off = 0x34 → ∃ t : State, step s = .next t ∧ t = { r with limit := t.limit } ∧ t.limit.extractLsb' 0 32 = v ∧
      t.limit.extractLsb' 32 32 = s.limit.extractLsb' 32 32) ∧
    (off = 0x38 → ∃ t : State, step s = .next t ∧ t = { r with limit := t.limit } ∧ t.limit.extractLsb' 32 32 = v ∧
      t.limit.extractLsb' 0 32 = s.limit.extractLsb' 0 32) ∧
    (off ∉ [0x08, 0x0C, 0x10, 0x34, 0x38] → step s = .next r)

/-- R39: the reserved offsets 0x74 to 0xFC read as 0 (BUSY = 0), and writes to them are ignored. -/
def Obligations.ReservedOffsets : Prop :=
  ∀ (s : State) (off : Nat) (v : Word) (rest : List Event), s.inReset = false → off % 4 = 0 → 0x74 ≤ off → off ≤ 0xFC →
    (s.pend = none → s.agenda = .access (.read 4 off) :: rest →
      step s = .next { s with agenda := rest, seen := (off, 0) :: s.seen }) ∧
    (s.agenda = .access (.write 4 off v) :: rest → step s = .next { s with agenda := rest })

/-- R24, R210: the fields of STATUS, with their codings written out. -/
def Obligations.StatusFields : Prop :=
  ∀ s : State,
    let w := windowValue s 0x04
    w.getLsbD 0 = s.pend.isSome ∧
    w.extractLsb' 1 2 = (match s.phase with | .load => 0#2 | .tree => 1#2 | .codes => 2#2 | .error => 3#2) ∧
    w.extractLsb' 3 4 = (match s.err with
      | .none => 0#4 | .emptyAlphabet => 1#4 | .emptyContainer => 2#4 | .unknownSymbol => 3#4
      | .invalidFormat => 4#4 | .corruptStream => 5#4 | .illegalOpcode => 6#4 | .illegalSequence => 7#4) ∧
    w.getLsbD 7 = s.ovr ∧ w.getLsbD 8 = s.rej ∧ w.getLsbD 9 = s.partialFlag ∧
    w.extractLsb' 10 2 = (match s.stream with | .none => 0#2 | .pack => 1#2 | .unpack => 2#2) ∧
    w.getLsbD 12 = s.closed ∧ w.getLsbD 13 = s.single ∧ w.getLsbD 14 = s.limhit ∧ w.extractLsb' 15 17 = 0

/-- R27, R28, R30, R38, R67: the views of the counters and pointers, and the LO/HI split of the 64-bit values, by offset. -/
def Obligations.RegisterViews : Prop :=
  ∀ s : State, s.nodes.length ≤ 511 → s.out.length ≤ 64 →
    (windowValue s 0x14).toNat = s.nodes.length ∧ (windowValue s 0x18).toNat = s.root.toNat ∧
    (windowValue s 0x20).toNat = s.out.length ∧ (windowValue s 0x70).toNat = s.uptr.toNat ∧
    (windowValue s 0x00).toNat = 0 ∧ (windowValue s 0x08).toNat = s.limitEn.toNat ∧
    windowValue s 0x10 ++ windowValue s 0x0C = s.freqHi ++ s.freqLo ∧
    windowValue s 0x28 ++ windowValue s 0x24 = s.packBits ∧
    windowValue s 0x30 ++ windowValue s 0x2C = s.unpackBits ∧
    windowValue s 0x38 ++ windowValue s 0x34 = s.limit ∧
    (windowValue s 0x3C).toNat = s.codeLen.toNat ∧
    (∀ k : Fin 8, windowValue s (0x40 + 4 * k.val) = s.codeW[k.val]'k.isLt) ∧
    windowValue s 0x60 = s.nodeInfo ∧ windowValue s 0x64 = s.nodeW0 ∧ windowValue s 0x68 = s.nodeW1 ∧
    (windowValue s 0x6C).toNat = s.nodeW2.toNat

/-- R240: asserting the reset input, BUSY or not, gives every field of the block its reset value and drops the pending
command; while it is asserted an access is refused; releasing it leaves the reset state (the released level of the input at
State.reset is the model's choice, log entry 10). -/
def Obligations.ResetInput : Prop :=
  (∀ (s : State) (rest : List Event), s.agenda = .resetInput true :: rest →
    step s = .next { State.reset with inReset := true, agenda := rest, seen := s.seen, draws := s.draws }) ∧
  (∀ (s : State) (rest : List Event), Inv s → s.inReset = true → s.agenda = .resetInput false :: rest →
    step s = .next { State.reset with agenda := rest, seen := s.seen, draws := s.draws }) ∧
  (∀ (s : State) (a : HostAccess) (rest : List Event), s.inReset = true → s.agenda = .access a :: rest →
    step s = .refused .accessDuringReset)

/-- R51: the reset value of every field of the block, after the RESET command and after hardware reset alike. -/
def Obligations.ResetValues : Prop :=
  ∀ s t : State, exec .reset s = .next t ∨ (∃ rest, s.agenda = .resetInput true :: rest ∧ step s = .next t) →
    t.phase = .load ∧ t.err = .none ∧ t.ovr = false ∧ t.rej = false ∧ t.partialFlag = false ∧ t.limhit = false ∧
    t.single = false ∧ t.closed = false ∧ t.stream = .none ∧ t.pend = none ∧ t.limitEn = false ∧ t.freqLo = 0 ∧
    t.freqHi = 0 ∧ t.limit = 0 ∧ (∀ x, t.freqAt x = 0) ∧ t.nodes.length = 0 ∧ t.root = 0x1FF#9 ∧ t.pq = [] ∧
    (∀ x, t.codeAt x = []) ∧ t.pacc = [] ∧ t.packBits = 0 ∧ t.uptr = 0x1FF#9 ∧ t.unpackBits = 0 ∧ t.out = [] ∧
    t.codeLen = 0 ∧ (∀ k : Fin 8, t.codeW[k.val]'k.isLt = 0) ∧ t.nodeInfo = 0 ∧ t.nodeW0 = 0 ∧ t.nodeW1 = 0 ∧
    t.nodeW2 = 0 ∧ t.dstk = []

end
end

