-- ==== Sys2Proof/Laws/Bits.lean ====
section
/-! SUPPORT. Bit-level lemmas: the fields of a command word, the byte of a group, the code window, the bits of a byte. -/

namespace Sys2Proof

/-! ### Command words (spec/30_encoding.md R80) -/

/-- The bits of a word made of three fields. -/
theorem packFields_getLsbD (r : BitVec 15) (a : Arg) (o : BitVec 8) (i : Nat) :
    (packFields r a o).getLsbD i =
      if i < 8 then o.getLsbD i else if i - 8 < 9 then a.getLsbD (i - 8) else r.getLsbD (i - 8 - 9) := by
  have h : (packFields r a o).getLsbD i = (r ++ a ++ o).getLsbD i := rfl
  rw [h, BitVec.getLsbD_append, BitVec.getLsbD_append]

@[simp] theorem opField_packFields (r : BitVec 15) (a : Arg) (o : BitVec 8) : opField (packFields r a o) = o := by
  apply BitVec.eq_of_getLsbD_eq
  intro i hi
  simp [opField, packFields_getLsbD, hi]

@[simp] theorem argField_packFields (r : BitVec 15) (a : Arg) (o : BitVec 8) : argField (packFields r a o) = a := by
  apply BitVec.eq_of_getLsbD_eq
  intro i hi
  simp [argField, packFields_getLsbD, hi]

@[simp] theorem rsvField_packFields (r : BitVec 15) (a : Arg) (o : BitVec 8) : rsvField (packFields r a o) = r := by
  apply BitVec.eq_of_getLsbD_eq
  intro i hi
  have h1 : ¬ (17 + i < 8) := by omega
  have h2 : ¬ (17 + i - 8 < 9) := by omega
  have h3 : 17 + i - 8 - 9 = i := by omega
  simp [rsvField, packFields_getLsbD, hi, h1, h2, h3]

/-- A word is made of its three fields: no bit is left over. -/
theorem packFields_of_fields (w : Word) : packFields (rsvField w) (argField w) (opField w) = w := by
  apply BitVec.eq_of_getLsbD_eq
  intro i hi
  rw [packFields_getLsbD]
  split
  · next h => simp [opField, h]
  · split
    · next h8 h17 =>
      have e : 8 + (i - 8) = i := by omega
      simp [argField, h17, e]
    · next h8 h17 =>
      have e : 17 + (i - 8 - 9) = i := by omega
      have h : i - 8 - 9 < 15 := by omega
      simp [rsvField, h, e]

/-- Equal fields make equal words. -/
theorem word_ext {v w : Word} (hr : rsvField v = rsvField w) (ha : argField v = argField w) (ho : opField v = opField w) :
    v = w := by
  rw [← packFields_of_fields v, ← packFields_of_fields w, hr, ha, ho]

/-- R81: the half word above OP and the *sym* operand is RSV with ARG's top bit. -/
theorem highHalf_eq_zero_iff (w : Word) :
    w.extractLsb' 16 16 = 0 ↔ rsvField w = 0 ∧ symArgOk (argField w) = true := by
  have hbit : symArgOk (argField w) = !w.getLsbD 16 := by simp [symArgOk, argField]
  rw [hbit]
  constructor
  · intro h
    have hb : ∀ k, k < 16 → w.getLsbD (16 + k) = false := by
      intro k hk
      have := congrArg (fun v => v.getLsbD k) h
      simpa [BitVec.getLsbD_extractLsb', hk] using this
    refine ⟨?_, by simpa using hb 0 (by omega)⟩
    apply BitVec.eq_of_getLsbD_eq
    intro i hi
    have := hb (1 + i) (by omega)
    rw [rsvField, BitVec.getLsbD_extractLsb']
    have e : 17 + i = 16 + (1 + i) := by omega
    simp [hi, e, this]
  · rintro ⟨hr, hb⟩
    apply BitVec.eq_of_getLsbD_eq
    intro i hi
    rw [BitVec.getLsbD_extractLsb']
    rcases Nat.eq_zero_or_pos i with h0 | hpos
    · subst h0; simpa using hb
    · have hb' := congrArg (fun v => v.getLsbD (i - 1)) hr
      have hlt : i - 1 < 15 := by omega
      have e : 17 + (i - 1) = 16 + i := by omega
      simp only [rsvField, BitVec.getLsbD_extractLsb', hlt, decide_true, Bool.true_and, e] at hb'
      simpa [hi] using hb'

namespace Machine

/-- R81: the *sym* operand is bits 15:8 of the word. -/
theorem symOperand_argField (w : Word) : symOperand (argField w) = w.extractLsb' 8 8 := by
  apply BitVec.eq_of_getLsbD_eq
  intro i hi
  have h9 : i < 9 := by omega
  simp [symOperand, argField, hi, h9]

/-- R81: the *sym* operand is the low eight bits of ARG. -/
theorem symOperand_eq_extract (a : Arg) : symOperand a = a.extractLsb' 0 8 := by
  apply BitVec.eq_of_getLsbD_eq
  intro i hi
  simp [symOperand, hi]

/-- R64, R170, R172: bit k of a group is bit 7 − k of its byte; past the group's end the byte holds the padding 0. -/
theorem groupByte_getLsbD (p : Bits) (k : Nat) (hk : k < 8) : (groupByte p).getLsbD (7 - k) = p.getD k false := by
  have hl : (List.map (fun k => p.getD k Config.padBit) (List.range 8)).length = 8 := by simp
  have h1 : 7 - k < 8 := by omega
  have h2 := @BitVec.getMsbD_ofBoolListBE (List.map (fun k => p.getD k Config.padBit) (List.range 8)) k
  rw [BitVec.getMsbD] at h2
  have h3 : k < (List.map (fun k => p.getD k Config.padBit) (List.range 8)).length := by omega
  have h4 : (List.map (fun k => p.getD k Config.padBit) (List.range 8)).length - 1 - k = 7 - k := by omega
  simp only [h3, decide_true, Bool.true_and, h4] at h2
  rw [groupByte, BitVec.getLsbD_setWidth, h2]
  simp only [h1, decide_true, Bool.true_and, List.getD_eq_getElem?_getD, List.getElem?_map]
  rw [List.getElem?_range hk]
  simp [Config.padBit]

/-- R35: bit k of the code's part for word j is bit 31 − k of the word; past the code's end the word holds 0. -/
theorem windowWord_getLsbD (p : Bits) (j k : Nat) (hk : k < 32) :
    (windowWord p j).getLsbD (31 - k) = p.getD (32 * j + k) false := by
  have hl : (List.map (fun k => p.getD (32 * j + k) false) (List.range 32)).length = 32 := by simp
  have h1 : 31 - k < 32 := by omega
  have h2 := @BitVec.getMsbD_ofBoolListBE (List.map (fun k => p.getD (32 * j + k) false) (List.range 32)) k
  rw [BitVec.getMsbD] at h2
  have h3 : k < (List.map (fun k => p.getD (32 * j + k) false) (List.range 32)).length := by omega
  have h4 : (List.map (fun k => p.getD (32 * j + k) false) (List.range 32)).length - 1 - k = 31 - k := by omega
  simp only [h3, decide_true, Bool.true_and, h4] at h2
  rw [windowWord, BitVec.getLsbD_setWidth, h2]
  simp only [h1, decide_true, Bool.true_and, List.getD_eq_getElem?_getD, List.getElem?_map]
  rw [List.getElem?_range hk]
  simp

/-- R64: the bits of a byte in stream order are bit 7 down to bit 0. -/
theorem byteBits_eq (x : Byte) : byteBits x = (List.range 8).map fun k => x.getLsbD (7 - k) := rfl

@[simp] theorem byteBits_length (x : Byte) : (byteBits x).length = 8 := rfl

end Machine

end Sys2Proof
end

