-- ==== Sys2Proof/Laws/State.lean ====
section
/-! SUPPORT. One lemma per field per named update of State, so that no proof unfolds a record update. -/

namespace Sys2Proof.Machine

/-! ### raise -/

@[simp] theorem raise_phase (e : Err) (s : State) : (raise e s).phase = .error := rfl
@[simp] theorem raise_err (e : Err) (s : State) : (raise e s).err = e := rfl
@[simp] theorem raise_ovr (e : Err) (s : State) : (raise e s).ovr = s.ovr := rfl
@[simp] theorem raise_rej (e : Err) (s : State) : (raise e s).rej = s.rej := rfl
@[simp] theorem raise_partialFlag (e : Err) (s : State) : (raise e s).partialFlag = s.partialFlag := rfl
@[simp] theorem raise_limhit (e : Err) (s : State) : (raise e s).limhit = s.limhit := rfl
@[simp] theorem raise_single (e : Err) (s : State) : (raise e s).single = s.single := rfl
@[simp] theorem raise_stream (e : Err) (s : State) : (raise e s).stream = s.stream := rfl
@[simp] theorem raise_closed (e : Err) (s : State) : (raise e s).closed = s.closed := rfl
@[simp] theorem raise_pend (e : Err) (s : State) : (raise e s).pend = none := rfl
@[simp] theorem raise_limitEn (e : Err) (s : State) : (raise e s).limitEn = s.limitEn := rfl
@[simp] theorem raise_freqLo (e : Err) (s : State) : (raise e s).freqLo = s.freqLo := rfl
@[simp] theorem raise_freqHi (e : Err) (s : State) : (raise e s).freqHi = s.freqHi := rfl
@[simp] theorem raise_limit (e : Err) (s : State) : (raise e s).limit = s.limit := rfl
@[simp] theorem raise_freq (e : Err) (s : State) : (raise e s).freq = s.freq := rfl
@[simp] theorem raise_nodes (e : Err) (s : State) : (raise e s).nodes = s.nodes := rfl
@[simp] theorem raise_root (e : Err) (s : State) : (raise e s).root = s.root := rfl
@[simp] theorem raise_pq (e : Err) (s : State) : (raise e s).pq = s.pq := rfl
@[simp] theorem raise_code (e : Err) (s : State) : (raise e s).code = s.code := rfl
@[simp] theorem raise_pacc (e : Err) (s : State) : (raise e s).pacc = s.pacc := rfl
@[simp] theorem raise_packBits (e : Err) (s : State) : (raise e s).packBits = s.packBits := rfl
@[simp] theorem raise_uptr (e : Err) (s : State) : (raise e s).uptr = s.uptr := rfl
@[simp] theorem raise_unpackBits (e : Err) (s : State) : (raise e s).unpackBits = s.unpackBits := rfl
@[simp] theorem raise_out (e : Err) (s : State) : (raise e s).out = s.out := rfl
@[simp] theorem raise_codeLen (e : Err) (s : State) : (raise e s).codeLen = s.codeLen := rfl
@[simp] theorem raise_codeW (e : Err) (s : State) : (raise e s).codeW = s.codeW := rfl
@[simp] theorem raise_nodeInfo (e : Err) (s : State) : (raise e s).nodeInfo = s.nodeInfo := rfl
@[simp] theorem raise_nodeW0 (e : Err) (s : State) : (raise e s).nodeW0 = s.nodeW0 := rfl
@[simp] theorem raise_nodeW1 (e : Err) (s : State) : (raise e s).nodeW1 = s.nodeW1 := rfl
@[simp] theorem raise_nodeW2 (e : Err) (s : State) : (raise e s).nodeW2 = s.nodeW2 := rfl
@[simp] theorem raise_dstk (e : Err) (s : State) : (raise e s).dstk = s.dstk := rfl
@[simp] theorem raise_inReset (e : Err) (s : State) : (raise e s).inReset = s.inReset := rfl
@[simp] theorem raise_agenda (e : Err) (s : State) : (raise e s).agenda = s.agenda := rfl
@[simp] theorem raise_seen (e : Err) (s : State) : (raise e s).seen = s.seen := rfl
@[simp] theorem raise_draws (e : Err) (s : State) : (raise e s).draws = s.draws := rfl

/-! ### accept -/

@[simp] theorem accept_phase (c : Instr) (s : State) : (accept c s).phase = s.phase := rfl
@[simp] theorem accept_err (c : Instr) (s : State) : (accept c s).err = s.err := rfl
@[simp] theorem accept_ovr (c : Instr) (s : State) : (accept c s).ovr = s.ovr := rfl
@[simp] theorem accept_rej (c : Instr) (s : State) : (accept c s).rej = false := rfl
@[simp] theorem accept_partialFlag (c : Instr) (s : State) : (accept c s).partialFlag = s.partialFlag := rfl
@[simp] theorem accept_limhit (c : Instr) (s : State) : (accept c s).limhit = s.limhit := rfl
@[simp] theorem accept_single (c : Instr) (s : State) : (accept c s).single = s.single := rfl
@[simp] theorem accept_stream (c : Instr) (s : State) : (accept c s).stream = s.stream := rfl
@[simp] theorem accept_closed (c : Instr) (s : State) : (accept c s).closed = s.closed := rfl
@[simp] theorem accept_pend (c : Instr) (s : State) : (accept c s).pend = some ⟨c, snapshot c s⟩ := rfl
@[simp] theorem accept_limitEn (c : Instr) (s : State) : (accept c s).limitEn = s.limitEn := rfl
@[simp] theorem accept_freqLo (c : Instr) (s : State) : (accept c s).freqLo = s.freqLo := rfl
@[simp] theorem accept_freqHi (c : Instr) (s : State) : (accept c s).freqHi = s.freqHi := rfl
@[simp] theorem accept_limit (c : Instr) (s : State) : (accept c s).limit = s.limit := rfl
@[simp] theorem accept_freq (c : Instr) (s : State) : (accept c s).freq = s.freq := rfl
@[simp] theorem accept_nodes (c : Instr) (s : State) : (accept c s).nodes = s.nodes := rfl
@[simp] theorem accept_root (c : Instr) (s : State) : (accept c s).root = s.root := rfl
@[simp] theorem accept_pq (c : Instr) (s : State) : (accept c s).pq = s.pq := rfl
@[simp] theorem accept_code (c : Instr) (s : State) : (accept c s).code = s.code := rfl
@[simp] theorem accept_pacc (c : Instr) (s : State) : (accept c s).pacc = s.pacc := rfl
@[simp] theorem accept_packBits (c : Instr) (s : State) : (accept c s).packBits = s.packBits := rfl
@[simp] theorem accept_uptr (c : Instr) (s : State) : (accept c s).uptr = s.uptr := rfl
@[simp] theorem accept_unpackBits (c : Instr) (s : State) : (accept c s).unpackBits = s.unpackBits := rfl
@[simp] theorem accept_out (c : Instr) (s : State) : (accept c s).out = s.out := rfl
@[simp] theorem accept_codeLen (c : Instr) (s : State) : (accept c s).codeLen = s.codeLen := rfl
@[simp] theorem accept_codeW (c : Instr) (s : State) : (accept c s).codeW = s.codeW := rfl
@[simp] theorem accept_nodeInfo (c : Instr) (s : State) : (accept c s).nodeInfo = s.nodeInfo := rfl
@[simp] theorem accept_nodeW0 (c : Instr) (s : State) : (accept c s).nodeW0 = s.nodeW0 := rfl
@[simp] theorem accept_nodeW1 (c : Instr) (s : State) : (accept c s).nodeW1 = s.nodeW1 := rfl
@[simp] theorem accept_nodeW2 (c : Instr) (s : State) : (accept c s).nodeW2 = s.nodeW2 := rfl
@[simp] theorem accept_dstk (c : Instr) (s : State) : (accept c s).dstk = s.dstk := rfl
@[simp] theorem accept_inReset (c : Instr) (s : State) : (accept c s).inReset = s.inReset := rfl
@[simp] theorem accept_agenda (c : Instr) (s : State) : (accept c s).agenda = s.agenda := rfl
@[simp] theorem accept_seen (c : Instr) (s : State) : (accept c s).seen = s.seen := rfl
@[simp] theorem accept_draws (c : Instr) (s : State) : (accept c s).draws = s.draws := rfl

/-! ### alloc -/

@[simp] theorem alloc_phase (n : Node) (s : State) : (alloc n s).phase = s.phase := rfl
@[simp] theorem alloc_err (n : Node) (s : State) : (alloc n s).err = s.err := rfl
@[simp] theorem alloc_ovr (n : Node) (s : State) : (alloc n s).ovr = s.ovr := rfl
@[simp] theorem alloc_rej (n : Node) (s : State) : (alloc n s).rej = s.rej := rfl
@[simp] theorem alloc_partialFlag (n : Node) (s : State) : (alloc n s).partialFlag = s.partialFlag := rfl
@[simp] theorem alloc_limhit (n : Node) (s : State) : (alloc n s).limhit = s.limhit := rfl
@[simp] theorem alloc_single (n : Node) (s : State) : (alloc n s).single = s.single := rfl
@[simp] theorem alloc_stream (n : Node) (s : State) : (alloc n s).stream = s.stream := rfl
@[simp] theorem alloc_closed (n : Node) (s : State) : (alloc n s).closed = s.closed := rfl
@[simp] theorem alloc_pend (n : Node) (s : State) : (alloc n s).pend = s.pend := rfl
@[simp] theorem alloc_limitEn (n : Node) (s : State) : (alloc n s).limitEn = s.limitEn := rfl
@[simp] theorem alloc_freqLo (n : Node) (s : State) : (alloc n s).freqLo = s.freqLo := rfl
@[simp] theorem alloc_freqHi (n : Node) (s : State) : (alloc n s).freqHi = s.freqHi := rfl
@[simp] theorem alloc_limit (n : Node) (s : State) : (alloc n s).limit = s.limit := rfl
@[simp] theorem alloc_freq (n : Node) (s : State) : (alloc n s).freq = s.freq := rfl
@[simp] theorem alloc_nodes (n : Node) (s : State) : (alloc n s).nodes = s.nodes ++ [n] := rfl
@[simp] theorem alloc_root (n : Node) (s : State) : (alloc n s).root = s.root := rfl
@[simp] theorem alloc_pq (n : Node) (s : State) : (alloc n s).pq = s.pq := rfl
@[simp] theorem alloc_code (n : Node) (s : State) : (alloc n s).code = s.code := rfl
@[simp] theorem alloc_pacc (n : Node) (s : State) : (alloc n s).pacc = s.pacc := rfl
@[simp] theorem alloc_packBits (n : Node) (s : State) : (alloc n s).packBits = s.packBits := rfl
@[simp] theorem alloc_uptr (n : Node) (s : State) : (alloc n s).uptr = s.uptr := rfl
@[simp] theorem alloc_unpackBits (n : Node) (s : State) : (alloc n s).unpackBits = s.unpackBits := rfl
@[simp] theorem alloc_out (n : Node) (s : State) : (alloc n s).out = s.out := rfl
@[simp] theorem alloc_codeLen (n : Node) (s : State) : (alloc n s).codeLen = s.codeLen := rfl
@[simp] theorem alloc_codeW (n : Node) (s : State) : (alloc n s).codeW = s.codeW := rfl
@[simp] theorem alloc_nodeInfo (n : Node) (s : State) : (alloc n s).nodeInfo = s.nodeInfo := rfl
@[simp] theorem alloc_nodeW0 (n : Node) (s : State) : (alloc n s).nodeW0 = s.nodeW0 := rfl
@[simp] theorem alloc_nodeW1 (n : Node) (s : State) : (alloc n s).nodeW1 = s.nodeW1 := rfl
@[simp] theorem alloc_nodeW2 (n : Node) (s : State) : (alloc n s).nodeW2 = s.nodeW2 := rfl
@[simp] theorem alloc_dstk (n : Node) (s : State) : (alloc n s).dstk = s.dstk := rfl
@[simp] theorem alloc_inReset (n : Node) (s : State) : (alloc n s).inReset = s.inReset := rfl
@[simp] theorem alloc_agenda (n : Node) (s : State) : (alloc n s).agenda = s.agenda := rfl
@[simp] theorem alloc_seen (n : Node) (s : State) : (alloc n s).seen = s.seen := rfl
@[simp] theorem alloc_draws (n : Node) (s : State) : (alloc n s).draws = s.draws := rfl

/-! ### insertPQ -/

@[simp] theorem insertPQ_phase (e : PQEntry) (s : State) : (insertPQ e s).phase = s.phase := rfl
@[simp] theorem insertPQ_err (e : PQEntry) (s : State) : (insertPQ e s).err = s.err := rfl
@[simp] theorem insertPQ_ovr (e : PQEntry) (s : State) : (insertPQ e s).ovr = s.ovr := rfl
@[simp] theorem insertPQ_rej (e : PQEntry) (s : State) : (insertPQ e s).rej = s.rej := rfl
@[simp] theorem insertPQ_partialFlag (e : PQEntry) (s : State) : (insertPQ e s).partialFlag = s.partialFlag := rfl
@[simp] theorem insertPQ_limhit (e : PQEntry) (s : State) : (insertPQ e s).limhit = s.limhit := rfl
@[simp] theorem insertPQ_single (e : PQEntry) (s : State) : (insertPQ e s).single = s.single := rfl
@[simp] theorem insertPQ_stream (e : PQEntry) (s : State) : (insertPQ e s).stream = s.stream := rfl
@[simp] theorem insertPQ_closed (e : PQEntry) (s : State) : (insertPQ e s).closed = s.closed := rfl
@[simp] theorem insertPQ_pend (e : PQEntry) (s : State) : (insertPQ e s).pend = s.pend := rfl
@[simp] theorem insertPQ_limitEn (e : PQEntry) (s : State) : (insertPQ e s).limitEn = s.limitEn := rfl
@[simp] theorem insertPQ_freqLo (e : PQEntry) (s : State) : (insertPQ e s).freqLo = s.freqLo := rfl
@[simp] theorem insertPQ_freqHi (e : PQEntry) (s : State) : (insertPQ e s).freqHi = s.freqHi := rfl
@[simp] theorem insertPQ_limit (e : PQEntry) (s : State) : (insertPQ e s).limit = s.limit := rfl
@[simp] theorem insertPQ_freq (e : PQEntry) (s : State) : (insertPQ e s).freq = s.freq := rfl
@[simp] theorem insertPQ_nodes (e : PQEntry) (s : State) : (insertPQ e s).nodes = s.nodes := rfl
@[simp] theorem insertPQ_root (e : PQEntry) (s : State) : (insertPQ e s).root = s.root := rfl
@[simp] theorem insertPQ_pq (e : PQEntry) (s : State) : (insertPQ e s).pq = pqInsert e s.pq := rfl
@[simp] theorem insertPQ_code (e : PQEntry) (s : State) : (insertPQ e s).code = s.code := rfl
@[simp] theorem insertPQ_pacc (e : PQEntry) (s : State) : (insertPQ e s).pacc = s.pacc := rfl
@[simp] theorem insertPQ_packBits (e : PQEntry) (s : State) : (insertPQ e s).packBits = s.packBits := rfl
@[simp] theorem insertPQ_uptr (e : PQEntry) (s : State) : (insertPQ e s).uptr = s.uptr := rfl
@[simp] theorem insertPQ_unpackBits (e : PQEntry) (s : State) : (insertPQ e s).unpackBits = s.unpackBits := rfl
@[simp] theorem insertPQ_out (e : PQEntry) (s : State) : (insertPQ e s).out = s.out := rfl
@[simp] theorem insertPQ_codeLen (e : PQEntry) (s : State) : (insertPQ e s).codeLen = s.codeLen := rfl
@[simp] theorem insertPQ_codeW (e : PQEntry) (s : State) : (insertPQ e s).codeW = s.codeW := rfl
@[simp] theorem insertPQ_nodeInfo (e : PQEntry) (s : State) : (insertPQ e s).nodeInfo = s.nodeInfo := rfl
@[simp] theorem insertPQ_nodeW0 (e : PQEntry) (s : State) : (insertPQ e s).nodeW0 = s.nodeW0 := rfl
@[simp] theorem insertPQ_nodeW1 (e : PQEntry) (s : State) : (insertPQ e s).nodeW1 = s.nodeW1 := rfl
@[simp] theorem insertPQ_nodeW2 (e : PQEntry) (s : State) : (insertPQ e s).nodeW2 = s.nodeW2 := rfl
@[simp] theorem insertPQ_dstk (e : PQEntry) (s : State) : (insertPQ e s).dstk = s.dstk := rfl
@[simp] theorem insertPQ_inReset (e : PQEntry) (s : State) : (insertPQ e s).inReset = s.inReset := rfl
@[simp] theorem insertPQ_agenda (e : PQEntry) (s : State) : (insertPQ e s).agenda = s.agenda := rfl
@[simp] theorem insertPQ_seen (e : PQEntry) (s : State) : (insertPQ e s).seen = s.seen := rfl
@[simp] theorem insertPQ_draws (e : PQEntry) (s : State) : (insertPQ e s).draws = s.draws := rfl

/-! ### enqueueNode -/

@[simp] theorem enqueueNode_phase (n : Node) (s : State) : (enqueueNode n s).phase = s.phase := rfl
@[simp] theorem enqueueNode_err (n : Node) (s : State) : (enqueueNode n s).err = s.err := rfl
@[simp] theorem enqueueNode_ovr (n : Node) (s : State) : (enqueueNode n s).ovr = s.ovr := rfl
@[simp] theorem enqueueNode_rej (n : Node) (s : State) : (enqueueNode n s).rej = s.rej := rfl
@[simp] theorem enqueueNode_partialFlag (n : Node) (s : State) : (enqueueNode n s).partialFlag = s.partialFlag := rfl
@[simp] theorem enqueueNode_limhit (n : Node) (s : State) : (enqueueNode n s).limhit = s.limhit := rfl
@[simp] theorem enqueueNode_single (n : Node) (s : State) : (enqueueNode n s).single = s.single := rfl
@[simp] theorem enqueueNode_stream (n : Node) (s : State) : (enqueueNode n s).stream = s.stream := rfl
@[simp] theorem enqueueNode_closed (n : Node) (s : State) : (enqueueNode n s).closed = s.closed := rfl
@[simp] theorem enqueueNode_pend (n : Node) (s : State) : (enqueueNode n s).pend = s.pend := rfl
@[simp] theorem enqueueNode_limitEn (n : Node) (s : State) : (enqueueNode n s).limitEn = s.limitEn := rfl
@[simp] theorem enqueueNode_freqLo (n : Node) (s : State) : (enqueueNode n s).freqLo = s.freqLo := rfl
@[simp] theorem enqueueNode_freqHi (n : Node) (s : State) : (enqueueNode n s).freqHi = s.freqHi := rfl
@[simp] theorem enqueueNode_limit (n : Node) (s : State) : (enqueueNode n s).limit = s.limit := rfl
@[simp] theorem enqueueNode_freq (n : Node) (s : State) : (enqueueNode n s).freq = s.freq := rfl
@[simp] theorem enqueueNode_nodes (n : Node) (s : State) : (enqueueNode n s).nodes = s.nodes ++ [n] := rfl
@[simp] theorem enqueueNode_root (n : Node) (s : State) : (enqueueNode n s).root = s.root := rfl
@[simp] theorem enqueueNode_pq (n : Node) (s : State) : (enqueueNode n s).pq = pqInsert ⟨n.weight, s.nextIdx⟩ s.pq := rfl
@[simp] theorem enqueueNode_code (n : Node) (s : State) : (enqueueNode n s).code = s.code := rfl
@[simp] theorem enqueueNode_pacc (n : Node) (s : State) : (enqueueNode n s).pacc = s.pacc := rfl
@[simp] theorem enqueueNode_packBits (n : Node) (s : State) : (enqueueNode n s).packBits = s.packBits := rfl
@[simp] theorem enqueueNode_uptr (n : Node) (s : State) : (enqueueNode n s).uptr = s.uptr := rfl
@[simp] theorem enqueueNode_unpackBits (n : Node) (s : State) : (enqueueNode n s).unpackBits = s.unpackBits := rfl
@[simp] theorem enqueueNode_out (n : Node) (s : State) : (enqueueNode n s).out = s.out := rfl
@[simp] theorem enqueueNode_codeLen (n : Node) (s : State) : (enqueueNode n s).codeLen = s.codeLen := rfl
@[simp] theorem enqueueNode_codeW (n : Node) (s : State) : (enqueueNode n s).codeW = s.codeW := rfl
@[simp] theorem enqueueNode_nodeInfo (n : Node) (s : State) : (enqueueNode n s).nodeInfo = s.nodeInfo := rfl
@[simp] theorem enqueueNode_nodeW0 (n : Node) (s : State) : (enqueueNode n s).nodeW0 = s.nodeW0 := rfl
@[simp] theorem enqueueNode_nodeW1 (n : Node) (s : State) : (enqueueNode n s).nodeW1 = s.nodeW1 := rfl
@[simp] theorem enqueueNode_nodeW2 (n : Node) (s : State) : (enqueueNode n s).nodeW2 = s.nodeW2 := rfl
@[simp] theorem enqueueNode_dstk (n : Node) (s : State) : (enqueueNode n s).dstk = s.dstk := rfl
@[simp] theorem enqueueNode_inReset (n : Node) (s : State) : (enqueueNode n s).inReset = s.inReset := rfl
@[simp] theorem enqueueNode_agenda (n : Node) (s : State) : (enqueueNode n s).agenda = s.agenda := rfl
@[simp] theorem enqueueNode_seen (n : Node) (s : State) : (enqueueNode n s).seen = s.seen := rfl
@[simp] theorem enqueueNode_draws (n : Node) (s : State) : (enqueueNode n s).draws = s.draws := rfl

/-! ### pushOut -/

@[simp] theorem pushOut_phase (b : Byte) (s : State) : (pushOut b s).phase = s.phase := rfl
@[simp] theorem pushOut_err (b : Byte) (s : State) : (pushOut b s).err = s.err := rfl
@[simp] theorem pushOut_ovr (b : Byte) (s : State) : (pushOut b s).ovr = s.ovr := rfl
@[simp] theorem pushOut_rej (b : Byte) (s : State) : (pushOut b s).rej = s.rej := rfl
@[simp] theorem pushOut_partialFlag (b : Byte) (s : State) : (pushOut b s).partialFlag = s.partialFlag := rfl
@[simp] theorem pushOut_limhit (b : Byte) (s : State) : (pushOut b s).limhit = s.limhit := rfl
@[simp] theorem pushOut_single (b : Byte) (s : State) : (pushOut b s).single = s.single := rfl
@[simp] theorem pushOut_stream (b : Byte) (s : State) : (pushOut b s).stream = s.stream := rfl
@[simp] theorem pushOut_closed (b : Byte) (s : State) : (pushOut b s).closed = s.closed := rfl
@[simp] theorem pushOut_pend (b : Byte) (s : State) : (pushOut b s).pend = s.pend := rfl
@[simp] theorem pushOut_limitEn (b : Byte) (s : State) : (pushOut b s).limitEn = s.limitEn := rfl
@[simp] theorem pushOut_freqLo (b : Byte) (s : State) : (pushOut b s).freqLo = s.freqLo := rfl
@[simp] theorem pushOut_freqHi (b : Byte) (s : State) : (pushOut b s).freqHi = s.freqHi := rfl
@[simp] theorem pushOut_limit (b : Byte) (s : State) : (pushOut b s).limit = s.limit := rfl
@[simp] theorem pushOut_freq (b : Byte) (s : State) : (pushOut b s).freq = s.freq := rfl
@[simp] theorem pushOut_nodes (b : Byte) (s : State) : (pushOut b s).nodes = s.nodes := rfl
@[simp] theorem pushOut_root (b : Byte) (s : State) : (pushOut b s).root = s.root := rfl
@[simp] theorem pushOut_pq (b : Byte) (s : State) : (pushOut b s).pq = s.pq := rfl
@[simp] theorem pushOut_code (b : Byte) (s : State) : (pushOut b s).code = s.code := rfl
@[simp] theorem pushOut_pacc (b : Byte) (s : State) : (pushOut b s).pacc = s.pacc := rfl
@[simp] theorem pushOut_packBits (b : Byte) (s : State) : (pushOut b s).packBits = s.packBits := rfl
@[simp] theorem pushOut_uptr (b : Byte) (s : State) : (pushOut b s).uptr = s.uptr := rfl
@[simp] theorem pushOut_unpackBits (b : Byte) (s : State) : (pushOut b s).unpackBits = s.unpackBits := rfl
@[simp] theorem pushOut_out (b : Byte) (s : State) : (pushOut b s).out = s.out ++ [b] := rfl
@[simp] theorem pushOut_codeLen (b : Byte) (s : State) : (pushOut b s).codeLen = s.codeLen := rfl
@[simp] theorem pushOut_codeW (b : Byte) (s : State) : (pushOut b s).codeW = s.codeW := rfl
@[simp] theorem pushOut_nodeInfo (b : Byte) (s : State) : (pushOut b s).nodeInfo = s.nodeInfo := rfl
@[simp] theorem pushOut_nodeW0 (b : Byte) (s : State) : (pushOut b s).nodeW0 = s.nodeW0 := rfl
@[simp] theorem pushOut_nodeW1 (b : Byte) (s : State) : (pushOut b s).nodeW1 = s.nodeW1 := rfl
@[simp] theorem pushOut_nodeW2 (b : Byte) (s : State) : (pushOut b s).nodeW2 = s.nodeW2 := rfl
@[simp] theorem pushOut_dstk (b : Byte) (s : State) : (pushOut b s).dstk = s.dstk := rfl
@[simp] theorem pushOut_inReset (b : Byte) (s : State) : (pushOut b s).inReset = s.inReset := rfl
@[simp] theorem pushOut_agenda (b : Byte) (s : State) : (pushOut b s).agenda = s.agenda := rfl
@[simp] theorem pushOut_seen (b : Byte) (s : State) : (pushOut b s).seen = s.seen := rfl
@[simp] theorem pushOut_draws (b : Byte) (s : State) : (pushOut b s).draws = s.draws := rfl

/-! ### popOut -/

@[simp] theorem popOut_phase (s : State) : (popOut s).phase = s.phase := rfl
@[simp] theorem popOut_err (s : State) : (popOut s).err = s.err := rfl
@[simp] theorem popOut_ovr (s : State) : (popOut s).ovr = s.ovr := rfl
@[simp] theorem popOut_rej (s : State) : (popOut s).rej = s.rej := rfl
@[simp] theorem popOut_partialFlag (s : State) : (popOut s).partialFlag = s.partialFlag := rfl
@[simp] theorem popOut_limhit (s : State) : (popOut s).limhit = s.limhit := rfl
@[simp] theorem popOut_single (s : State) : (popOut s).single = s.single := rfl
@[simp] theorem popOut_stream (s : State) : (popOut s).stream = s.stream := rfl
@[simp] theorem popOut_closed (s : State) : (popOut s).closed = s.closed := rfl
@[simp] theorem popOut_pend (s : State) : (popOut s).pend = s.pend := rfl
@[simp] theorem popOut_limitEn (s : State) : (popOut s).limitEn = s.limitEn := rfl
@[simp] theorem popOut_freqLo (s : State) : (popOut s).freqLo = s.freqLo := rfl
@[simp] theorem popOut_freqHi (s : State) : (popOut s).freqHi = s.freqHi := rfl
@[simp] theorem popOut_limit (s : State) : (popOut s).limit = s.limit := rfl
@[simp] theorem popOut_freq (s : State) : (popOut s).freq = s.freq := rfl
@[simp] theorem popOut_nodes (s : State) : (popOut s).nodes = s.nodes := rfl
@[simp] theorem popOut_root (s : State) : (popOut s).root = s.root := rfl
@[simp] theorem popOut_pq (s : State) : (popOut s).pq = s.pq := rfl
@[simp] theorem popOut_code (s : State) : (popOut s).code = s.code := rfl
@[simp] theorem popOut_pacc (s : State) : (popOut s).pacc = s.pacc := rfl
@[simp] theorem popOut_packBits (s : State) : (popOut s).packBits = s.packBits := rfl
@[simp] theorem popOut_uptr (s : State) : (popOut s).uptr = s.uptr := rfl
@[simp] theorem popOut_unpackBits (s : State) : (popOut s).unpackBits = s.unpackBits := rfl
@[simp] theorem popOut_out (s : State) : (popOut s).out = s.out.tail := rfl
@[simp] theorem popOut_codeLen (s : State) : (popOut s).codeLen = s.codeLen := rfl
@[simp] theorem popOut_codeW (s : State) : (popOut s).codeW = s.codeW := rfl
@[simp] theorem popOut_nodeInfo (s : State) : (popOut s).nodeInfo = s.nodeInfo := rfl
@[simp] theorem popOut_nodeW0 (s : State) : (popOut s).nodeW0 = s.nodeW0 := rfl
@[simp] theorem popOut_nodeW1 (s : State) : (popOut s).nodeW1 = s.nodeW1 := rfl
@[simp] theorem popOut_nodeW2 (s : State) : (popOut s).nodeW2 = s.nodeW2 := rfl
@[simp] theorem popOut_dstk (s : State) : (popOut s).dstk = s.dstk := rfl
@[simp] theorem popOut_inReset (s : State) : (popOut s).inReset = s.inReset := rfl
@[simp] theorem popOut_agenda (s : State) : (popOut s).agenda = s.agenda := rfl
@[simp] theorem popOut_seen (s : State) : (popOut s).seen = s.seen := rfl
@[simp] theorem popOut_draws (s : State) : (popOut s).draws = s.draws := rfl

/-! ### setFreq -/

@[simp] theorem setFreq_phase (s : State) (x : Sym) (v : Freq) : (s.setFreq x v).phase = s.phase := rfl
@[simp] theorem setFreq_err (s : State) (x : Sym) (v : Freq) : (s.setFreq x v).err = s.err := rfl
@[simp] theorem setFreq_ovr (s : State) (x : Sym) (v : Freq) : (s.setFreq x v).ovr = s.ovr := rfl
@[simp] theorem setFreq_rej (s : State) (x : Sym) (v : Freq) : (s.setFreq x v).rej = s.rej := rfl
@[simp] theorem setFreq_partialFlag (s : State) (x : Sym) (v : Freq) : (s.setFreq x v).partialFlag = s.partialFlag := rfl
@[simp] theorem setFreq_limhit (s : State) (x : Sym) (v : Freq) : (s.setFreq x v).limhit = s.limhit := rfl
@[simp] theorem setFreq_single (s : State) (x : Sym) (v : Freq) : (s.setFreq x v).single = s.single := rfl
@[simp] theorem setFreq_stream (s : State) (x : Sym) (v : Freq) : (s.setFreq x v).stream = s.stream := rfl
@[simp] theorem setFreq_closed (s : State) (x : Sym) (v : Freq) : (s.setFreq x v).closed = s.closed := rfl
@[simp] theorem setFreq_pend (s : State) (x : Sym) (v : Freq) : (s.setFreq x v).pend = s.pend := rfl
@[simp] theorem setFreq_limitEn (s : State) (x : Sym) (v : Freq) : (s.setFreq x v).limitEn = s.limitEn := rfl
@[simp] theorem setFreq_freqLo (s : State) (x : Sym) (v : Freq) : (s.setFreq x v).freqLo = s.freqLo := rfl
@[simp] theorem setFreq_freqHi (s : State) (x : Sym) (v : Freq) : (s.setFreq x v).freqHi = s.freqHi := rfl
@[simp] theorem setFreq_limit (s : State) (x : Sym) (v : Freq) : (s.setFreq x v).limit = s.limit := rfl
@[simp] theorem setFreq_freq (s : State) (x : Sym) (v : Freq) : (s.setFreq x v).freq = s.freq.set x.toNat v x.isLt := rfl
@[simp] theorem setFreq_nodes (s : State) (x : Sym) (v : Freq) : (s.setFreq x v).nodes = s.nodes := rfl
@[simp] theorem setFreq_root (s : State) (x : Sym) (v : Freq) : (s.setFreq x v).root = s.root := rfl
@[simp] theorem setFreq_pq (s : State) (x : Sym) (v : Freq) : (s.setFreq x v).pq = s.pq := rfl
@[simp] theorem setFreq_code (s : State) (x : Sym) (v : Freq) : (s.setFreq x v).code = s.code := rfl
@[simp] theorem setFreq_pacc (s : State) (x : Sym) (v : Freq) : (s.setFreq x v).pacc = s.pacc := rfl
@[simp] theorem setFreq_packBits (s : State) (x : Sym) (v : Freq) : (s.setFreq x v).packBits = s.packBits := rfl
@[simp] theorem setFreq_uptr (s : State) (x : Sym) (v : Freq) : (s.setFreq x v).uptr = s.uptr := rfl
@[simp] theorem setFreq_unpackBits (s : State) (x : Sym) (v : Freq) : (s.setFreq x v).unpackBits = s.unpackBits := rfl
@[simp] theorem setFreq_out (s : State) (x : Sym) (v : Freq) : (s.setFreq x v).out = s.out := rfl
@[simp] theorem setFreq_codeLen (s : State) (x : Sym) (v : Freq) : (s.setFreq x v).codeLen = s.codeLen := rfl
@[simp] theorem setFreq_codeW (s : State) (x : Sym) (v : Freq) : (s.setFreq x v).codeW = s.codeW := rfl
@[simp] theorem setFreq_nodeInfo (s : State) (x : Sym) (v : Freq) : (s.setFreq x v).nodeInfo = s.nodeInfo := rfl
@[simp] theorem setFreq_nodeW0 (s : State) (x : Sym) (v : Freq) : (s.setFreq x v).nodeW0 = s.nodeW0 := rfl
@[simp] theorem setFreq_nodeW1 (s : State) (x : Sym) (v : Freq) : (s.setFreq x v).nodeW1 = s.nodeW1 := rfl
@[simp] theorem setFreq_nodeW2 (s : State) (x : Sym) (v : Freq) : (s.setFreq x v).nodeW2 = s.nodeW2 := rfl
@[simp] theorem setFreq_dstk (s : State) (x : Sym) (v : Freq) : (s.setFreq x v).dstk = s.dstk := rfl
@[simp] theorem setFreq_inReset (s : State) (x : Sym) (v : Freq) : (s.setFreq x v).inReset = s.inReset := rfl
@[simp] theorem setFreq_agenda (s : State) (x : Sym) (v : Freq) : (s.setFreq x v).agenda = s.agenda := rfl
@[simp] theorem setFreq_seen (s : State) (x : Sym) (v : Freq) : (s.setFreq x v).seen = s.seen := rfl
@[simp] theorem setFreq_draws (s : State) (x : Sym) (v : Freq) : (s.setFreq x v).draws = s.draws := rfl

/-! ### setCode -/

@[simp] theorem setCode_phase (s : State) (x : Sym) (p : Bits) : (s.setCode x p).phase = s.phase := rfl
@[simp] theorem setCode_err (s : State) (x : Sym) (p : Bits) : (s.setCode x p).err = s.err := rfl
@[simp] theorem setCode_ovr (s : State) (x : Sym) (p : Bits) : (s.setCode x p).ovr = s.ovr := rfl
@[simp] theorem setCode_rej (s : State) (x : Sym) (p : Bits) : (s.setCode x p).rej = s.rej := rfl
@[simp] theorem setCode_partialFlag (s : State) (x : Sym) (p : Bits) : (s.setCode x p).partialFlag = s.partialFlag := rfl
@[simp] theorem setCode_limhit (s : State) (x : Sym) (p : Bits) : (s.setCode x p).limhit = s.limhit := rfl
@[simp] theorem setCode_single (s : State) (x : Sym) (p : Bits) : (s.setCode x p).single = s.single := rfl
@[simp] theorem setCode_stream (s : State) (x : Sym) (p : Bits) : (s.setCode x p).stream = s.stream := rfl
@[simp] theorem setCode_closed (s : State) (x : Sym) (p : Bits) : (s.setCode x p).closed = s.closed := rfl
@[simp] theorem setCode_pend (s : State) (x : Sym) (p : Bits) : (s.setCode x p).pend = s.pend := rfl
@[simp] theorem setCode_limitEn (s : State) (x : Sym) (p : Bits) : (s.setCode x p).limitEn = s.limitEn := rfl
@[simp] theorem setCode_freqLo (s : State) (x : Sym) (p : Bits) : (s.setCode x p).freqLo = s.freqLo := rfl
@[simp] theorem setCode_freqHi (s : State) (x : Sym) (p : Bits) : (s.setCode x p).freqHi = s.freqHi := rfl
@[simp] theorem setCode_limit (s : State) (x : Sym) (p : Bits) : (s.setCode x p).limit = s.limit := rfl
@[simp] theorem setCode_freq (s : State) (x : Sym) (p : Bits) : (s.setCode x p).freq = s.freq := rfl
@[simp] theorem setCode_nodes (s : State) (x : Sym) (p : Bits) : (s.setCode x p).nodes = s.nodes := rfl
@[simp] theorem setCode_root (s : State) (x : Sym) (p : Bits) : (s.setCode x p).root = s.root := rfl
@[simp] theorem setCode_pq (s : State) (x : Sym) (p : Bits) : (s.setCode x p).pq = s.pq := rfl
@[simp] theorem setCode_code (s : State) (x : Sym) (p : Bits) : (s.setCode x p).code = s.code.set x.toNat p x.isLt := rfl
@[simp] theorem setCode_pacc (s : State) (x : Sym) (p : Bits) : (s.setCode x p).pacc = s.pacc := rfl
@[simp] theorem setCode_packBits (s : State) (x : Sym) (p : Bits) : (s.setCode x p).packBits = s.packBits := rfl
@[simp] theorem setCode_uptr (s : State) (x : Sym) (p : Bits) : (s.setCode x p).uptr = s.uptr := rfl
@[simp] theorem setCode_unpackBits (s : State) (x : Sym) (p : Bits) : (s.setCode x p).unpackBits = s.unpackBits := rfl
@[simp] theorem setCode_out (s : State) (x : Sym) (p : Bits) : (s.setCode x p).out = s.out := rfl
@[simp] theorem setCode_codeLen (s : State) (x : Sym) (p : Bits) : (s.setCode x p).codeLen = s.codeLen := rfl
@[simp] theorem setCode_codeW (s : State) (x : Sym) (p : Bits) : (s.setCode x p).codeW = s.codeW := rfl
@[simp] theorem setCode_nodeInfo (s : State) (x : Sym) (p : Bits) : (s.setCode x p).nodeInfo = s.nodeInfo := rfl
@[simp] theorem setCode_nodeW0 (s : State) (x : Sym) (p : Bits) : (s.setCode x p).nodeW0 = s.nodeW0 := rfl
@[simp] theorem setCode_nodeW1 (s : State) (x : Sym) (p : Bits) : (s.setCode x p).nodeW1 = s.nodeW1 := rfl
@[simp] theorem setCode_nodeW2 (s : State) (x : Sym) (p : Bits) : (s.setCode x p).nodeW2 = s.nodeW2 := rfl
@[simp] theorem setCode_dstk (s : State) (x : Sym) (p : Bits) : (s.setCode x p).dstk = s.dstk := rfl
@[simp] theorem setCode_inReset (s : State) (x : Sym) (p : Bits) : (s.setCode x p).inReset = s.inReset := rfl
@[simp] theorem setCode_agenda (s : State) (x : Sym) (p : Bits) : (s.setCode x p).agenda = s.agenda := rfl
@[simp] theorem setCode_seen (s : State) (x : Sym) (p : Bits) : (s.setCode x p).seen = s.seen := rfl
@[simp] theorem setCode_draws (s : State) (x : Sym) (p : Bits) : (s.setCode x p).draws = s.draws := rfl

/-! ### note -/

@[simp] theorem note_phase (off : Nat) (v : Word) (s : State) : (note off v s).phase = s.phase := rfl
@[simp] theorem note_err (off : Nat) (v : Word) (s : State) : (note off v s).err = s.err := rfl
@[simp] theorem note_ovr (off : Nat) (v : Word) (s : State) : (note off v s).ovr = s.ovr := rfl
@[simp] theorem note_rej (off : Nat) (v : Word) (s : State) : (note off v s).rej = s.rej := rfl
@[simp] theorem note_partialFlag (off : Nat) (v : Word) (s : State) : (note off v s).partialFlag = s.partialFlag := rfl
@[simp] theorem note_limhit (off : Nat) (v : Word) (s : State) : (note off v s).limhit = s.limhit := rfl
@[simp] theorem note_single (off : Nat) (v : Word) (s : State) : (note off v s).single = s.single := rfl
@[simp] theorem note_stream (off : Nat) (v : Word) (s : State) : (note off v s).stream = s.stream := rfl
@[simp] theorem note_closed (off : Nat) (v : Word) (s : State) : (note off v s).closed = s.closed := rfl
@[simp] theorem note_pend (off : Nat) (v : Word) (s : State) : (note off v s).pend = s.pend := rfl
@[simp] theorem note_limitEn (off : Nat) (v : Word) (s : State) : (note off v s).limitEn = s.limitEn := rfl
@[simp] theorem note_freqLo (off : Nat) (v : Word) (s : State) : (note off v s).freqLo = s.freqLo := rfl
@[simp] theorem note_freqHi (off : Nat) (v : Word) (s : State) : (note off v s).freqHi = s.freqHi := rfl
@[simp] theorem note_limit (off : Nat) (v : Word) (s : State) : (note off v s).limit = s.limit := rfl
@[simp] theorem note_freq (off : Nat) (v : Word) (s : State) : (note off v s).freq = s.freq := rfl
@[simp] theorem note_nodes (off : Nat) (v : Word) (s : State) : (note off v s).nodes = s.nodes := rfl
@[simp] theorem note_root (off : Nat) (v : Word) (s : State) : (note off v s).root = s.root := rfl
@[simp] theorem note_pq (off : Nat) (v : Word) (s : State) : (note off v s).pq = s.pq := rfl
@[simp] theorem note_code (off : Nat) (v : Word) (s : State) : (note off v s).code = s.code := rfl
@[simp] theorem note_pacc (off : Nat) (v : Word) (s : State) : (note off v s).pacc = s.pacc := rfl
@[simp] theorem note_packBits (off : Nat) (v : Word) (s : State) : (note off v s).packBits = s.packBits := rfl
@[simp] theorem note_uptr (off : Nat) (v : Word) (s : State) : (note off v s).uptr = s.uptr := rfl
@[simp] theorem note_unpackBits (off : Nat) (v : Word) (s : State) : (note off v s).unpackBits = s.unpackBits := rfl
@[simp] theorem note_out (off : Nat) (v : Word) (s : State) : (note off v s).out = s.out := rfl
@[simp] theorem note_codeLen (off : Nat) (v : Word) (s : State) : (note off v s).codeLen = s.codeLen := rfl
@[simp] theorem note_codeW (off : Nat) (v : Word) (s : State) : (note off v s).codeW = s.codeW := rfl
@[simp] theorem note_nodeInfo (off : Nat) (v : Word) (s : State) : (note off v s).nodeInfo = s.nodeInfo := rfl
@[simp] theorem note_nodeW0 (off : Nat) (v : Word) (s : State) : (note off v s).nodeW0 = s.nodeW0 := rfl
@[simp] theorem note_nodeW1 (off : Nat) (v : Word) (s : State) : (note off v s).nodeW1 = s.nodeW1 := rfl
@[simp] theorem note_nodeW2 (off : Nat) (v : Word) (s : State) : (note off v s).nodeW2 = s.nodeW2 := rfl
@[simp] theorem note_dstk (off : Nat) (v : Word) (s : State) : (note off v s).dstk = s.dstk := rfl
@[simp] theorem note_inReset (off : Nat) (v : Word) (s : State) : (note off v s).inReset = s.inReset := rfl
@[simp] theorem note_agenda (off : Nat) (v : Word) (s : State) : (note off v s).agenda = s.agenda := rfl
@[simp] theorem note_seen (off : Nat) (v : Word) (s : State) : (note off v s).seen = (off, v) :: s.seen := rfl
@[simp] theorem note_draws (off : Nat) (v : Word) (s : State) : (note off v s).draws = s.draws := rfl

/-! ### resetBlock -/

@[simp] theorem resetBlock_phase (s : State) : (resetBlock s).phase = State.reset.phase := rfl
@[simp] theorem resetBlock_err (s : State) : (resetBlock s).err = State.reset.err := rfl
@[simp] theorem resetBlock_ovr (s : State) : (resetBlock s).ovr = State.reset.ovr := rfl
@[simp] theorem resetBlock_rej (s : State) : (resetBlock s).rej = State.reset.rej := rfl
@[simp] theorem resetBlock_partialFlag (s : State) : (resetBlock s).partialFlag = State.reset.partialFlag := rfl
@[simp] theorem resetBlock_limhit (s : State) : (resetBlock s).limhit = State.reset.limhit := rfl
@[simp] theorem resetBlock_single (s : State) : (resetBlock s).single = State.reset.single := rfl
@[simp] theorem resetBlock_stream (s : State) : (resetBlock s).stream = State.reset.stream := rfl
@[simp] theorem resetBlock_closed (s : State) : (resetBlock s).closed = State.reset.closed := rfl
@[simp] theorem resetBlock_pend (s : State) : (resetBlock s).pend = State.reset.pend := rfl
@[simp] theorem resetBlock_limitEn (s : State) : (resetBlock s).limitEn = State.reset.limitEn := rfl
@[simp] theorem resetBlock_freqLo (s : State) : (resetBlock s).freqLo = State.reset.freqLo := rfl
@[simp] theorem resetBlock_freqHi (s : State) : (resetBlock s).freqHi = State.reset.freqHi := rfl
@[simp] theorem resetBlock_limit (s : State) : (resetBlock s).limit = State.reset.limit := rfl
@[simp] theorem resetBlock_freq (s : State) : (resetBlock s).freq = State.reset.freq := rfl
@[simp] theorem resetBlock_nodes (s : State) : (resetBlock s).nodes = State.reset.nodes := rfl
@[simp] theorem resetBlock_root (s : State) : (resetBlock s).root = State.reset.root := rfl
@[simp] theorem resetBlock_pq (s : State) : (resetBlock s).pq = State.reset.pq := rfl
@[simp] theorem resetBlock_code (s : State) : (resetBlock s).code = State.reset.code := rfl
@[simp] theorem resetBlock_pacc (s : State) : (resetBlock s).pacc = State.reset.pacc := rfl
@[simp] theorem resetBlock_packBits (s : State) : (resetBlock s).packBits = State.reset.packBits := rfl
@[simp] theorem resetBlock_uptr (s : State) : (resetBlock s).uptr = State.reset.uptr := rfl
@[simp] theorem resetBlock_unpackBits (s : State) : (resetBlock s).unpackBits = State.reset.unpackBits := rfl
@[simp] theorem resetBlock_out (s : State) : (resetBlock s).out = State.reset.out := rfl
@[simp] theorem resetBlock_codeLen (s : State) : (resetBlock s).codeLen = State.reset.codeLen := rfl
@[simp] theorem resetBlock_codeW (s : State) : (resetBlock s).codeW = State.reset.codeW := rfl
@[simp] theorem resetBlock_nodeInfo (s : State) : (resetBlock s).nodeInfo = State.reset.nodeInfo := rfl
@[simp] theorem resetBlock_nodeW0 (s : State) : (resetBlock s).nodeW0 = State.reset.nodeW0 := rfl
@[simp] theorem resetBlock_nodeW1 (s : State) : (resetBlock s).nodeW1 = State.reset.nodeW1 := rfl
@[simp] theorem resetBlock_nodeW2 (s : State) : (resetBlock s).nodeW2 = State.reset.nodeW2 := rfl
@[simp] theorem resetBlock_dstk (s : State) : (resetBlock s).dstk = State.reset.dstk := rfl
@[simp] theorem resetBlock_inReset (s : State) : (resetBlock s).inReset = s.inReset := rfl
@[simp] theorem resetBlock_agenda (s : State) : (resetBlock s).agenda = s.agenda := rfl
@[simp] theorem resetBlock_seen (s : State) : (resetBlock s).seen = s.seen := rfl
@[simp] theorem resetBlock_draws (s : State) : (resetBlock s).draws = s.draws := rfl

/-! ### Table entries -/

@[simp] theorem freqAt_setFreq (s : State) (x y : Sym) (v : Freq) :
    (s.setFreq x v).freqAt y = if y = x then v else s.freqAt y := by
  by_cases h : y = x
  · simp [State.freqAt, State.setFreq, h]
  · have hne : x.toNat ≠ y.toNat := fun e => h (BitVec.eq_of_toNat_eq e.symm)
    simp [State.freqAt, State.setFreq, h, hne]

@[simp] theorem codeAt_setCode (s : State) (x y : Sym) (p : Bits) :
    (s.setCode x p).codeAt y = if y = x then p else s.codeAt y := by
  by_cases h : y = x
  · simp [State.codeAt, State.setCode, h]
  · have hne : x.toNat ≠ y.toNat := fun e => h (BitVec.eq_of_toNat_eq e.symm)
    simp [State.codeAt, State.setCode, h, hne]

/-- Two states with the same table have the same frequencies, entry by entry, and conversely. -/
theorem freq_eq_iff (s t : State) : s.freq = t.freq ↔ ∀ x, s.freqAt x = t.freqAt x := by
  refine ⟨fun h x => by simp [State.freqAt, h], fun h => Vector.ext fun i hi => ?_⟩
  have := h (BitVec.ofNat 8 i)
  simp only [State.freqAt, BitVec.toNat_ofNat] at this
  have hm : i % 2 ^ 8 = i := Nat.mod_eq_of_lt hi
  simpa only [hm] using this

/-- Two states with the same code table have the same codes, entry by entry, and conversely. -/
theorem code_eq_iff (s t : State) : s.code = t.code ↔ ∀ x, s.codeAt x = t.codeAt x := by
  refine ⟨fun h x => by simp [State.codeAt, h], fun h => Vector.ext fun i hi => ?_⟩
  have := h (BitVec.ofNat 8 i)
  simp only [State.codeAt, BitVec.toNat_ofNat] at this
  have hm : i % 2 ^ 8 = i := Nat.mod_eq_of_lt hi
  simpa only [hm] using this

@[simp] theorem freqAt_reset (x : Sym) : State.reset.freqAt x = 0 := by simp [State.freqAt, State.reset]

@[simp] theorem codeAt_reset (x : Sym) : State.reset.codeAt x = [] := by simp [State.codeAt, State.reset]

/-- An allocated entry is read as it was stored. -/
theorem nodeAt_of_getElem? (s : State) (i : NodeIdx) (n : Node) (h : s.nodes[i.toNat]? = some n) : s.nodeAt i = n := by
  simp [State.nodeAt, h]

end Sys2Proof.Machine
end

