-- ==== Sys2Proof/Laws/Ops.lean ====
section
/-! SUPPORT. One lemma per shared operation, saying once everything it can do; later proofs cite these instead of unfolding. -/

namespace Sys2Proof.Machine

/-! ### The dispatch -/

@[simp] theorem exec_nop (s : State) : exec .nop s = execNop s := rfl
@[simp] theorem exec_reset (s : State) : exec .reset s = execReset s := rfl
@[simp] theorem exec_loadFreq (a : Arg) (s : State) : exec (.loadFreq a) s = execLoadFreq a s := rfl
@[simp] theorem exec_readFreq (a : Arg) (s : State) : exec (.readFreq a) s = execReadFreq a s := rfl
@[simp] theorem exec_build (s : State) : exec .build s = execBuild s := rfl
@[simp] theorem exec_queryNode (a : Arg) (s : State) : exec (.queryNode a) s = execQueryNode a s := rfl
@[simp] theorem exec_derive (s : State) : exec .derive s = execDerive s := rfl
@[simp] theorem exec_queryCode (a : Arg) (s : State) : exec (.queryCode a) s = execQueryCode a s := rfl
@[simp] theorem exec_packByte (a : Arg) (s : State) : exec (.packByte a) s = execPackByte a s := rfl
@[simp] theorem exec_packFlush (s : State) : exec .packFlush s = execPackFlush s := rfl
@[simp] theorem exec_unpackByte (a : Arg) (s : State) : exec (.unpackByte a) s = execUnpackByte a s := rfl
@[simp] theorem exec_unpackEnd (s : State) : exec .unpackEnd s = execUnpackEnd s := rfl

/-! ### Issue (spec/40_control.md R100) -/

/-- Everything a CMD write can do: the six outcomes, in the order of the checks. -/
theorem issue_cases (w : Word) (s : State) :
    (s.pend ≠ none ∧ issue w s = { s with ovr := true }) ∨
    (s.pend = none ∧ s.phase = .error ∧ w = resetWord ∧ issue w s = accept .reset s) ∨
    (s.pend = none ∧ s.phase = .error ∧ w ≠ resetWord ∧ issue w s = s) ∨
    (s.pend = none ∧ s.phase ≠ .error ∧ (∃ why, decode w = .illegal why) ∧ issue w s = raise .illegalOpcode s) ∨
    (∃ c, s.pend = none ∧ s.phase ≠ .error ∧ decode w = .command c ∧ legal c s.phase s.stream s.closed = false ∧
      issue w s = raise .illegalSequence s) ∨
    (∃ c, s.pend = none ∧ s.phase ≠ .error ∧ decode w = .command c ∧ legal c s.phase s.stream s.closed = true ∧
      hasRoom c s = false ∧ issue w s = { s with rej := true }) ∨
    (∃ c, s.pend = none ∧ s.phase ≠ .error ∧ decode w = .command c ∧ legal c s.phase s.stream s.closed = true ∧
      hasRoom c s = true ∧ issue w s = accept c s) := by
  cases hp : s.pend with
  | some p => exact .inl ⟨by simp, by simp [issue, State.busy, hp]⟩
  | none =>
    refine .inr ?_
    have hb : s.busy = false := by simp [State.busy, hp]
    by_cases he : s.phase = .error
    · by_cases hw : w = resetWord
      · exact .inl ⟨rfl, he, hw, by simp [issue, hb, he, hw]⟩
      · exact .inr (.inl ⟨rfl, he, hw, by simp [issue, hb, he, hw]⟩)
    · refine .inr (.inr ?_)
      cases hd : decode w with
      | illegal why => exact .inl ⟨rfl, he, ⟨why, rfl⟩, by simp [issue, hb, he, hd]⟩
      | command c =>
        refine .inr ?_
        cases hl : legal c s.phase s.stream s.closed with
        | false => exact .inl ⟨c, rfl, he, rfl, hl, by simp [issue, hb, he, hd, hl]⟩
        | true =>
          cases hr : hasRoom c s with
          | false => exact .inr (.inl ⟨c, rfl, he, rfl, hl, hr, by simp [issue, hb, he, hd, hl, hr, hp]⟩)
          | true => exact .inr (.inr ⟨c, rfl, he, rfl, hl, hr, by simp [issue, hb, he, hd, hl, hr]⟩)

theorem hasRoom_iff (c : Instr) (s : State) : hasRoom c s = true ↔ s.out.length + worst c ≤ 64 := decide_eq_true_iff

theorem hasRoom_eq_false_iff (c : Instr) (s : State) : hasRoom c s = false ↔ 64 < s.out.length + worst c := by
  rw [← Bool.not_eq_true, hasRoom_iff, Nat.not_le]

/-- A snapshot does not depend on what the host does next. -/
@[simp] theorem snapshot_agenda (c : Instr) (s : State) (ag : List Event) :
    snapshot c { s with agenda := ag } = snapshot c s := by
  cases c <;> rfl

/-! ### Completion (R101) -/

theorem complete_none (s : State) (h : s.pend = none) : complete s = .next s := by simp [complete, h]

/-- Everything the engine's step can do when it answers a next state. -/
theorem complete_next_iff (s t : State) : complete s = .next t ↔
    (s.pend = none ∧ t = s) ∨ ∃ p u, s.pend = some p ∧ exec p.cmd s = .next u ∧ t = { u with pend := none } := by
  cases hp : s.pend with
  | none => simp [complete, hp, eq_comm]
  | some p =>
    cases he : exec p.cmd s <;> simp [complete, hp, he, eq_comm]

/-- After the engine's step nothing is pending. -/
theorem complete_pend (s t : State) (h : complete s = .next t) : t.pend = none := by
  rcases (complete_next_iff s t).mp h with ⟨hp, rfl⟩ | ⟨p, u, _, _, rfl⟩
  · exact hp
  · rfl

/-! ### The register window -/

/-- R22: the register at an offset is the one whose offset it is. -/
theorem regAt_eq_some_iff (off : Nat) (r : Reg) : regAt off = some r ↔ off = r.offset := by
  constructor
  · intro h
    have h1 : (r.offset == off) = true := List.find?_some (p := fun r : Reg => r.offset == off) h
    exact (beq_iff_eq.mp h1).symm
  · rintro rfl
    cases r
    case codeW k => revert k; decide
    all_goals rfl

/-- R39: from 0x74 on no register stands at any offset. -/
theorem regAt_reserved (off : Nat) (h : 0x74 ≤ off) : regAt off = none := by
  cases hr : regAt off with
  | none => rfl
  | some r =>
    have he := (regAt_eq_some_iff off r).mp hr
    cases r
    case codeW k => have := k.isLt; simp only [Reg.offset] at he; omega
    all_goals simp only [Reg.offset] at he; omega

/-- Everything an access can do: the two refusals of R61, the one of R240, or the access is performed. -/
theorem hostAccess_cases (a : HostAccess) (s : State) :
    (s.inReset = true ∧ hostAccess a s = .refused .accessDuringReset) ∨
    (s.inReset = false ∧ ¬ (a.size = 4 ∧ a.off % 4 = 0) ∧ hostAccess a s = .refused .accessNotAlignedWord) ∨
    (s.inReset = false ∧ a.size = 4 ∧ a.off % 4 = 0 ∧ 256 ≤ a.off ∧ hostAccess a s = .refused .accessOutsideWindow) ∨
    (s.inReset = false ∧ a.size = 4 ∧ a.off % 4 = 0 ∧ a.off < 256 ∧ hostAccess a s = .next (performAccess a s)) := by
  cases hr : s.inReset with
  | true => exact .inl ⟨rfl, by simp [hostAccess, hr]⟩
  | false =>
    refine .inr ?_
    by_cases hw : a.size = 4 ∧ a.off % 4 = 0
    · have hal : alignedWord a.size a.off = true := by simp [alignedWord, hw.1, hw.2]
      by_cases hlt : a.off < 256
      · exact .inr (.inr ⟨rfl, hw.1, hw.2, hlt, by simp [hostAccess, hr, hal, hlt]⟩)
      · exact .inr (.inl ⟨rfl, hw.1, hw.2, by omega, by simp [hostAccess, hr, hal, hlt]⟩)
    · have hal : alignedWord a.size a.off = false := by
        simp only [alignedWord, Bool.and_eq_false_iff, beq_eq_false_iff_ne]
        by_cases h4 : a.size = 4
        · exact .inr fun h => hw ⟨h4, h⟩
        · exact .inl h4
      exact .inl ⟨rfl, hw, by simp [hostAccess, hr, hal]⟩

/-- An access answers a next state only by being performed. -/
theorem hostAccess_next (a : HostAccess) (s t : State) (h : hostAccess a s = .next t) :
    s.inReset = false ∧ a.size = 4 ∧ a.off % 4 = 0 ∧ a.off < 256 ∧ t = performAccess a s := by
  rcases hostAccess_cases a s with ⟨_, e⟩ | ⟨_, _, e⟩ | ⟨_, _, _, _, e⟩ | ⟨h1, h2, h3, h4, e⟩ <;> rw [e] at h
  · cases h
  · cases h
  · cases h
  · exact ⟨h1, h2, h3, h4, (Host.Outcome.next.inj h).symm⟩

/-- Everything a read can do (R29, R63, R246): a free value while BUSY, a pop of OUT_DATA, or a plain look. -/
theorem regRead_cases (off : Nat) (s : State) :
    (s.pend ≠ none ∧ off ≠ 0x04 ∧
      regRead off s = { note off (Config.freeRead s.draws) s with draws := s.draws + 1 }) ∨
    (s.pend = none ∧ off = 0x1C ∧ regRead off s = note off (windowValue s off) (popOut s)) ∨
    ((s.pend = none ∨ off = 0x04) ∧ off ≠ 0x1C ∧ regRead off s = note off (windowValue s off) s) := by
  have hst : regAt off = some .status ↔ off = 0x04 := regAt_eq_some_iff off .status
  have hod : regAt off = some .outData ↔ off = 0x1C := regAt_eq_some_iff off .outData
  cases hp : s.pend with
  | none =>
    have hb : s.busy = false := by simp [State.busy, hp]
    by_cases ho : off = 0x1C
    · exact .inr (.inl ⟨rfl, ho, by simp [regRead, hb, hod.mpr ho]⟩)
    · exact .inr (.inr ⟨.inl rfl, ho, by simp [regRead, hb, mt hod.mp ho]⟩)
  | some p =>
    have hb : s.busy = true := by simp [State.busy, hp]
    by_cases hs : off = 0x04
    · exact .inr (.inr ⟨.inr hs, by omega, by simp [regRead, hb, hst.mpr hs]⟩)
    · exact .inl ⟨by simp, hs, by simp [regRead, hb, mt hst.mp hs]⟩

/-- Everything a write can do (R63, R247): issue, set one data register, or nothing. -/
theorem regWrite_cases (off : Nat) (v : Word) (s : State) :
    (off = 0x00 ∧ regWrite off v s = issue v s) ∨
    (off = 0x08 ∧ regWrite off v s = { s with limitEn := v.getLsbD 0 }) ∨
    (off = 0x0C ∧ regWrite off v s = { s with freqLo := v }) ∨
    (off = 0x10 ∧ regWrite off v s = { s with freqHi := v }) ∨
    (off = 0x34 ∧ regWrite off v s = { s with limit := s.limit.extractLsb' 32 32 ++ v }) ∨
    (off = 0x38 ∧ regWrite off v s = { s with limit := v ++ s.limit.extractLsb' 0 32 }) ∨
    (off ∉ [0x00, 0x08, 0x0C, 0x10, 0x34, 0x38] ∧ regWrite off v s = s) := by
  cases hr : regAt off with
  | none =>
    have hne : ∀ r : Reg, off ≠ r.offset := fun r h => by
      rw [(regAt_eq_some_iff off r).mpr h] at hr; cases hr
    have h0 := hne .cmd
    have h1 := hne .ctrl
    have h2 := hne .freqLo
    have h3 := hne .freqHi
    have h4 := hne .limitLo
    have h5 := hne .limitHi
    simp only [Reg.offset] at h0 h1 h2 h3 h4 h5
    exact .inr (.inr (.inr (.inr (.inr (.inr ⟨by simp [h0, h1, h2, h3, h4, h5], by simp [regWrite, hr]⟩)))))
  | some r =>
    have he := (regAt_eq_some_iff off r).mp hr
    cases r
    case codeW k =>
      have hk := k.isLt
      simp only [Reg.offset] at he
      refine .inr (.inr (.inr (.inr (.inr (.inr ⟨?_, by simp [regWrite, hr]⟩)))))
      simp only [List.mem_cons, List.not_mem_nil, or_false]
      omega
    all_goals simp only [Reg.offset] at he; subst he; simp [regWrite, hr]

/-! ### The step -/

theorem step_nil (s : State) (h : s.agenda = []) : step s = complete s := by simp [step, h]

theorem step_cons (s : State) (e : Event) (rest : List Event) (h : s.agenda = e :: rest) :
    step s = perform e { s with agenda := rest } := by simp [step, h]

/-- Everything a step can do when it answers a next state. -/
theorem step_cases (s t : State) (h : step s = .next t) :
    (s.agenda = [] ∧ complete s = .next t) ∨
    (∃ rest, s.agenda = .engine :: rest ∧ complete { s with agenda := rest } = .next t) ∨
    (∃ a rest, s.agenda = .access a :: rest ∧ s.inReset = false ∧ a.wellFormed = true ∧
      t = performAccess a { s with agenda := rest }) ∨
    (∃ w rest, s.agenda = .command w :: rest ∧ s.inReset = false ∧
      complete (issue w { s with agenda := rest }) = .next t) ∨
    (∃ b rest, s.agenda = .resetInput b :: rest ∧ t = driveReset b { s with agenda := rest }) := by
  cases hag : s.agenda with
  | nil => exact .inl ⟨rfl, by rw [← step_nil s hag, h]⟩
  | cons e rest =>
    rw [step_cons s e rest hag] at h
    cases e with
    | engine => exact .inr (.inl ⟨rest, rfl, h⟩)
    | access a =>
      obtain ⟨h1, h2, h3, h4, h5⟩ := hostAccess_next a _ t h
      exact .inr (.inr (.inl ⟨a, rest, rfl, h1, by simp [HostAccess.wellFormed, alignedWord, h2, h3, h4], h5⟩))
    | command w =>
      refine .inr (.inr (.inr (.inl ⟨w, rest, rfl, ?_⟩)))
      simp only [perform, commandLine] at h
      cases ha : hostAccess (.write 4 Reg.cmd.offset w) { s with agenda := rest } with
      | next u =>
        obtain ⟨h1, _, _, _, h5⟩ := hostAccess_next _ _ _ ha
        rw [ha] at h
        refine ⟨h1, ?_⟩
        have hu : u = issue w { s with agenda := rest } := h5
        rw [← hu]; exact h
      | fault r => rw [ha] at h; cases h
      | refused r => rw [ha] at h; cases h
    | resetInput b =>
      exact .inr (.inr (.inr (.inr ⟨b, rest, rfl, (Host.Outcome.next.inj h).symm⟩)))

/-! ### The bit operations -/

/-- `AppendBit` that does not fill a byte (spec/44_bit_packer.md R170). -/
theorem appendBit_short (x : Bool) (s : State) (h : s.pacc.length ≠ 7) :
    appendBit x s = { s with packBits := s.packBits + 1, pacc := s.pacc ++ [x] } := by
  have : ¬ (s.pacc ++ [x]).length = 8 := by simp; omega
  simp only [appendBit, this, if_false]

/-- `AppendBit` that fills a byte (R170). -/
theorem appendBit_full (x : Bool) (s : State) (h : s.pacc.length = 7) :
    appendBit x s =
      { s with packBits := s.packBits + 1, pacc := [], out := s.out ++ [groupByte (s.pacc ++ [x])] } := by
  have : (s.pacc ++ [x]).length = 8 := by simp [h]
  simp only [appendBit, this, if_true]
  rfl

@[simp] theorem appendBits_nil (s : State) : appendBits [] s = s := rfl

@[simp] theorem appendBits_cons (x : Bool) (p : Bits) (s : State) :
    appendBits (x :: p) s = appendBits p (appendBit x s) := rfl

/-- Everything one stream bit can do (spec/45_bit_unpacker.md R190). -/
theorem stepBit_cases (x : Bool) (s : State) :
    (∃ y w, s.nodeAt s.uptr = .leaf y w ∧ x = true ∧ stepBit x s = none) ∨
    (∃ y w, s.nodeAt s.uptr = .leaf y w ∧ x = false ∧
      stepBit x s = some { s with out := s.out ++ [y], unpackBits := s.unpackBits + 1 }) ∨
    (∃ w l r, s.nodeAt s.uptr = .internal w l r ∧ (if x then r else l) = NodeIdx.nil ∧ stepBit x s = none) ∨
    (∃ w l r y v, s.nodeAt s.uptr = .internal w l r ∧ (if x then r else l) ≠ NodeIdx.nil ∧
      s.nodeAt (if x then r else l) = .leaf y v ∧
      stepBit x s = some { s with out := s.out ++ [y], unpackBits := s.unpackBits + 1, uptr := s.root }) ∨
    (∃ w l r v a b, s.nodeAt s.uptr = .internal w l r ∧ (if x then r else l) ≠ NodeIdx.nil ∧
      s.nodeAt (if x then r else l) = .internal v a b ∧
      stepBit x s = some { s with unpackBits := s.unpackBits + 1, uptr := if x then r else l }) := by
  cases hn : s.nodeAt s.uptr with
  | leaf y w =>
    cases x with
    | true => exact .inl ⟨y, w, rfl, rfl, by simp [stepBit, hn]⟩
    | false => exact .inr (.inl ⟨y, w, rfl, rfl, by simp [stepBit, hn, pushOut]⟩)
  | internal w l r =>
    refine .inr (.inr ?_)
    by_cases hc : (if x then r else l) = NodeIdx.nil
    · exact .inl ⟨w, l, r, rfl, hc, by simp only [stepBit, hn, hc, if_true]⟩
    · refine .inr ?_
      cases hm : s.nodeAt (if x then r else l) with
      | leaf y v => exact .inl ⟨w, l, r, y, v, rfl, hc, hm, by simp only [stepBit, hn, hc, if_false, hm, pushOut]⟩
      | internal v a b => exact .inr ⟨w, l, r, v, a, b, rfl, hc, hm, by simp only [stepBit, hn, hc, if_false, hm]⟩

end Sys2Proof.Machine
end

