-- ==== Sys2Proof/Laws/PerInstr.lean ====
section
/-! SUPPORT. Facts proved for every command, one lemma per constructor of Instr. -/

namespace Sys2Proof.Laws.TableRow

/-- The word of a well-formed command is one of the words that the command's row of R83's table names. -/
def Statement (i : Instr) : Prop :=
  i.WellFormed → ∃ r ∈ opcodeTable, r.mnemonic = i.mnemonic ∧ encode i &&& r.mask = r.value

/-- Masking a *sym* command's word with 0xFFFF00FF leaves its OP: bits 31:16 of a well-formed one are 0 (R81). -/
theorem symWord_masked (a : Arg) (o : BitVec 8) (h : symArgOk a = true) :
    packFields 0 a o &&& 0xFFFF00FF#32 = packFields 0 0 o := by
  apply BitVec.eq_of_getLsbD_eq
  intro i hi
  have h8 : a.getLsbD 8 = false := by simpa [symArgOk] using h
  rw [BitVec.getLsbD_and, packFields_getLsbD, packFields_getLsbD]
  have hm : (0xFFFF00FF#32).getLsbD i = (decide (i < 8) || decide (16 ≤ i)) := by
    have hall : ∀ k : Fin 32, (0xFFFF00FF#32).getLsbD k.val = (decide (k.val < 8) || decide (16 ≤ k.val)) := by decide
    exact hall ⟨i, hi⟩
  rw [hm]
  by_cases h1 : i < 8
  · simp [h1]
  · by_cases h2 : 16 ≤ i
    · by_cases h3 : i - 8 < 9
      · have e : i - 8 = 8 := by omega
        simp only [h1, if_false, e, h8]
        simp
      · simp [h1, h3]
    · have : ¬ (16 ≤ i) := h2
      simp [h1, this]

/-- Masking an *idx* command's word with 0xFFFE00FF leaves its OP: bits 31:17 are 0 (R81). -/
theorem idxWord_masked (a : Arg) (o : BitVec 8) : packFields 0 a o &&& 0xFFFE00FF#32 = packFields 0 0 o := by
  apply BitVec.eq_of_getLsbD_eq
  intro i hi
  rw [BitVec.getLsbD_and, packFields_getLsbD, packFields_getLsbD]
  have hm : (0xFFFE00FF#32).getLsbD i = (decide (i < 8) || decide (17 ≤ i)) := by
    have hall : ∀ k : Fin 32, (0xFFFE00FF#32).getLsbD k.val = (decide (k.val < 8) || decide (17 ≤ k.val)) := by decide
    exact hall ⟨i, hi⟩
  rw [hm]
  by_cases h1 : i < 8
  · simp [h1]
  · by_cases h2 : i - 8 < 9
    · have : ¬ (17 ≤ i) := by omega
      simp [h1, this]
    · simp [h1, h2]

/-- A row of the table by its place. -/
theorem row_of_mem (i : Instr) (r : OpRow) (hr : r ∈ opcodeTable) (hm : r.mnemonic = i.mnemonic)
    (hw : i.WellFormed → encode i &&& r.mask = r.value) : Statement i :=
  fun h => ⟨r, hr, hm, hw h⟩

theorem nop : Statement .nop := row_of_mem _ ⟨"NOP", 0x00000000#32, 0xFFFFFFFF#32⟩ (by decide) rfl fun _ => by decide

theorem reset : Statement .reset :=
  row_of_mem _ ⟨"RESET", 0x00000001#32, 0xFFFFFFFF#32⟩ (by decide) rfl fun _ => by decide

theorem loadFreq (arg : Arg) : Statement (.loadFreq arg) :=
  row_of_mem _ ⟨"LOAD_FREQ", 0x00000010#32, 0xFFFF00FF#32⟩ (by decide) rfl fun h => symWord_masked arg 0x10#8 h

theorem readFreq (arg : Arg) : Statement (.readFreq arg) :=
  row_of_mem _ ⟨"READ_FREQ", 0x00000011#32, 0xFFFF00FF#32⟩ (by decide) rfl fun h => symWord_masked arg 0x11#8 h

theorem build : Statement .build :=
  row_of_mem _ ⟨"BUILD", 0x00000020#32, 0xFFFFFFFF#32⟩ (by decide) rfl fun _ => by decide

theorem queryNode (arg : Arg) : Statement (.queryNode arg) :=
  row_of_mem _ ⟨"QUERY_NODE", 0x00000021#32, 0xFFFE00FF#32⟩ (by decide) rfl fun _ => idxWord_masked arg 0x21#8

theorem derive : Statement .derive :=
  row_of_mem _ ⟨"DERIVE", 0x00000030#32, 0xFFFFFFFF#32⟩ (by decide) rfl fun _ => by decide

theorem queryCode (arg : Arg) : Statement (.queryCode arg) :=
  row_of_mem _ ⟨"QUERY_CODE", 0x00000031#32, 0xFFFF00FF#32⟩ (by decide) rfl fun h => symWord_masked arg 0x31#8 h

theorem packByte (arg : Arg) : Statement (.packByte arg) :=
  row_of_mem _ ⟨"PACK_BYTE", 0x00000040#32, 0xFFFF00FF#32⟩ (by decide) rfl fun h => symWord_masked arg 0x40#8 h

theorem packFlush : Statement .packFlush :=
  row_of_mem _ ⟨"PACK_FLUSH", 0x00000041#32, 0xFFFFFFFF#32⟩ (by decide) rfl fun _ => by decide

theorem unpackByte (arg : Arg) : Statement (.unpackByte arg) :=
  row_of_mem _ ⟨"UNPACK_BYTE", 0x00000050#32, 0xFFFF00FF#32⟩ (by decide) rfl fun h => symWord_masked arg 0x50#8 h

theorem unpackEnd : Statement .unpackEnd :=
  row_of_mem _ ⟨"UNPACK_END", 0x00000051#32, 0xFFFFFFFF#32⟩ (by decide) rfl fun _ => by decide

end Sys2Proof.Laws.TableRow
end

