-- ==== Sys2Proof/Machine/HostProgram.lean ====
section
/-! DEFINITION. The host's pseudo-instructions (spec/30_encoding.md R88) as lists of events. A host that waits or drains
until it reads a value decides as it goes; the agenda holds the accesses it ends up making (log entries 1, 22). -/

namespace Sys2Proof.Machine.HostProgram

/-- `WR reg, v`. -/
def wr (r : Reg) (v : Word) : List Event := [.access (.write 4 r.offset v)]

/-- `RD reg`. -/
def rd (r : Reg) : List Event := [.access (.read 4 r.offset)]

/-- `WAIT` that reads BUSY = 1 `n` times before the completion and BUSY = 0 once after it. -/
def wait (n : Nat) : List Event := (List.replicate n (rd .status)).flatten ++ [.engine] ++ rd .status

/-- A command line whose WAIT finds the command complete at its first read. -/
def command (i : Instr) : List Event := wr .cmd (encode i) ++ wait 0

/-- `SETF v`. -/
def setF (v : Freq) : List Event := wr .freqLo (v.extractLsb' 0 32) ++ wr .freqHi (v.extractLsb' 32 32)

/-- `LOADF s, v`. -/
def loadF (x : Sym) (v : Freq) : List Event := setF v ++ command (.loadFreq (x.setWidth 9))

/-- `SETLIM n`. -/
def setLim (n : BitCount) : List Event :=
  wr .limitLo (n.extractLsb' 0 32) ++ wr .limitHi (n.extractLsb' 32 32) ++ wr .ctrl 1

/-- `DRAIN` of a FIFO that holds n bytes: n reads with VALID = 1 and one with VALID = 0. -/
def drain (n : Nat) : List Event := (List.replicate (n + 1) (rd .outData)).flatten

/-- `PACKS`: each byte of the text, and how many bytes the DRAIN after it finds, where the host drains. -/
def packs (text : List (Byte × Option Nat)) : List Event :=
  (text.map fun p => command (.packByte (p.1.setWidth 9)) ++ (p.2.map drain).getD []).flatten

/-- `UNPACKS`: each stream byte, and how many bytes the DRAIN after it finds, where the host drains. -/
def unpacks (stream : List (Byte × Option Nat)) : List Event :=
  (stream.map fun p => command (.unpackByte (p.1.setWidth 9)) ++ (p.2.map drain).getD []).flatten

end Sys2Proof.Machine.HostProgram
end

