-- ==== Sys2Proof/Tests/Slice0.lean ====
section
/-! SUPPORT. The model's own tests: the well-formedness checks, one word per command written out from spec/30_encoding.md,
one or two steps per command against the vectors of spec/95_test_vectors.md, and for every statement with hypotheses a
state that meets them. -/

namespace Sys2Proof.Tests

open Sys2Proof.Machine

/-! ### Well-formedness: an ill-formed term for each check -/

theorem test_wellFormed_loadFreq : (Instr.loadFreq 0x161#9).wellFormed = false := by decide
theorem test_wellFormed_readFreq : (Instr.readFreq 0x100#9).wellFormed = false := by decide
theorem test_wellFormed_queryCode : (Instr.queryCode 0x1FF#9).wellFormed = false := by decide
theorem test_wellFormed_packByte : (Instr.packByte 0x100#9).wellFormed = false := by decide
theorem test_wellFormed_unpackByte : (Instr.unpackByte 0x180#9).wellFormed = false := by decide
theorem test_wellFormed_accepts : (Instr.loadFreq 0x0FF#9).wellFormed = true ∧ (Instr.queryNode 0x1FF#9).wellFormed = true := by
  decide
theorem test_wellFormed_access_size : (HostAccess.read 2 0x04).wellFormed = false := by decide
theorem test_wellFormed_access_alignment : (HostAccess.read 4 0x06).wellFormed = false := by decide
theorem test_wellFormed_access_window : (HostAccess.write 4 0x100 0).wellFormed = false := by decide

/-! ### Decoding: words written out bit by bit as RSV (15), ARG (9), OP (8) from R80, R81 and R83 -/

theorem test_decode_nop : decode 0b000000000000000_000000000_00000000#32 = .command .nop := by decide
theorem test_decode_reset : decode 0b000000000000000_000000000_00000001#32 = .command .reset := by decide
theorem test_decode_loadFreq : decode 0b000000000000000_001100001_00010000#32 = .command (.loadFreq 0x61#9) := by decide
theorem test_decode_readFreq : decode 0b000000000000000_001111010_00010001#32 = .command (.readFreq 0x7A#9) := by decide
theorem test_decode_build : decode 0b000000000000000_000000000_00100000#32 = .command .build := by decide
theorem test_decode_queryNode : decode 0b000000000000000_111111110_00100001#32 = .command (.queryNode 510#9) := by decide
theorem test_decode_derive : decode 0b000000000000000_000000000_00110000#32 = .command .derive := by decide
theorem test_decode_queryCode : decode 0b000000000000000_001100011_00110001#32 = .command (.queryCode 0x63#9) := by decide
theorem test_decode_packByte : decode 0b000000000000000_001100010_01000000#32 = .command (.packByte 0x62#9) := by decide
theorem test_decode_packFlush : decode 0b000000000000000_000000000_01000001#32 = .command .packFlush := by decide
theorem test_decode_unpackByte : decode 0b000000000000000_011111111_01010000#32 = .command (.unpackByte 0xFF#9) := by decide
theorem test_decode_unpackEnd : decode 0b000000000000000_000000000_01010001#32 = .command .unpackEnd := by decide

/-- spec/95_test_vectors.md 2.1: the Illegal words. -/
theorem test_decode_illegal :
    decode 0x00000100#32 = .illegal .argNotZero ∧ decode 0x00000002#32 = .illegal .unassignedOp ∧
    decode 0x000000FF#32 = .illegal .unassignedOp ∧ decode 0x00016110#32 = .illegal .symBit16 ∧
    decode 0x00020021#32 = .illegal .reservedBits ∧ decode 0x80000020#32 = .illegal .reservedBits ∧
    decode 0x00000151#32 = .illegal .argNotZero := by decide

theorem test_decodeTableWord :
    decodeTableWord 32 0x6110 = some (.loadFreq 0x61#9) ∧ decodeTableWord 32 0x100 = none := by decide

/-! ### Small states -/

/-- A frequency table from a function. -/
def table (f : Nat → Freq) : Vector Freq 256 := ⟨⟨(List.range 256).map f⟩, by simp⟩

/-- A code table from a function. -/
def codeTable (f : Nat → Bits) : Vector Bits 256 := ⟨⟨(List.range 256).map f⟩, by simp⟩

/-- The shape of vector B-1 ("aaabbc") at symbols 0, 1, 2: frequencies 3, 2, 1. -/
def abcLoad : State := { State.reset with freq := table fun k => if k = 0 then 3 else if k = 1 then 2 else if k = 2 then 1 else 0 }

/-- Vector B-1: the arena that R126's example gives. -/
def abcTree : State :=
  { abcLoad with
    phase := .tree, root := 4#9, uptr := 4#9
    nodes := [.leaf 0#8 3#72, .leaf 1#8 2#72, .leaf 2#8 1#72, .internal 3#72 2#9 1#9, .internal 6#72 0#9 3#9] }

/-- Vector D-1: the codes "0", "11", "10". -/
def abcCodes : State :=
  { abcTree with
    phase := .codes
    code := codeTable fun k => if k = 0 then [false] else if k = 1 then [true, true] else if k = 2 then [true, false] else [] }

/-- Vector B-2: one symbol, 0, with frequency 9. -/
def loneLoad : State := { State.reset with freq := table fun k => if k = 0 then 9 else 0 }

/-- Vector B-2: its tree. -/
def loneTree : State :=
  { loneLoad with phase := .tree, root := 0#9, uptr := 0#9, single := true, nodes := [.leaf 0#8 9#72] }

/-- A block in ERROR. -/
def inError : State := { State.reset with phase := .error, err := .unknownSymbol }

/-- The state with the host's next events. -/
def doing (ev : List Event) (s : State) : State := { s with agenda := ev }

/-- The state with a command pending. -/
def waiting (c : Instr) (s : State) : State := { s with pend := some ⟨c, snapshot c s⟩ }

/-- Does the outcome answer a next state with this property? -/
def after (o : Host.Outcome State Fault Refusal) (p : State → Bool) : Bool :=
  match o with
  | .next t => p t
  | _ => false

/-! ### One or two steps per command; expected values from the vectors of spec/95_test_vectors.md and the rules' examples -/

/-- R102's example: NOP clears REJ. -/
theorem test_nop : after (step (doing [.command 0#32] { abcCodes with rej := true }))
    (fun t => statusWord t == 0x4#32) = true := by decide +kernel

/-- C-2: RESET leaves ERROR. -/
theorem test_reset : after (step (doing [.command 1#32] inError))
    (fun t => statusWord t == 0#32 && t.root == 0x1FF#9 && t.nodes == []) = true := by decide +kernel

/-- F-1, C-7: the snapshot at acceptance counts, not a later write. -/
theorem test_loadFreq : after (complete (regWrite 0x0C 5 (issue 0x6110#32 (regWrite 0x0C 3 State.reset))))
    (fun t => t.freqAt 0x61 == 3#64 && t.freqLo == 5#32) = true := by decide +kernel

/-- F-6: LOAD_FREQ in TREE raises IllegalSequence. -/
theorem test_loadFreq_in_tree : after (step (doing [.command 0x6110#32] abcTree))
    (fun t => statusWord t == 0x3E#32) = true := by decide +kernel

/-- F-4: both halves of a 64-bit frequency. -/
theorem test_readFreq : after (step (doing [.command 0x11#32] { State.reset with freq := table fun _ => 0x123456789ABCDEF0#64 }))
    (fun t => t.freqLo == 0x9ABCDEF0#32 && t.freqHi == 0x12345678#32) = true := by decide +kernel

/-- B-1: the tie at weight 3 goes to leaf 0. -/
theorem test_build : after (step (doing [.command 0x20#32] abcLoad))
    (fun t => t.nodes == abcTree.nodes && t.root == 4#9 && t.uptr == 4#9 && statusWord t == 2#32) = true := by decide +kernel

/-- W4: EmptyAlphabet. -/
theorem test_build_empty : after (step (State.reset.withFetchWord 32 0x20))
    (fun t => statusWord t == 0xE#32 && t.nodes == [] && t.root == 0x1FF#9) = true := by decide +kernel

/-- Q-1. -/
theorem test_queryNode : after (step (doing [.command 0x321#32] abcTree))
    (fun t => t.nodeInfo == 0x00080803#32 && t.nodeW0 == 3#32 && t.nodeW1 == 0#32 && t.nodeW2 == 0#8) = true := by
  decide +kernel

/-- Q-9: index 511 reports VALID = 0. -/
theorem test_queryNode_nil : after (step (doing [.command 0x1FF21#32] { loneTree with nodeInfo := 7 }))
    (fun t => t.nodeInfo == 0#32) = true := by decide +kernel

/-- D-1. -/
theorem test_derive : after (step (doing [.command 0x30#32] abcTree))
    (fun t => t.code == abcCodes.code && t.dstk == [] && statusWord t == 4#32) = true := by decide +kernel

/-- D-2: a lone leaf's code is "0". -/
theorem test_derive_lone : after (step (doing [.command 0x30#32] loneTree))
    (fun t => t.codeAt 0 == [false] && t.codeAt 1 == []) = true := by decide +kernel

/-- QC-2. -/
theorem test_queryCode : after (step (doing [.command 0x131#32] abcCodes))
    (fun t => t.codeLen == 2#8 && t.codeW.toList == [0xC0000000#32, 0, 0, 0, 0, 0, 0, 0]) = true := by decide +kernel

/-- P-1's step detail: "0001111" and then c = "10" push 0x1F and leave "0". -/
theorem test_packByte :
    after (step (doing [.command 0x240#32]
        { abcCodes with stream := .pack, pacc := [false, false, false, true, true, true, true], packBits := 7 }))
      (fun t => t.out == [0x1F#8] && t.pacc == [false] && t.packBits == 9#64) = true := by decide +kernel

/-- P-E1: UnknownSymbol appends nothing. -/
theorem test_packByte_unknown : after (step (doing [.command 0x7A40#32] abcCodes))
    (fun t => statusWord t == 0x1E#32 && t.packBits == 0#64 && t.out == []) = true := by decide +kernel

/-- P-5: "001011" is flushed as 0x2C. -/
theorem test_packFlush :
    after (step (doing [.command 0x41#32] { abcCodes with stream := .pack, pacc := [false, false, true, false, true, true], packBits := 6 }))
      (fun t => t.out == [0x2C#8] && t.pacc == [] && statusWord t == 0x1404#32) = true := by decide +kernel

/-- R191's example: 0x1F gives a a a b b and leaves the pointer at node 3. -/
theorem test_unpackByte : after (step (doing [.command 0x1F50#32] abcTree))
    (fun t => t.out == [0#8, 0#8, 0#8, 1#8, 1#8] && t.uptr == 3#9 && t.unpackBits == 8#64) = true := by decide +kernel

/-- D-E1: a 1 bit at a lone leaf raises CorruptStream after seven symbols. -/
theorem test_unpackByte_corrupt : after (step (doing [.command 0x150#32] loneTree))
    (fun t => statusWord t == 0x282E#32 && t.out.length == 7 && t.unpackBits == 7#64) = true := by decide +kernel

/-- D-U15: a partial path sets PARTIAL and the pointer goes back to ROOT. -/
theorem test_unpackEnd : after (step (doing [.command 0x51#32] { abcTree with stream := .unpack, uptr := 3 }))
    (fun t => statusWord t == 0x1A02#32 && t.uptr == 4#9) = true := by decide +kernel

/-- D-U16: the limit inside a code. -/
theorem test_unpack_limit : after (step (doing [.command 0x1F50#32] { abcTree with limitEn := true, limit := 4 }))
    (fun t => statusWord t == 0x4802#32 && t.uptr == 3#9 && t.out == [0#8, 0#8, 0#8]) = true := by decide +kernel

/-- C-4, C-5: a CMD write while BUSY sets OVR only. -/
theorem test_busy_drop : after (step (doing [.access (.write 4 0 0x2#32)] (waiting .build abcLoad)))
    (fun t => statusWord t == 0x81#32 && t.phase == .load) = true := by decide +kernel

/-- spec/95_test_vectors.md 2.8: an unassigned opcode in LOAD raises IllegalOpcode, code 6. -/
theorem test_illegal_word : after (step (doing [.command 0x2#32] State.reset))
    (fun t => statusWord t == 0x36#32) = true := by decide +kernel

/-- P-R1: no room for PACK_BYTE. -/
theorem test_reject : after (step (doing [.command 0x40#32] { abcCodes with stream := .pack, out := List.replicate 33 0 }))
    (fun t => statusWord t == 0x504#32 && t.out.length == 33) = true := by decide +kernel

/-- P-R2: a read of OUT_DATA pops and shows VALID. -/
theorem test_outData : after (step (doing [.access (.read 4 0x1C)] { State.reset with out := [0x1F#8, 0#8] }))
    (fun t => t.out == [0#8] && t.seen == [(0x1C, 0x11F#32)]) = true := by decide +kernel

/-- I12: a halfword access is refused. -/
theorem test_halfword : (match step (doing [.access (.read 2 0x04)] State.reset) with
    | .refused .accessNotAlignedWord => true | _ => false) = true := by decide +kernel

/-- C-8: the reset input during a pending BUILD. -/
theorem test_resetInput : after (step (doing [.resetInput true] (waiting .build abcLoad)))
    (fun t => statusWord t == 0#32 && t.nodes == [] && t.pend == none && t.freqAt 0 == 0#64) = true := by decide +kernel

/-- R88: LOADF by the host's pseudo-instructions, from the words written out. -/
theorem test_hostProgram : HostProgram.loadF 0x61 3 =
    [.access (.write 4 0x0C 3#32), .access (.write 4 0x10 0#32), .access (.write 4 0x00 0x6110#32), .engine,
      .access (.read 4 0x04)] := by decide

/-! ### Witnesses: for every statement with hypotheses, concrete values that meet them, clause by clause -/

theorem alphabet_congr {s u : State} (h : s.freq = u.freq) : s.alphabet = u.alphabet := by
  simp only [State.alphabet, State.freqAt, h]

/-- The alphabet of `abcLoad` (R112). -/
theorem abc_alphabet : abcLoad.alphabet = [0#8, 1#8, 2#8] := by decide +kernel

theorem lone_alphabet : loneLoad.alphabet = [0#8] := by decide +kernel

theorem abcTree_alphabet : abcTree.alphabet = [0#8, 1#8, 2#8] :=
  (alphabet_congr (s := abcTree) (u := abcLoad) rfl).trans abc_alphabet

theorem loneTree_alphabet : loneTree.alphabet = [0#8] :=
  (alphabet_congr (s := loneTree) (u := loneLoad) rfl).trans lone_alphabet

theorem reset_alphabet : State.reset.alphabet = [] := by decide +kernel

theorem reset_codeAt (x : Sym) : State.reset.codeAt x = [] := by simp [State.codeAt, State.reset]

/-- The tree of vector B-1. -/
def abcT : Tree := .node (.leaf 0#8 3#72) (.node (.leaf 2#8 1#72) (.leaf 1#8 2#72))

theorem abc_spans : Spans abcTree.nodes abcT abcTree.root :=
  ⟨6#72, 0#9, 3#9, rfl, by decide, by decide, by decide, rfl,
    ⟨3#72, 2#9, 1#9, rfl, by decide, by decide, by decide, rfl, rfl⟩⟩

theorem abc_built : BuiltTree abcTree abcT where
  spans := abc_spans
  nonempty := by rw [abcTree_alphabet]; decide
  count := by rw [abcTree_alphabet]; rfl
  root := rfl
  size := rfl
  syms := by rw [abcTree_alphabet]; decide
  weights := by
    intro k x w h
    match k with
    | 0 => cases h; decide +kernel
    | 1 => cases h; decide +kernel
    | 2 => cases h; decide +kernel
    | 3 => cases h
    | 4 => cases h
    | n + 5 => cases h
  single := by rw [abcTree_alphabet]; decide

theorem lone_built : BuiltTree loneTree (.leaf 0#8 9#72) where
  spans := rfl
  nonempty := by rw [loneTree_alphabet]; decide
  count := by rw [loneTree_alphabet]; rfl
  root := rfl
  size := rfl
  syms := by rw [loneTree_alphabet]; decide
  weights := by
    intro k x w h
    match k with
    | 0 => cases h; decide +kernel
    | n + 1 => cases h
  single := by rw [loneTree_alphabet]; decide

/-- The invariant of a LOAD state, with any table, pending command, agenda and OVR. -/
theorem inv_load (f : Vector Freq 256) (p : Option Pending) (ag : List Event) (o : Bool)
    (hp : ∀ q, p = some q → legal q.cmd .load .none false = true ∧ snapFits q = true ∧ worst q.cmd ≤ 64) :
    Inv { State.reset with freq := f, pend := p, agenda := ag, ovr := o } where
  err := by simp [State.reset]
  queues := ⟨rfl, rfl⟩
  out := by simp [State.reset]
  pending q hq := ⟨(hp q hq).1, (hp q hq).2.1, by simpa [hasRoom_iff, State.reset] using (hp q hq).2.2, rfl⟩
  pacc := rfl
  load _ := ⟨rfl, rfl, rfl, rfl, rfl⟩
  noCode _ x := reset_codeAt x
  tree h := by rcases h with h | h <;> cases h
  codes h := by cases h
  codeLen x := Nat.le_trans (Nat.le_of_eq (congrArg List.length (reset_codeAt x))) (Nat.zero_le 255)
  streamNone _ := ⟨rfl, rfl, rfl, rfl⟩
  streamPack h := by cases h
  streamUnpack h := by cases h
  uptr := ⟨.here _, .inl rfl⟩
  reset h := by cases h

/-- The invariant of the state in ERROR, with RESET pending or nothing. -/
theorem inv_error (p : Option Pending) (ag : List Event) (hp : ∀ q, p = some q → q = ⟨.reset, .none⟩) :
    Inv { inError with pend := p, agenda := ag } where
  err := by simp [inError]
  queues := ⟨rfl, rfl⟩
  out := by simp [inError, State.reset]
  pending q hq := by
    have : q = ⟨.reset, .none⟩ := hp q hq
    subst this
    exact ⟨rfl, rfl, by simp [hasRoom_iff, inError, State.reset, worst], rfl⟩
  pacc := rfl
  load h := by cases h
  noCode h := by rcases h with h | h <;> cases h
  tree h := by rcases h with h | h <;> cases h
  codes h := by cases h
  codeLen x := Nat.le_trans (Nat.le_of_eq (congrArg List.length (reset_codeAt x))) (Nat.zero_le 255)
  streamNone _ := ⟨rfl, rfl, rfl, rfl⟩
  streamPack h := by cases h
  streamUnpack h := by cases h
  uptr := ⟨.here _, .inl rfl⟩
  reset h := by cases h

/-- A built tree is a matter of the arena, the root, SINGLE and the table. -/
theorem BuiltTree.congr {s u : State} {T : Tree} (h : BuiltTree u T) (hn : s.nodes = u.nodes) (hr : s.root = u.root)
    (hs : s.single = u.single) (hf : s.freq = u.freq) : BuiltTree s T := by
  have ha := alphabet_congr hf
  have hq : ∀ x, s.freqAt x = u.freqAt x := fun x => by simp only [State.freqAt, hf]
  exact ⟨by rw [hn, hr]; exact h.spans, by rw [ha]; exact h.nonempty, by rw [hn, ha]; exact h.count, by rw [hr, hn]; exact h.root,
    by rw [hn]; exact h.size, by rw [ha]; exact h.syms, fun k x w hk => by rw [hq]; exact h.weights k x w (hn ▸ hk),
    by rw [hs, ha]; exact h.single⟩

/-- The invariant of the tree of vector B-1 in TREE, unpacking or not yet, with the pointer at ROOT or at node 3. -/
theorem inv_tree (u : NodeIdx) (hu : u = 4#9 ∨ u = 3#9) (p : Option Pending) (ag : List Event)
    (hp : ∀ q, p = some q → legal q.cmd .tree .unpack false = true ∧ snapFits q = true ∧ worst q.cmd ≤ 64) :
    Inv { abcTree with stream := .unpack, uptr := u, pend := p, agenda := ag } where
  err := by simp [abcTree, abcLoad, State.reset]
  queues := ⟨rfl, rfl⟩
  out := by simp [abcTree, abcLoad, State.reset]
  pending q hq := ⟨(hp q hq).1, (hp q hq).2.1, by simpa [hasRoom_iff, abcTree, abcLoad, State.reset] using (hp q hq).2.2, rfl⟩
  pacc := rfl
  load h := by cases h
  noCode _ x := reset_codeAt x
  tree _ := ⟨abcT, BuiltTree.congr abc_built rfl rfl rfl rfl⟩
  codes h := by cases h
  codeLen x := Nat.le_trans (Nat.le_of_eq (congrArg List.length (reset_codeAt x))) (Nat.zero_le 255)
  streamNone h := by cases h
  streamPack h := by cases h
  streamUnpack _ := ⟨.inl (.inl rfl), rfl⟩
  uptr := by
    rcases hu with rfl | rfl
    · exact ⟨.here _, .inl rfl⟩
    · exact ⟨.right _ 0#9 3#9 _ 6#72 rfl (.here _), .inr rfl⟩
  reset h := by cases h

theorem abcCodes_codes (x : Sym) :
    (abcCodes.codeAt x ≠ [] ↔ abcCodes.freqAt x ≠ 0) ∧ (abcCodes.codeAt x).length ≤ 255 := by
  have h : ∀ k : Fin 256, (abcCodes.codeAt (BitVec.ofFin k) ≠ [] ↔ abcCodes.freqAt (BitVec.ofFin k) ≠ 0) ∧
      (abcCodes.codeAt (BitVec.ofFin k)).length ≤ 255 := by decide +kernel
  exact h x.toFin

/-- The invariant of the codes of vector D-1, not streaming or packing, with any legal pending command. -/
theorem inv_codes (st : Stream) (out : List Byte) (r : Bool) (p : Option Pending) (ag : List Event)
    (hst : (st = .none ∧ out = []) ∨ st = .pack) (ho : out.length ≤ 64)
    (hp : ∀ q, p = some q → r = false ∧ legal q.cmd .codes st false = true ∧ snapFits q = true ∧ out.length + worst q.cmd ≤ 64) :
    Inv { abcCodes with stream := st, out := out, rej := r, pend := p, agenda := ag } where
  err := by simp [abcCodes, abcTree, abcLoad, State.reset]
  queues := ⟨rfl, rfl⟩
  out := ho
  pending q hq := ⟨(hp q hq).2.1, (hp q hq).2.2.1, by simpa [hasRoom_iff] using (hp q hq).2.2.2, (hp q hq).1⟩
  pacc := rfl
  load h := by cases h
  noCode h := by rcases h with h | h <;> cases h
  tree _ := ⟨abcT, BuiltTree.congr abc_built rfl rfl rfl rfl⟩
  codes _ x := (abcCodes_codes x).1
  codeLen x := (abcCodes_codes x).2
  streamNone h := by
    rcases hst with ⟨_, rfl⟩ | h'
    · exact ⟨rfl, rfl, rfl, rfl⟩
    · cases h.symm.trans h'
  streamPack _ := ⟨.inl rfl, rfl⟩
  streamUnpack h := by
    rcases hst with ⟨h', _⟩ | h' <;> cases h.symm.trans h'
  uptr := ⟨.here _, .inl rfl⟩
  reset h := by cases h

/-- A test that holds after a step names the next state. -/
theorem exists_next {o : Host.Outcome State Fault Refusal} {p : State → Bool} (h : after o p = true) :
    ∃ t, o = .next t ∧ p t = true := by
  cases o with
  | next t => exact ⟨t, rfl, h⟩
  | fault r => cases h
  | refused r => cases h

/-! Encoding. -/

theorem witness_DecodeOfEncode : (Instr.loadFreq 0x0FF#9).WellFormed ∧ (Instr.queryNode 0x1FF#9).WellFormed := by decide

theorem witness_EncodeOfDecode : decode 0x0001FF21#32 = .command (.queryNode 0x1FF#9) := by decide

theorem witness_OpcodeTableRows :
    (⟨"QUERY_NODE", 0x00000021#32, 0xFFFE00FF#32⟩ : OpRow) ∈ opcodeTable ∧ 0x0001FF21#32 &&& 0xFFFE00FF#32 = 0x00000021#32 := by
  decide

/-! Issue, completion and the step. -/

/-- A CMD write as the next event. -/
def writes (w : Word) (s : State) : State := doing [.access (.write 4 0x00 w)] s

/-- Clauses 1 to 4: busy, RESET in ERROR, another word in ERROR, an Illegal word. -/
theorem witness_CmdWriteOutcomes_early :
    (waiting .build abcLoad).pend ≠ none ∧ (writes 1#32 inError).phase = .error ∧ (writes 1#32 inError).pend = none ∧
    (writes 0#32 abcTree).phase ≠ .error ∧ (writes 0#32 abcTree).inReset = false ∧ ∀ i, decode 0x100#32 ≠ .command i :=
  ⟨nofun, rfl, rfl, nofun, rfl, fun i h => by
    rw [show decode 0x100#32 = .illegal .argNotZero from by decide] at h; cases h⟩

/-- Clause 5: an illegal command, one without room by one byte, and one that just has room. -/
theorem witness_CmdWriteOutcomes_late :
    decode 0x20#32 = .command .build ∧ legal .build abcTree.phase abcTree.stream abcTree.closed = false ∧
    decode 0x41#32 = .command .packFlush ∧ legal .packFlush .codes .pack false = true ∧
    64 < (List.replicate 64 (0#8 : Byte)).length + worst .packFlush ∧
    (List.replicate 63 (0#8 : Byte)).length + worst .packFlush ≤ 64 := by decide

theorem witness_StepRunsTheDecodedCommand :
    let s := doing [.command 0x20#32] abcLoad
    s.agenda = [.command 0x20#32] ∧ s.inReset = false ∧ s.pend = none ∧ s.phase ≠ .error ∧ decode 0x20#32 = .command .build ∧
      legal .build s.phase s.stream s.closed = true ∧ s.out.length + worst .build ≤ 64 :=
  ⟨rfl, rfl, rfl, nofun, by decide, rfl, by decide⟩

theorem witness_EngineStepExecutesThePendingCommand :
    (waiting .build abcLoad).pend = some ⟨.build, .none⟩ ∧ (waiting .build abcLoad).agenda = [] ∧
    (doing [.engine] (waiting .build abcLoad)).agenda = [.engine] := ⟨rfl, rfl, rfl⟩

theorem witness_IdleBlockKeepsItsState :
    abcTree.pend = none ∧ abcTree.agenda = [] ∧ (doing [.engine] abcTree).agenda = [.engine] := ⟨rfl, rfl, rfl⟩

/-! What each command does, at exec. -/

/-- The first index, a leaf; the last allocated one, an internal node; and the first unallocated one. -/
theorem witness_QueryNodeCompletes :
    abcTree.nodes[(0#9).toNat]? = some (.leaf 0#8 3#72) ∧ abcTree.nodes[(4#9).toNat]? = some (.internal 6#72 0#9 3#9) ∧
    abcTree.nodes[(5#9).toNat]? = none := ⟨rfl, rfl, rfl⟩

/-- Symbol 0 with a code of 255 bits. -/
def longCode : State := { abcCodes with code := codeTable fun k => if k = 0 then List.replicate 255 true else [] }

theorem longCode_length : (longCode.codeAt 0#8).length = 255 := by decide +kernel

theorem witness_QueryCodeCompletes : (longCode.codeAt ((0#9).extractLsb' 0 8)).length ≤ 255 := by decide +kernel

theorem abc_loadReady : LoadReady abcLoad := ⟨rfl, rfl, rfl⟩

theorem abc_alphabet_ne : abcLoad.alphabet ≠ [] := by rw [abc_alphabet]; decide

theorem witness_BuildCompletesWithTheTree :
    LoadReady abcLoad ∧ abcLoad.alphabet ≠ [] ∧ abcLoad.alphabet[2]? = some 2#8 :=
  ⟨abc_loadReady, abc_alphabet_ne, by rw [abc_alphabet]; rfl⟩

theorem witness_BuildRejectsTheEmptyAlphabet : State.reset.pq = [] ∧ State.reset.alphabet = [] := ⟨rfl, reset_alphabet⟩

theorem witness_DeriveCompletesWithThePaths :
    Spans abcTree.nodes abcT abcTree.root ∧ abcT.size ≤ 511 ∧ abcT.syms.Nodup ∧ (1#8, [true, true]) ∈ abcT.paths [] ∧
    3#8 ∉ abcT.syms := ⟨abc_spans, by decide, by decide, by decide, by decide⟩

theorem witness_PackByteCompletes :
    ({ abcCodes with pacc := List.replicate 7 true } : State).pacc.length < 8 ∧ abcCodes.codeAt ((2#9).extractLsb' 0 8) ≠ [] ∧
    abcCodes.codeAt ((3#9).extractLsb' 0 8) = [] := ⟨by decide, by decide +kernel, by decide +kernel⟩

theorem witness_PackFlushCompletes :
    abcCodes.pacc = [] ∧ ({ abcCodes with pacc := List.replicate 7 true } : State).pacc.length < 8 ∧
    ({ abcCodes with pacc := List.replicate 7 true } : State).pacc ≠ [] := ⟨rfl, by decide, nofun⟩

/-- The pointer at node 3, and the counter at its last value, where it wraps (R219). -/
theorem witness_UnpackByteCompletes :
    let s : State := { abcTree with uptr := 3#9, unpackBits := 0xFFFFFFFFFFFFFFFF#64 }
    Spans s.nodes abcT s.root ∧ abcT.isLeaf = false ∧ Spans s.nodes (.node (.leaf 2#8 1#72) (.leaf 1#8 2#72)) s.uptr ∧
      s.nodes.length ≤ 511 :=
  ⟨abc_spans, rfl, ⟨3#72, 2#9, 1#9, rfl, by decide, by decide, by decide, rfl, rfl⟩, by decide⟩

/-- A byte without a 1 bit, and one whose last bit is 1. -/
theorem witness_UnpackByteOfALoneLeaf :
    loneTree.nodes[loneTree.root.toNat]? = some (.leaf 0#8 9#72) ∧ loneTree.uptr = loneTree.root ∧
    traversed (limitOperand loneTree) loneTree.unpackBits = 8 ∧
    true ∉ ((List.range 8).map fun k => ((0#9).extractLsb' 0 8).getLsbD (7 - k)) ∧
    true ∈ ((List.range 8).map fun k => ((1#9).extractLsb' 0 8).getLsbD (7 - k)) :=
  ⟨rfl, rfl, rfl, by decide, by decide⟩

theorem witness_UnpackEndCompletes :
    abcTree.uptr = abcTree.root ∧ ({ abcTree with uptr := 3#9 } : State).uptr ≠ abcTree.root := by decide

/-! The command lines: for each clause a state that issues the word, and the phase, word and room the clause asks for. -/

/-- The state whose next event is the command line `w`. -/
def lineOf (w : Word) (s : State) : State := doing [.command w] s

theorem issues_reset (w : Word) : HostIssues (lineOf w State.reset) w [] := ⟨rfl, rfl, rfl, Nat.zero_le 64⟩
theorem issues_error (w : Word) : HostIssues (lineOf w inError) w [] := ⟨rfl, rfl, rfl, Nat.zero_le 64⟩
theorem issues_load (w : Word) : HostIssues (lineOf w abcLoad) w [] := ⟨rfl, rfl, rfl, Nat.zero_le 64⟩
theorem issues_tree (w : Word) : HostIssues (lineOf w abcTree) w [] := ⟨rfl, rfl, rfl, Nat.zero_le 64⟩
theorem issues_codes (w : Word) : HostIssues (lineOf w abcCodes) w [] := ⟨rfl, rfl, rfl, Nat.zero_le 64⟩

/-- CODES, packing, with n bytes in OUT. -/
def packing (n : Nat) : State := { abcCodes with stream := .pack, out := List.replicate n 0 }

/-- TREE, unpacking, with n bytes in OUT and the pointer off the root. -/
def unpacking (n : Nat) : State := { abcTree with stream := .unpack, uptr := 3, out := List.replicate n 0 }

theorem issues_packing (w : Word) (n : Nat) (h : n ≤ 64) : HostIssues (lineOf w (packing n)) w [] :=
  ⟨rfl, rfl, rfl, by simpa [lineOf, doing, packing, Config.outDepth] using h⟩

theorem issues_unpacking (w : Word) (n : Nat) (h : n ≤ 64) : HostIssues (lineOf w (unpacking n)) w [] :=
  ⟨rfl, rfl, rfl, by simpa [lineOf, doing, unpacking, Config.outDepth] using h⟩

theorem witness_NopCommandLine :
    HostIssues (lineOf 0x100#32 inError) 0x100#32 [] ∧ HostIssues (lineOf 0x100#32 abcTree) 0x100#32 [] ∧
    HostIssues (lineOf 0#32 abcTree) 0#32 [] ∧ (0x100#32 : Word).extractLsb' 0 8 = 0x00#8 ∧
    (0#32 : Word).extractLsb' 0 8 = 0x00#8 ∧ inError.phase = .error ∧ abcTree.phase ≠ .error :=
  ⟨issues_error _, issues_tree _, issues_tree _, by decide, by decide, rfl, nofun⟩

theorem witness_ResetCommandLine :
    (waiting .build abcLoad).inReset = false ∧ (waiting .build abcLoad).pend ≠ none ∧
    HostIssues (lineOf 1#32 inError) 1#32 [] ∧ (1#32 : Word).extractLsb' 0 8 = 0x01#8 ∧
    HostIssues (lineOf 0x101#32 inError) 0x101#32 [] ∧ HostIssues (lineOf 0x101#32 abcTree) 0x101#32 [] ∧
    (0x101#32 : Word).extractLsb' 0 8 = 0x01#8 ∧ inError.phase = .error ∧ abcTree.phase ≠ .error :=
  ⟨rfl, nofun, issues_error _, by decide, issues_error _, issues_tree _, by decide, rfl, nofun⟩

/-- Bits 31:16 at their first bad value, and 0 with the operand 0xFF. -/
theorem witness_LoadFreqCommandLine :
    HostIssues (lineOf 0x10#32 inError) 0x10#32 [] ∧ HostIssues (lineOf 0x10010#32 State.reset) 0x10010#32 [] ∧
    HostIssues (lineOf 0xFF10#32 abcTree) 0xFF10#32 [] ∧ HostIssues (lineOf 0xFF10#32 State.reset) 0xFF10#32 [] ∧
    (0x10010#32 : Word).extractLsb' 0 8 = 0x10#8 ∧ (0x10010#32 : Word).extractLsb' 16 16 ≠ 0 ∧
    (0xFF10#32 : Word).extractLsb' 0 8 = 0x10#8 ∧ (0xFF10#32 : Word).extractLsb' 16 16 = 0 ∧
    abcTree.phase = .tree ∧ abcCodes.phase = .codes ∧ State.reset.phase = .load :=
  ⟨issues_error _, issues_reset _, issues_tree _, issues_reset _, by decide, by decide, by decide, by decide, rfl, rfl, rfl⟩

theorem witness_ReadFreqCommandLine :
    HostIssues (lineOf 0x11#32 inError) 0x11#32 [] ∧ HostIssues (lineOf 0x10011#32 State.reset) 0x10011#32 [] ∧
    HostIssues (lineOf 0xFF11#32 abcCodes) 0xFF11#32 [] ∧ (0x10011#32 : Word).extractLsb' 0 8 = 0x11#8 ∧
    (0x10011#32 : Word).extractLsb' 16 16 ≠ 0 ∧ (0xFF11#32 : Word).extractLsb' 0 8 = 0x11#8 ∧
    (0xFF11#32 : Word).extractLsb' 16 16 = 0 ∧ abcCodes.phase ≠ .error :=
  ⟨issues_error _, issues_reset _, issues_codes _, by decide, by decide, by decide, by decide, nofun⟩

theorem witness_BuildCommandLine :
    HostIssues (lineOf 0x20#32 inError) 0x20#32 [] ∧ HostIssues (lineOf 0x120#32 State.reset) 0x120#32 [] ∧
    HostIssues (lineOf 0x20#32 abcTree) 0x20#32 [] ∧ HostIssues (lineOf 0x20#32 State.reset) 0x20#32 [] ∧
    HostIssues (lineOf 0x20#32 abcLoad) 0x20#32 [] ∧ (0x20#32 : Word).extractLsb' 0 8 = 0x20#8 ∧
    (0x120#32 : Word).extractLsb' 0 8 = 0x20#8 ∧ LoadReady (lineOf 0x20#32 State.reset) ∧
    (lineOf 0x20#32 State.reset).alphabet = [] ∧ LoadReady (lineOf 0x20#32 abcLoad) ∧
    (lineOf 0x20#32 abcLoad).alphabet ≠ [] :=
  ⟨issues_error _, issues_reset _, issues_tree _, issues_reset _, issues_load _, by decide, by decide, ⟨rfl, rfl, rfl⟩,
    reset_alphabet, ⟨rfl, rfl, rfl⟩, abc_alphabet_ne⟩

/-- Index 511 = NIL, the last allocated index, an internal node, and index 0, a leaf. -/
theorem witness_QueryNodeCommandLine :
    HostIssues (lineOf 0x21#32 inError) 0x21#32 [] ∧ HostIssues (lineOf 0x20021#32 abcTree) 0x20021#32 [] ∧
    HostIssues (lineOf 0x1FF21#32 abcLoad) 0x1FF21#32 [] ∧ HostIssues (lineOf 0x1FF21#32 abcTree) 0x1FF21#32 [] ∧
    HostIssues (lineOf 0x421#32 abcTree) 0x421#32 [] ∧ (0x20021#32 : Word).extractLsb' 17 15 ≠ 0 ∧
    (0x1FF21#32 : Word).extractLsb' 17 15 = 0 ∧ abcTree.nodes.length ≤ ((0x1FF21#32 : Word).extractLsb' 8 9).toNat ∧
    (0x421#32 : Word).extractLsb' 17 15 = 0 ∧ (0x421#32 : Word).extractLsb' 0 8 = 0x21#8 ∧
    abcTree.nodes[((0x421#32 : Word).extractLsb' 8 9).toNat]? = some (.internal 6#72 0#9 3#9) ∧
    HostIssues (lineOf 0x21#32 abcTree) 0x21#32 [] ∧ (0x21#32 : Word).extractLsb' 17 15 = 0 ∧
    abcTree.nodes[((0x21#32 : Word).extractLsb' 8 9).toNat]? = some (.leaf 0#8 3#72) :=
  ⟨issues_error _, issues_tree _, issues_load _, issues_tree _, issues_tree _, by decide, by decide, by decide, by decide,
    by decide, rfl, issues_tree _, by decide, rfl⟩

theorem witness_DeriveCommandLine :
    HostIssues (lineOf 0x30#32 inError) 0x30#32 [] ∧ HostIssues (lineOf 0x130#32 abcTree) 0x130#32 [] ∧
    HostIssues (lineOf 0x30#32 abcCodes) 0x30#32 [] ∧ HostIssues (lineOf 0x30#32 abcTree) 0x30#32 [] ∧
    (0x30#32 : Word).extractLsb' 0 8 = 0x30#8 ∧ (0x130#32 : Word).extractLsb' 0 8 = 0x30#8 ∧
    BuiltTree (lineOf 0x30#32 abcTree) abcT ∧ (1#8, [true, true]) ∈ abcT.paths [] ∧ abcTree.freqAt 3#8 = 0 :=
  ⟨issues_error _, issues_tree _, issues_codes _, issues_tree _, by decide, by decide,
    BuiltTree.congr abc_built rfl rfl rfl rfl, by decide, by decide +kernel⟩

theorem witness_QueryCodeCommandLine :
    HostIssues (lineOf 0x31#32 inError) 0x31#32 [] ∧ HostIssues (lineOf 0x10031#32 abcCodes) 0x10031#32 [] ∧
    HostIssues (lineOf 0x31#32 abcTree) 0x31#32 [] ∧ HostIssues (lineOf 0x31#32 longCode) 0x31#32 [] ∧
    (0x31#32 : Word).extractLsb' 0 8 = 0x31#8 ∧ (0x31#32 : Word).extractLsb' 16 16 = 0 ∧
    (0x10031#32 : Word).extractLsb' 16 16 ≠ 0 ∧ longCode.phase = .codes ∧
    (longCode.codeAt ((0x31#32 : Word).extractLsb' 8 8)).length ≤ 255 ∧
    254 < (longCode.codeAt ((0x31#32 : Word).extractLsb' 8 8)).length :=
  ⟨issues_error _, issues_codes _, issues_tree _, ⟨rfl, rfl, rfl, Nat.zero_le 64⟩, by decide, by decide, by decide, rfl,
    by decide +kernel, by decide +kernel⟩

/-- 33 bytes in OUT lack room and 32 have it; symbol 3 has no code and symbol 2 has one. -/
theorem witness_PackByteCommandLine :
    HostIssues (lineOf 0x240#32 inError) 0x240#32 [] ∧ HostIssues (lineOf 0x10040#32 abcCodes) 0x10040#32 [] ∧
    HostIssues (lineOf 0x240#32 abcTree) 0x240#32 [] ∧ HostIssues (lineOf 0x240#32 (packing 33)) 0x240#32 [] ∧
    HostIssues (lineOf 0x340#32 (packing 32)) 0x340#32 [] ∧ HostIssues (lineOf 0x240#32 (packing 32)) 0x240#32 [] ∧
    (0x240#32 : Word).extractLsb' 0 8 = 0x40#8 ∧ (0x340#32 : Word).extractLsb' 0 8 = 0x40#8 ∧
    (0x10040#32 : Word).extractLsb' 16 16 ≠ 0 ∧ (0x240#32 : Word).extractLsb' 16 16 = 0 ∧
    (0x340#32 : Word).extractLsb' 16 16 = 0 ∧ (packing 33).out.length = 33 ∧ (packing 32).out.length = 32 ∧
    (packing 32).pacc.length < 8 ∧ ((packing 32).phase = .codes ∧ (packing 32).stream ≠ .unpack ∧ (packing 32).closed = false) ∧
    (packing 32).codeAt ((0x340#32 : Word).extractLsb' 8 8) = [] ∧ (packing 32).codeAt ((0x240#32 : Word).extractLsb' 8 8) ≠ [] :=
  ⟨issues_error _, issues_codes _, issues_tree _, issues_packing _ _ (by decide), issues_packing _ _ (by decide),
    issues_packing _ _ (by decide), by decide, by decide, by decide, by decide, by decide, rfl, rfl, by decide,
    ⟨rfl, nofun, rfl⟩, by decide +kernel, by decide +kernel⟩

theorem witness_PackFlushCommandLine :
    HostIssues (lineOf 0x41#32 inError) 0x41#32 [] ∧ HostIssues (lineOf 0x141#32 abcCodes) 0x141#32 [] ∧
    HostIssues (lineOf 0x41#32 abcTree) 0x41#32 [] ∧ HostIssues (lineOf 0x41#32 (packing 64)) 0x41#32 [] ∧
    HostIssues (lineOf 0x41#32 (packing 63)) 0x41#32 [] ∧
    HostIssues (lineOf 0x41#32 { packing 63 with pacc := List.replicate 7 true }) 0x41#32 [] ∧
    (0x41#32 : Word).extractLsb' 0 8 = 0x41#8 ∧ (0x141#32 : Word).extractLsb' 0 8 = 0x41#8 ∧
    (packing 64).out.length = 64 ∧ (packing 63).out.length = 63 ∧ (packing 63).pacc = [] ∧
    ((packing 63).phase = .codes ∧ (packing 63).stream ≠ .unpack ∧ (packing 63).closed = false) :=
  ⟨issues_error _, issues_codes _, issues_tree _, issues_packing _ _ (by decide), issues_packing _ _ (by decide),
    ⟨rfl, rfl, rfl, by decide⟩, by decide, by decide, rfl, rfl, rfl, ⟨rfl, nofun, rfl⟩⟩

theorem witness_UnpackByteCommandLine :
    HostIssues (lineOf 0x50#32 inError) 0x50#32 [] ∧ HostIssues (lineOf 0x10050#32 abcTree) 0x10050#32 [] ∧
    HostIssues (lineOf 0x50#32 abcLoad) 0x50#32 [] ∧ HostIssues (lineOf 0x50#32 (unpacking 57)) 0x50#32 [] ∧
    HostIssues (lineOf 0x50#32 (unpacking 56)) 0x50#32 [] ∧ (0x50#32 : Word).extractLsb' 0 8 = 0x50#8 ∧
    (0x50#32 : Word).extractLsb' 16 16 = 0 ∧ (0x10050#32 : Word).extractLsb' 16 16 ≠ 0 ∧
    (unpacking 57).out.length = 57 ∧ (unpacking 56).out.length = 56 ∧
    (((unpacking 56).phase = .tree ∨ (unpacking 56).phase = .codes) ∧ (unpacking 56).stream ≠ .pack ∧
      (unpacking 56).closed = false) ∧
    BuiltTree (lineOf 0x50#32 (unpacking 56)) abcT ∧ abcT.isLeaf = false ∧
    Spans (unpacking 56).nodes (.node (.leaf 2#8 1#72) (.leaf 1#8 2#72)) (unpacking 56).uptr :=
  ⟨issues_error _, issues_tree _, issues_load _, issues_unpacking _ _ (by decide), issues_unpacking _ _ (by decide),
    by decide, by decide, by decide, rfl, rfl, ⟨.inl rfl, nofun, rfl⟩, BuiltTree.congr abc_built rfl rfl rfl rfl, rfl,
    ⟨3#72, 2#9, 1#9, rfl, by decide, by decide, by decide, rfl, rfl⟩⟩

/-- A lone leaf with 56 bytes in OUT. -/
def loneUnpacking : State := { loneTree with stream := .unpack, out := List.replicate 56 0 }

/-- The lone-leaf clauses: a byte without a 1 bit, and one whose last bit is 1. -/
theorem witness_UnpackByteCommandLine_lone :
    HostIssues (lineOf 0x50#32 loneUnpacking) 0x50#32 [] ∧ HostIssues (lineOf 0x150#32 loneUnpacking) 0x150#32 [] ∧
    (0x150#32 : Word).extractLsb' 0 8 = 0x50#8 ∧ (0x150#32 : Word).extractLsb' 16 16 = 0 ∧ loneUnpacking.out.length = 56 ∧
    ((loneUnpacking.phase = .tree ∨ loneUnpacking.phase = .codes) ∧ loneUnpacking.stream ≠ .pack ∧
      loneUnpacking.closed = false) ∧
    loneUnpacking.nodes[loneUnpacking.root.toNat]? = some (.leaf 0#8 9#72) ∧ loneUnpacking.uptr = loneUnpacking.root ∧
    traversed (loneUnpacking.limitEn, loneUnpacking.limit) loneUnpacking.unpackBits = 8 ∧
    true ∉ ((List.range 8).map fun k => ((0x50#32 : Word).extractLsb' 8 8).getLsbD (7 - k)).take 8 ∧
    true ∈ ((List.range 8).map fun k => ((0x150#32 : Word).extractLsb' 8 8).getLsbD (7 - k)).take 8 :=
  ⟨⟨rfl, rfl, rfl, by decide⟩, ⟨rfl, rfl, rfl, by decide⟩, by decide, by decide, rfl, ⟨.inl rfl, nofun, rfl⟩, rfl, rfl, rfl,
    by decide, by decide⟩

theorem witness_UnpackEndCommandLine :
    HostIssues (lineOf 0x51#32 inError) 0x51#32 [] ∧ HostIssues (lineOf 0x151#32 abcTree) 0x151#32 [] ∧
    HostIssues (lineOf 0x51#32 abcLoad) 0x51#32 [] ∧ HostIssues (lineOf 0x51#32 abcTree) 0x51#32 [] ∧
    HostIssues (lineOf 0x51#32 (unpacking 64)) 0x51#32 [] ∧ (0x51#32 : Word).extractLsb' 0 8 = 0x51#8 ∧
    (0x151#32 : Word).extractLsb' 0 8 = 0x51#8 ∧ abcTree.uptr = abcTree.root ∧ (unpacking 64).uptr ≠ (unpacking 64).root ∧
    (((unpacking 64).phase = .tree ∨ (unpacking 64).phase = .codes) ∧ (unpacking 64).stream ≠ .pack ∧
      (unpacking 64).closed = false) :=
  ⟨issues_error _, issues_tree _, issues_load _, issues_tree _, issues_unpacking _ _ (by decide), by decide, by decide, rfl,
    by decide, ⟨.inl rfl, nofun, rfl⟩⟩

/-! The priority queue, the tree, the codes and whole streams. -/

theorem witness_QueueKeyIsAStrictTotalOrder :
    PQEntry.lt ⟨3#72, 0#9⟩ ⟨3#72, 3#9⟩ = true ∧ PQEntry.lt ⟨3#72, 3#9⟩ ⟨4#72, 0#9⟩ = true ∧
    (⟨3#72, 0#9⟩ : PQEntry) ≠ ⟨3#72, 3#9⟩ := by decide

/-- A queue of two entries of equal weight. -/
def queued : State := { State.reset with pq := [⟨3#72, 0#9⟩, ⟨3#72, 3#9⟩] }

theorem witness_QueueOperations :
    queued.pq.Pairwise (fun a b => a.lt b = true) ∧ (⟨3#72, 2#9⟩ : PQEntry) ∉ queued.pq ∧ queued.pq ≠ [] ∧
    State.reset.pq = [] := by decide

theorem witness_BuildRefinesHuffman : LoadReady abcLoad ∧ abcLoad.alphabet ≠ [] := ⟨abc_loadReady, abc_alphabet_ne⟩

theorem witness_TreeIsAFunctionOfTheTable :
    LoadReady abcLoad ∧ LoadReady { abcLoad with freqLo := 1, ovr := true } ∧
    abcLoad.freq = ({ abcLoad with freqLo := 1, ovr := true } : State).freq ∧ abcLoad.alphabet ≠ [] :=
  ⟨abc_loadReady, ⟨rfl, rfl, rfl⟩, rfl, abc_alphabet_ne⟩

theorem witness_DerivedCodesArePrefixFree :
    LoadReady abcLoad ∧ 2 ≤ abcLoad.alphabet.length ∧ abcLoad.freqAt 0 ≠ 0 ∧ abcLoad.freqAt 1 ≠ 0 ∧
    LoadReady loneLoad ∧ loneLoad.alphabet = [0#8] :=
  ⟨abc_loadReady, by rw [abc_alphabet]; decide, by decide +kernel, by decide +kernel, ⟨rfl, rfl, rfl⟩, lone_alphabet⟩

/-- An empty input, and one of two bytes. -/
theorem witness_PackRunDeliversTheCodes :
    (loaded abcLoad.freq).alphabet ≠ [] ∧ (∀ x ∈ ([] : List Byte), (loaded abcLoad.freq).freqAt x ≠ 0) ∧
    ∀ x ∈ [0#8, 2#8], (loaded abcLoad.freq).freqAt x ≠ 0 :=
  ⟨abc_alphabet_ne, by simp, by decide +kernel⟩

/-- An input of one byte, and the bit count of its run. -/
theorem witness_RoundTripUnderTheLimit :
    (∀ x ∈ [2#8], (loaded abcLoad.freq).freqAt x ≠ 0) ∧
    (runLines ([.build, .derive] ++ [2#8].map packCmd ++ [.packFlush]) (loaded abcLoad.freq)).any
      (fun r => ([2#8].map fun x => (r.1.codeAt x).length).sum < 2 ^ 64) = true :=
  ⟨by decide +kernel, by decide +kernel⟩

theorem witness_BaselineDecodeAddsThePadding :
    [2#8] ≠ [] ∧ (∀ x ∈ [2#8], (loaded abcLoad.freq).freqAt x ≠ 0) ∧ ∀ x ∈ [0#8], (loaded loneLoad.freq).freqAt x ≠ 0 :=
  ⟨by decide, by decide +kernel, by decide +kernel⟩

/-! The whole machine. -/

/-- A LOAD state with a pending command and the next events. -/
def loadDoing (f : Vector Freq 256) (p : Option Pending) (ag : List Event) : State :=
  { State.reset with freq := f, pend := p, agenda := ag, ovr := false }

/-- The tree state, unpacking, with a pending command and the next events. -/
def treeDoing (u : NodeIdx) (p : Option Pending) (ag : List Event) : State :=
  { abcTree with stream := .unpack, uptr := u, pend := p, agenda := ag }

/-- The codes state with a pending command and the next events. -/
def codesDoing (st : Stream) (out : List Byte) (r : Bool) (p : Option Pending) (ag : List Event) : State :=
  { abcCodes with stream := st, out := out, rej := r, pend := p, agenda := ag }

/-- The state in ERROR with a pending command and the next events. -/
def errorDoing (p : Option Pending) (ag : List Event) : State := { inError with pend := p, agenda := ag }

theorem pend_none {P : Pending → Prop} : ∀ q, (none : Option Pending) = some q → P q := nofun

theorem pend_some {P : Pending → Prop} {p : Pending} (h : P p) : ∀ q, some p = some q → P q := by
  rintro q ⟨⟩; exact h

/-- The next event is one that `PlainEvent` admits. -/
def plain (s : State) : Bool := match s.agenda with | .command _ :: _ => false | _ => true

theorem plainEvent_of {s : State} (h : plain s = true) : PlainEvent s := by
  intro w rest ha; simp [plain, ha] at h

theorem completing_of {s : State} {c : Instr} {snap : Snapshot} (h : s.pend = some ⟨c, snap⟩) (ha : s.agenda = []) :
    Completing s c := ⟨⟨snap, h⟩, .inl ha⟩

theorem not_resetting_of {s : State} (h : ∀ snap, s.pend ≠ some ⟨.reset, snap⟩) (ha : ∀ rest, s.agenda ≠ .resetInput true :: rest) :
    ¬ Resetting s := by
  rintro (⟨⟨snap, hs⟩, _⟩ | ⟨rest, hr⟩)
  · exact h snap hs
  · exact ha rest hr

theorem witness_StepKeepsInv : Inv (treeDoing 3#9 none [.command 0x1F50#32]) ∧
    ∃ t, step (treeDoing 3#9 none [.command 0x1F50#32]) = .next t ∧ (t.unpackBits == 8) = true :=
  ⟨inv_tree _ (.inr rfl) _ _ pend_none, exists_next (by decide +kernel)⟩

theorem witness_PendingCommandCompletes : Inv (loadDoing abcLoad.freq (some ⟨.build, .none⟩) []) ∧
    Completing (loadDoing abcLoad.freq (some ⟨.build, .none⟩) []) .build :=
  ⟨inv_load _ _ _ _ (pend_some ⟨rfl, rfl, by decide⟩), completing_of rfl rfl⟩

/-- A command other than RESET, which is ignored, and RESET pending. -/
theorem witness_OnlyResetLeavesError :
    (Inv (errorDoing none [.access (.write 4 0x00 0#32)]) ∧ PlainEvent (errorDoing none [.access (.write 4 0x00 0#32)]) ∧
      (errorDoing none [.access (.write 4 0x00 0#32)]).phase = .error ∧
      ¬ Resetting (errorDoing none [.access (.write 4 0x00 0#32)]) ∧
      ∃ t, step (errorDoing none [.access (.write 4 0x00 0#32)]) = .next t ∧ (t.phase == .error) = true) ∧
    Inv (errorDoing (some ⟨.reset, .none⟩) []) ∧ PlainEvent (errorDoing (some ⟨.reset, .none⟩) []) ∧
      (errorDoing (some ⟨.reset, .none⟩) []).phase = .error ∧ Resetting (errorDoing (some ⟨.reset, .none⟩) []) ∧
      ∃ t, step (errorDoing (some ⟨.reset, .none⟩) []) = .next t ∧ (t.phase == .load) = true :=
  ⟨⟨inv_error _ _ pend_none, plainEvent_of rfl, rfl, not_resetting_of nofun nofun, exists_next (by decide +kernel)⟩,
    inv_error _ _ (pend_some rfl), plainEvent_of rfl, rfl, .inl (completing_of rfl rfl), exists_next (by decide +kernel)⟩

/-- What a witness of a flag's change shows: the premises, and the flag before and after. -/
def Flips (s : State) (p : State → State → Bool) : Prop := Inv s ∧ PlainEvent s ∧ ∃ t, step s = .next t ∧ p s t = true

theorem flips_of {s : State} {p : State → State → Bool} (h : Inv s) (he : plain s = true) (hp : after (step s) (p s) = true) :
    Flips s p := ⟨h, plainEvent_of he, exists_next hp⟩

/-- BUSY rises at a CMD write, falls at a completion, OVR rises at a write while BUSY. -/
theorem witness_FlagsChangeOnlyAsTheTableSays_busy :
    Flips (loadDoing State.reset.freq none [.access (.write 4 0x00 0#32)]) (fun s t => !s.busy && t.busy) ∧
    Flips (loadDoing State.reset.freq (some ⟨.nop, .none⟩) []) (fun s t => s.busy && !t.busy) ∧
    Flips (loadDoing State.reset.freq (some ⟨.nop, .none⟩) [.access (.write 4 0x00 0#32)]) (fun s t => !s.ovr && t.ovr) :=
  ⟨flips_of (inv_load _ _ _ _ pend_none) rfl (by decide +kernel),
    flips_of (inv_load _ _ _ _ (pend_some ⟨rfl, rfl, by decide⟩)) rfl (by decide +kernel),
    flips_of (inv_load _ _ _ _ (pend_some ⟨rfl, rfl, by decide⟩)) rfl (by decide +kernel)⟩

/-- REJ rises with a full FIFO and falls at an acceptance; PACK_FLUSH sets CLOSED and STREAM. -/
theorem witness_FlagsChangeOnlyAsTheTableSays_pack :
    Flips (codesDoing .pack (List.replicate 64 0) false none [.access (.write 4 0x00 0x41#32)]) (fun s t => !s.rej && t.rej) ∧
    Flips (codesDoing .pack [] true none [.access (.write 4 0x00 0#32)]) (fun s t => s.rej && !t.rej) ∧
    Flips (codesDoing .none [] false (some ⟨.packFlush, .none⟩) [])
      (fun s t => !s.closed && t.closed && t.stream != s.stream) ∧
    ¬ Resetting (codesDoing .none [] false (some ⟨.packFlush, .none⟩) []) :=
  ⟨flips_of (inv_codes _ _ _ _ _ (.inr rfl) (by decide) pend_none) rfl (by decide +kernel),
    flips_of (inv_codes _ _ _ _ _ (.inr rfl) (by decide) pend_none) rfl (by decide +kernel),
    flips_of (inv_codes _ _ _ _ _ (.inl ⟨rfl, rfl⟩) (by decide) (pend_some ⟨rfl, rfl, rfl, by decide⟩)) rfl (by decide +kernel),
    not_resetting_of nofun nofun⟩

/-- UNPACK_END off the root sets PARTIAL; a limit of 0 sets LIMHIT. -/
theorem witness_FlagsChangeOnlyAsTheTableSays_unpack :
    Flips (treeDoing 3#9 (some ⟨.unpackEnd, .none⟩) []) (fun s t => !s.partialFlag && t.partialFlag) ∧
    Flips (treeDoing 4#9 (some ⟨.unpackByte 0#9, .limit true 0#64⟩) []) (fun s t => !s.limhit && t.limhit) :=
  ⟨flips_of (inv_tree _ (.inr rfl) _ _ (pend_some ⟨rfl, rfl, by decide⟩)) rfl (by decide +kernel),
    flips_of (inv_tree _ (.inl rfl) _ _ (pend_some ⟨rfl, rfl, by decide⟩)) rfl (by decide +kernel)⟩

/-- BUILD of one symbol sets SINGLE and PHASE; RESET clears OVR. -/
theorem witness_FlagsChangeOnlyAsTheTableSays_build :
    Flips (loadDoing loneLoad.freq (some ⟨.build, .none⟩) []) (fun s t => !s.single && t.single && t.phase != s.phase) ∧
    ¬ Resetting (loadDoing loneLoad.freq (some ⟨.build, .none⟩) []) ∧
    Flips { State.reset with freq := State.reset.freq, pend := some ⟨.reset, .none⟩, agenda := [], ovr := true }
      (fun s t => s.ovr && !t.ovr) :=
  ⟨flips_of (inv_load _ _ _ _ (pend_some ⟨rfl, rfl, by decide⟩)) rfl (by decide +kernel), not_resetting_of nofun nofun,
    flips_of (inv_load _ _ _ _ (pend_some ⟨rfl, rfl, by decide⟩)) rfl (by decide +kernel)⟩

theorem witness_TablesAreWrittenOnlyByTheirCommands :
    Flips (loadDoing State.reset.freq (some ⟨.loadFreq 0#9, .freq 3#64⟩) []) (fun s t => t.freq != s.freq) ∧
    Flips (loadDoing abcLoad.freq (some ⟨.build, .none⟩) []) (fun s t => t.nodes != s.nodes) ∧
    Flips { abcTree with stream := .unpack, uptr := 4#9, pend := some ⟨.derive, .none⟩, agenda := [] }
      (fun s t => t.code != s.code) ∧
    ¬ Resetting (loadDoing State.reset.freq (some ⟨.loadFreq 0#9, .freq 3#64⟩) []) ∧
    ¬ Resetting (loadDoing abcLoad.freq (some ⟨.build, .none⟩) []) ∧
    ¬ Resetting { abcTree with stream := .unpack, uptr := 4#9, pend := some ⟨.derive, .none⟩, agenda := [] } :=
  ⟨flips_of (inv_load _ _ _ _ (pend_some ⟨rfl, rfl, by decide⟩)) rfl (by decide +kernel),
    flips_of (inv_load _ _ _ _ (pend_some ⟨rfl, rfl, by decide⟩)) rfl (by decide +kernel),
    flips_of (inv_tree _ (.inl rfl) _ _ (pend_some ⟨rfl, rfl, by decide⟩)) rfl (by decide +kernel),
    not_resetting_of nofun nofun, not_resetting_of nofun nofun, not_resetting_of nofun nofun⟩

theorem longCode_short (x : Sym) : (longCode.codeAt x).length ≤ 255 := by
  have h : ∀ k : Fin 256, (longCode.codeAt (BitVec.ofFin k)).length ≤ 255 := by decide +kernel
  exact h x.toFin

/-- Seven pending bits and a code of 255: the 32 bytes of the reservation leave (R180). -/
theorem witness_OutputFitsTheReservation :
    ({ longCode with pacc := List.replicate 7 true } : State).pacc.length ≤ 7 ∧
    (∀ x, (({ longCode with pacc := List.replicate 7 true } : State).codeAt x).length ≤ 255) ∧
    ∃ t, exec (.packByte 0#9) { longCode with pacc := List.replicate 7 true } = .next t ∧ (t.out.length == 32) = true :=
  ⟨by decide, longCode_short, exists_next (by decide +kernel)⟩

theorem witness_PendingCommandIgnoresLaterWrites :
    (waiting (.loadFreq 0x61#9) State.reset).pend = some ⟨.loadFreq 0x61#9, .freq 0⟩ ∧
    snapFits ⟨.loadFreq 0x61#9, .freq 0⟩ = true ∧ 0x0C ∈ [0x08, 0x0C, 0x10, 0x34, 0x38] ∧
    ∃ t, complete (waiting (.loadFreq 0x61#9) State.reset) = .next t ∧ (!t.busy) = true :=
  ⟨rfl, rfl, by decide, exists_next (by decide +kernel)⟩

/-! The register window and the reset input. -/

/-- The last register offset, a halfword, an odd offset, and the first offset past the window. -/
theorem witness_AccessContract :
    (doing [.access (.read 4 0xFC)] State.reset).inReset = false ∧
    ((HostAccess.read 4 0xFC).size = 4 ∧ (HostAccess.read 4 0xFC).off % 4 = 0 ∧ (HostAccess.read 4 0xFC).off ≤ 0xFC) ∧
    ¬ ((HostAccess.read 2 0x04).size = 4 ∧ (HostAccess.read 2 0x04).off % 4 = 0) ∧
    ¬ ((HostAccess.write 4 0x03 0).size = 4 ∧ (HostAccess.write 4 0x03 0).off % 4 = 0) ∧
    ((HostAccess.write 4 0x100 0).size = 4 ∧ (HostAccess.write 4 0x100 0).off % 4 = 0 ∧ 0xFC < (HostAccess.write 4 0x100 0).off) := by
  decide

theorem witness_ReadsWhileIdle :
    let s := doing [.access (.read 4 0xFC)] State.reset
    s.inReset = false ∧ s.pend = none ∧ 0xFC % 4 = 0 ∧ (0xFC : Nat) ≤ 0xFC ∧ (0xFC : Nat) ≠ 0x1C ∧
      s.agenda = [.access (.read 4 0xFC)] ∧ (0x1C : Nat) % 4 = 0 ∧ s.out = [] ∧
      ({ s with out := [0x1F#8] } : State).out = 0x1F#8 :: [] :=
  ⟨rfl, rfl, rfl, by decide, by decide, rfl, rfl, rfl, rfl⟩

theorem witness_ReadsWhileBusy :
    let s := fun off => loadDoing State.reset.freq (some ⟨.nop, .none⟩) [.access (.read 4 off)]
    Inv (s 0x04) ∧ Inv (s 0xFC) ∧ (s 0x04).inReset = false ∧ (s 0xFC).pend ≠ none ∧
      (s 0x04).agenda = [.access (.read 4 0x04)] ∧ (s 0xFC).agenda = [.access (.read 4 0xFC)] :=
  ⟨inv_load _ _ _ _ (pend_some ⟨rfl, rfl, by decide⟩), inv_load _ _ _ _ (pend_some ⟨rfl, rfl, by decide⟩), rfl, nofun, rfl, rfl⟩

/-- Each data register's offset and one more, with nothing pending and with a command pending. -/
theorem witness_DataRegisterWrites :
    (∀ off ∈ [0x08, 0x0C, 0x10, 0x34, 0x38, 0xFC], off % 4 = 0 ∧ off ≤ 0xFC ∧ off ≠ 0x00) ∧
    0xFC ∉ [0x08, 0x0C, 0x10, 0x34, 0x38] ∧ (doing [.access (.write 4 0x34 7#32)] (waiting .nop State.reset)).inReset = false ∧
    (doing [.access (.write 4 0x34 7#32)] (waiting .nop State.reset)).agenda = [.access (.write 4 0x34 7#32)] :=
  ⟨by decide, by decide, rfl, rfl⟩

theorem witness_ReservedOffsets :
    let s := fun e => doing [.access e] State.reset
    (s (.read 4 0x74)).inReset = false ∧ 0x74 % 4 = 0 ∧ (0x74 : Nat) ≤ 0x74 ∧ 0xFC % 4 = 0 ∧ (0x74 : Nat) ≤ 0xFC ∧
      (s (.read 4 0x74)).pend = none ∧ (s (.read 4 0x74)).agenda = [.access (.read 4 0x74)] ∧
      (s (.write 4 0xFC 1#32)).agenda = [.access (.write 4 0xFC 1#32)] :=
  ⟨rfl, rfl, by decide, rfl, by decide, rfl, rfl, rfl⟩

/-- A full arena and a full FIFO. -/
theorem witness_RegisterViews :
    ({ packing 64 with nodes := List.replicate 511 (.leaf 0#8 1#72) } : State).nodes.length ≤ 511 ∧
    ({ packing 64 with nodes := List.replicate 511 (.leaf 0#8 1#72) } : State).out.length ≤ 64 :=
  ⟨Nat.le_of_eq List.length_replicate, by decide⟩

/-- The state while the reset input is asserted. -/
theorem witness_ResetInput :
    (doing [.resetInput true] (waiting .build abcLoad)).agenda = [.resetInput true] ∧
    (let s : State := { State.reset with inReset := true, agenda := [.resetInput false] }
     Inv s ∧ s.inReset = true ∧ s.agenda = [.resetInput false]) ∧
    (let s : State := { State.reset with inReset := true, agenda := [.access (.read 4 0x04)] }
     s.inReset = true ∧ s.agenda = [.access (.read 4 0x04)]) := by
  refine ⟨rfl, ⟨?_, rfl, rfl⟩, rfl, rfl⟩
  have h := inv_load State.reset.freq none [.resetInput false] false pend_none
  exact ⟨h.err, h.queues, h.out, h.pending, h.pacc, h.load, h.noCode,
    (fun ht => by rcases ht with e | e <;> cases e), h.codes, h.codeLen, h.streamNone,
    h.streamPack, h.streamUnpack, h.uptr, fun _ => rfl⟩

theorem witness_ResetValues :
    (∃ t, exec .reset abcTree = .next t ∧ (t.phase == .load) = true) ∧
    ∃ t, step (doing [.resetInput true] abcTree) = .next t ∧ (t.phase == .load) = true :=
  ⟨exists_next (by decide +kernel), exists_next (by decide +kernel)⟩

end Sys2Proof.Tests
end

section
/-! Trees in the arena (spec/42_tree_builder.md R120, R128): what `Spans` and `Reaches` say of the allocated entries, and
how size, depth and leaves of a tree are related. -/

namespace Sys2Proof.Machine

/-! ### Alphabet (spec/41_freq_table.md R112) -/

theorem allSyms_nodup : allSyms.Nodup := by
  refine List.pairwise_map.mpr (List.Pairwise.imp_of_mem ?_ List.nodup_range)
  intro a b ha hb hne h
  have hab := congrArg BitVec.toNat h
  rw [BitVec.toNat_ofNat, BitVec.toNat_ofNat, Nat.mod_eq_of_lt (List.mem_range.mp ha),
    Nat.mod_eq_of_lt (List.mem_range.mp hb)] at hab
  exact hne hab

theorem allSyms_length : allSyms.length = 256 := by rw [allSyms, List.length_map, List.length_range]

theorem alphabet_nodup (s : State) : s.alphabet.Nodup := List.Pairwise.filter _ allSyms_nodup

theorem alphabet_length_le (s : State) : s.alphabet.length ≤ 256 := allSyms_length ▸ List.length_filter_le _ _

theorem mem_allSyms (x : Sym) : x ∈ allSyms :=
  List.mem_map.mpr ⟨x.toNat, List.mem_range.mpr x.isLt, by simp⟩

@[simp] theorem mem_alphabet (s : State) (x : Sym) : x ∈ s.alphabet ↔ s.freqAt x ≠ 0 := by
  simp [State.alphabet, mem_allSyms]

/-! ### Shape of a tree -/

/-- R128: a tree with L leaves has 2L − 1 nodes. -/
theorem Tree.size_add_one (T : Tree) : T.size + 1 = 2 * T.syms.length := by
  induction T with
  | leaf x w => rfl
  | node l r hl hr => simp only [Tree.size, Tree.syms, List.length_append]; omega

theorem Tree.syms_length_pos (T : Tree) : 0 < T.syms.length := by
  have := T.size_add_one; omega

/-- R128: with L leaves the deepest one is at depth L − 1 or above. -/
theorem Tree.depth_lt_syms_length (T : Tree) : T.depth < T.syms.length := by
  induction T with
  | leaf x w => exact Nat.one_pos
  | node l r hl hr =>
    have := l.syms_length_pos
    have := r.syms_length_pos
    simp only [Tree.depth, Tree.syms, List.length_append]; omega

theorem Tree.isLeaf_iff (T : Tree) : T.isLeaf = true ↔ T.syms.length = 1 := by
  cases T with
  | leaf x w => simp [Tree.isLeaf, Tree.syms]
  | node l r =>
    have := l.syms_length_pos
    have := r.syms_length_pos
    simp only [Tree.isLeaf, Tree.syms, List.length_append, Bool.false_eq_true, false_iff]; omega

/-- The paths name the leaves, left to right. -/
theorem Tree.paths_map_fst (T : Tree) (p : Bits) : (T.paths p).map Prod.fst = T.syms := by
  induction T generalizing p with
  | leaf x w => rfl
  | node l r hl hr => simp [Tree.paths, Tree.syms, hl, hr]

theorem Tree.length_of_mem_paths (T : Tree) (p : Bits) (y : Sym × Bits) (h : y ∈ T.paths p) :
    y.2.length ≤ p.length + T.depth := by
  induction T generalizing p with
  | leaf x w => simp only [Tree.paths, List.mem_singleton] at h; simp [h]
  | node l r hl hr =>
    simp only [Tree.depth]
    rcases List.mem_append.mp h with h | h
    · have := hl _ h; simp at this; omega
    · have := hr _ h; simp at this; omega

/-! ### Trees in the arena -/

/-- Allocation leaves the trees that are there (R121). -/
theorem Spans.append {nodes : List Node} {T : Tree} {i : NodeIdx} (h : Spans nodes T i) (more : List Node) :
    Spans (nodes ++ more) T i := by
  have old : ∀ {k : Nat} {n : Node}, nodes[k]? = some n → (nodes ++ more)[k]? = some n := fun hk => by
    rw [List.getElem?_append_left (List.getElem?_eq_some_iff.mp hk).1, hk]
  induction T generalizing i with
  | leaf x w => exact old h
  | node l r hl hr =>
    obtain ⟨w, a, b, hn, ha, hb, hw, hla, hrb⟩ := h
    exact ⟨w, a, b, old hn, ha, hb, hw, hl hla, hr hrb⟩

/-- The root of a tree in the arena is allocated, as a leaf entry exactly when the tree is a lone leaf. -/
theorem Spans.entry {nodes : List Node} {T : Tree} {i : NodeIdx} (h : Spans nodes T i) :
    ∃ n, nodes[i.toNat]? = some n ∧ n.isInternal = !T.isLeaf := by
  cases T with
  | leaf x w => exact ⟨_, h, rfl⟩
  | node l r => obtain ⟨w, a, b, hn, -⟩ := h; exact ⟨_, hn, rfl⟩

/-- The children of an internal entry are roots of the subtrees. -/
theorem Spans.children {nodes : List Node} {T : Tree} {i a b : NodeIdx} {w : Weight} (h : Spans nodes T i)
    (hn : nodes[i.toNat]? = some (.internal w a b)) : ∃ l r, Spans nodes l a ∧ Spans nodes r b := by
  cases T with
  | leaf x v => cases hn.symm.trans h
  | node l r =>
    obtain ⟨v, c, d, hc, -, -, -, hl, hr⟩ := h
    cases hn.symm.trans hc
    exact ⟨l, r, hl, hr⟩

/-- Every index on a path down from a tree's root is the root of a subtree. -/
theorem Spans.of_reaches {nodes : List Node} {T : Tree} {i j : NodeIdx} (h : Spans nodes T i) (hr : Reaches nodes i j) :
    ∃ T', Spans nodes T' j := by
  induction hr generalizing T with
  | here i => exact ⟨T, h⟩
  | left i a b j w hn _ ih => obtain ⟨l, r, hl, -⟩ := h.children hn; exact ih hl
  | right i a b j w hn _ ih => obtain ⟨l, r, -, hr⟩ := h.children hn; exact ih hr

/-- A path down goes on to either child of the internal entry it ends at. -/
theorem Reaches.child {nodes : List Node} {i j a b : NodeIdx} {w : Weight} (h : Reaches nodes i j)
    (hn : nodes[j.toNat]? = some (.internal w a b)) (x : Bool) : Reaches nodes i (if x then b else a) := by
  induction h with
  | here i =>
    cases x
    · exact .left i a b a w hn (.here a)
    · exact .right i a b b w hn (.here b)
  | left i c d k v hc _ ih => exact .left i c d _ v hc (ih hn)
  | right i c d k v hc _ ih => exact .right i c d _ v hc (ih hn)

/-- An entry reached from the root of a tree is read as it is stored (R41). -/
theorem Spans.getElem?_of_reaches {s : State} {T : Tree} {i j : NodeIdx} (h : Spans s.nodes T i)
    (hr : Reaches s.nodes i j) : s.nodes[j.toNat]? = some (s.nodeAt j) := by
  obtain ⟨T', hT⟩ := h.of_reaches hr
  obtain ⟨n, hn, -⟩ := hT.entry
  rw [hn, nodeAt_of_getElem? s j n hn]

/-- The entry of a tree's root is a leaf exactly when the tree is one. -/
theorem Spans.nodeAt_isInternal {s : State} {T : Tree} {i : NodeIdx} (h : Spans s.nodes T i) :
    (s.nodeAt i).isInternal = !T.isLeaf := by
  obtain ⟨n, hn, hi⟩ := h.entry
  rw [nodeAt_of_getElem? s i n hn, hi]

end Sys2Proof.Machine
end

section
/-! The register window (spec/10_state.md R22 to R39): what each offset reads as, and accesses while idle. -/

namespace Sys2Proof.Machine

/-- R22: the window shows a register at its offset. -/
theorem windowValue_offset (s : State) (r : Reg) : windowValue s r.offset = regValue s r := by
  simp only [windowValue, (regAt_eq_some_iff r.offset r).mpr rfl]

/-- R39. -/
theorem windowValue_reserved (s : State) (off : Nat) (h : 0x74 ≤ off) : windowValue s off = 0 := by
  simp only [windowValue, regAt_reserved off h]

/-- R61: outside reset an aligned access inside the window is performed. -/
theorem step_access (s : State) (a : HostAccess) (rest : List Event) (hr : s.inReset = false) (hs : a.size = 4)
    (hal : a.off % 4 = 0) (hlt : a.off ≤ 0xFC) (hag : s.agenda = .access a :: rest) :
    step s = .next (performAccess a { s with agenda := rest }) := by
  rw [step_cons s _ rest hag]
  rcases hostAccess_cases a { s with agenda := rest } with ⟨h, -⟩ | ⟨-, h, -⟩ | ⟨-, -, -, h, -⟩ | ⟨-, -, -, -, h⟩
  · cases hr.symm.trans h
  · exact absurd ⟨hs, hal⟩ h
  · omega
  · exact h

/-- R29, R63: an idle read of any register but OUT_DATA only looks. -/
theorem regRead_idle (off : Nat) (s : State) (hp : s.pend = none) (ho : off ≠ 0x1C) :
    regRead off s = note off (windowValue s off) s := by
  rcases regRead_cases off s with ⟨h, -⟩ | ⟨-, h, -⟩ | ⟨-, -, h⟩
  · exact absurd hp h
  · exact absurd h ho
  · exact h

/-- R29: an idle read of OUT_DATA pops. -/
theorem regRead_outData (s : State) (hp : s.pend = none) :
    regRead 0x1C s = note 0x1C (outDataWord s) (popOut s) := by
  rcases regRead_cases 0x1C s with ⟨h, -⟩ | ⟨-, -, h⟩ | ⟨-, h, -⟩
  · exact absurd hp h
  · exact h.trans (congrArg (note 0x1C · (popOut s)) (windowValue_offset s .outData))
  · exact absurd rfl h

/-- Leading zeros do not change the number. -/
theorem toNat_zero_append {m k : Nat} (x : BitVec m) : (0#k ++ x).toNat = x.toNat := by
  simp [BitVec.toNat_append]

/-- R29: VALID and the head byte as a number. -/
theorem outDataWord_cons (s : State) (b : Byte) (bs : List Byte) (h : s.out = b :: bs) :
    outDataWord s = BitVec.ofNat 32 (2 ^ 8 + b.toNat) := by
  have hw : outDataWord s = 1#24 ++ b := by simp [outDataWord, h]
  have hor : (1#24).toNat <<< 8 ||| b.toNat = 2 ^ 8 + b.toNat := (Nat.shiftLeft_add_eq_or_of_lt b.isLt 1).symm
  apply BitVec.eq_of_toNat_eq
  have hlt := b.isLt
  rw [hw, BitVec.toNat_append, hor, BitVec.toNat_ofNat, Nat.mod_eq_of_lt (by omega)]

/-- Settles O52: an idle read notes the window's value, and at OUT_DATA the head byte leaves. -/
theorem readsWhileIdle : Obligations.ReadsWhileIdle := by
  intro s off rest hr hp hal hlt hag r
  have hstep : step s = .next (regRead off r) := step_access s (.read 4 off) rest hr rfl hal hlt hag
  refine ⟨fun ho => ?_, fun ho hout => ?_, fun b bs ho hout => ?_⟩
  · rw [hstep, regRead_idle off r hp ho]; rfl
  · subst ho
    rw [hstep, regRead_outData r hp]
    simp [note, popOut, outDataWord, r, hout]
  · subst ho
    rw [hstep, regRead_outData r hp, outDataWord_cons r b bs hout]
    simp [note, popOut, r, hout]

/-- Settles O55: no register stands at a reserved offset. -/
theorem reservedOffsets : Obligations.ReservedOffsets := by
  intro s off v rest hr hal hlo hhi
  refine ⟨fun hp hag => ?_, fun hag => ?_⟩
  · rw [step_access s (.read 4 off) rest hr rfl hal hhi hag]
    have hread := regRead_idle off { s with agenda := rest } hp (by omega)
    rw [windowValue_reserved _ off hlo] at hread
    exact congrArg _ hread
  · rw [step_access s (.write 4 off v) rest hr rfl hal hhi hag]
    simp only [performAccess, regWrite, regAt_reserved off hlo]

theorem ofBool_beq_one (b : Bool) : (BitVec.ofBool b == 1#1) = b := by cases b <;> rfl

/-- R24: STATUS's parts, each at its place. -/
theorem statusWord_slices (s : State) :
    let w : BitVec (17 + 1 + 1 + 1 + 2 + 1 + 1 + 1 + 4 + 2 + 1) := statusWord s
    w.getLsbD 0 = s.busy ∧ w.extractLsb' 1 2 = s.phase.code ∧ w.extractLsb' 3 4 = s.err.code ∧
    w.getLsbD 7 = s.ovr ∧ w.getLsbD 8 = s.rej ∧ w.getLsbD 9 = s.partialFlag ∧ w.extractLsb' 10 2 = s.stream.code ∧
    w.getLsbD 12 = s.closed ∧ w.getLsbD 13 = s.single ∧ w.getLsbD 14 = s.limhit ∧ w.extractLsb' 15 17 = 0 := by
  intro w
  simp (disch := omega) only [w, statusWord, BitVec.getLsbD_eq_extractLsb', BitVec.extractLsb'_append_eq_of_le,
    BitVec.extractLsb'_append_eq_of_add_le, Nat.reduceSub]
  simp [ofBool_beq_one]

/-- Settles O56: STATUS's slices with each coding written out. -/
theorem statusFields : Obligations.StatusFields := by
  intro s w
  have hw : w = statusWord s := windowValue_offset s .status
  obtain ⟨hbusy, hphase, herr, hovr, hrej, hpartial, hstream, hrest⟩ := statusWord_slices s
  rw [hw]
  exact ⟨hbusy, hphase.trans (by cases s.phase <;> rfl), herr.trans (by cases s.err <;> rfl), hovr, hrej, hpartial,
    hstream.trans (by cases s.stream <;> rfl), hrest⟩

/-- R67: the two halves of a 64-bit value, HI above LO. -/
theorem halves_append (v : BitVec 64) : v.extractLsb' 32 32 ++ v.extractLsb' 0 32 = v :=
  BitVec.extractLsb'_append_extractLsb' (w := 32) (len := 32)

/-- Settles O57: each offset shows its register, and the halves of a 64-bit value join to it. -/
theorem registerViews : Obligations.RegisterViews := by
  intro s hn ho
  have view := windowValue_offset s
  refine ⟨?_, ?_, ?_, ?_, ?_, ?_, ?_, ?_, ?_, ?_, ?_, fun k => view (.codeW k), view .nodeInfo,
    view .nodeW0, view .nodeW1, ?_⟩
  · rw [show windowValue s 0x14 = _ from view .nodeCount, regValue, toNat_zero_append, BitVec.toNat_ofNat,
      Nat.mod_eq_of_lt (by omega)]
  · rw [show windowValue s 0x18 = _ from view .root, regValue, toNat_zero_append]
  · rw [show windowValue s 0x20 = _ from view .outCount, regValue, toNat_zero_append, BitVec.toNat_ofNat,
      Nat.mod_eq_of_lt (by omega)]
  · rw [show windowValue s 0x70 = _ from view .unpackPtr, regValue, toNat_zero_append]
  · rw [show windowValue s 0x00 = _ from view .cmd, regValue]; rfl
  · rw [show windowValue s 0x08 = _ from view .ctrl, regValue, toNat_zero_append, BitVec.toNat_ofBool]
  · rw [show windowValue s 0x10 = _ from view .freqHi, show windowValue s 0x0C = _ from view .freqLo]; rfl
  · rw [show windowValue s 0x28 = _ from view .packBitsHi, show windowValue s 0x24 = _ from view .packBitsLo]
    exact halves_append s.packBits
  · rw [show windowValue s 0x30 = _ from view .unpackBitsHi, show windowValue s 0x2C = _ from view .unpackBitsLo]
    exact halves_append s.unpackBits
  · rw [show windowValue s 0x38 = _ from view .limitHi, show windowValue s 0x34 = _ from view .limitLo]
    exact halves_append s.limit
  · rw [show windowValue s 0x3C = _ from view .codeLen, regValue, toNat_zero_append]
  · rw [show windowValue s 0x6C = _ from view .nodeW2, regValue, toNat_zero_append]

end Sys2Proof.Machine
end

section
/-! The invariant (spec/10_state.md R53) and reset (R51): which fields the invariant ties together, and that every field has
its reset value after either reset. -/

namespace Sys2Proof.Machine

/-- The state with every field at a fixed value that no clause of the invariant reads, beside the pending command and the
reset input, which have their own clauses. -/
def State.tied (s : State) : State :=
  { s with ovr := false, rej := false, partialFlag := false, limhit := false, pend := none, limitEn := false,
           freqLo := 0, freqHi := 0, limit := 0, codeLen := 0, codeW := State.reset.codeW, nodeInfo := 0, nodeW0 := 0,
           nodeW1 := 0, nodeW2 := 0, inReset := false, agenda := [], seen := [], draws := 0 }

/-- The clause of the invariant on the pending command (R48, R100). -/
def PendingFits (s : State) : Prop :=
  ∀ p, s.pend = some p →
    legal p.cmd s.phase s.stream s.closed = true ∧ snapFits p = true ∧ hasRoom p.cmd s = true ∧ s.rej = false

/-- The clause of the invariant on the reset input (spec/70_reset_and_hazards.md R240). -/
def ResetHolds (s : State) : Prop := s.inReset = true → s = resetBlock s

/-- The invariant is a property of the tied fields, the pending command and the reset input. -/
theorem inv_iff_tied (s : State) : Inv s ↔ Inv s.tied ∧ PendingFits s ∧ ResetHolds s := by
  constructor
  · intro h
    exact ⟨{ h with pending := nofun, reset := nofun, tree := fun ht => (h.tree ht).imp fun _ hT => { hT with } },
      h.pending, h.reset⟩
  · rintro ⟨h, hp, hr⟩
    exact { h with pending := hp, reset := hr, tree := fun ht => (h.tree ht).imp fun _ hT => { hT with } }

/-- Updates outside the tied fields keep the invariant. -/
theorem Inv.of_tied {s t : State} (h : Inv s) (he : t.tied = s.tied) (hp : PendingFits t) (hr : ResetHolds t) : Inv t :=
  (inv_iff_tied t).mpr ⟨he ▸ ((inv_iff_tied s).mp h).1, hp, hr⟩

theorem pendingFits_none {s : State} (h : s.pend = none) : PendingFits s := fun p hp => by cases h.symm.trans hp

theorem resetHolds_released {s : State} (h : s.inReset = false) : ResetHolds s := fun hr => by cases h.symm.trans hr

/-- Settles O44: every clause is about a field's reset value. -/
theorem resetSatisfiesInv : Obligations.ResetSatisfiesInv where
  err := by decide
  queues := ⟨rfl, rfl⟩
  out := Nat.zero_le _
  pending := pendingFits_none rfl
  pacc := rfl
  load _ := ⟨rfl, rfl, rfl, rfl, rfl⟩
  noCode _ := codeAt_reset
  tree h := by rcases h with h | h <;> cases h
  codes := nofun
  codeLen x := by simp
  streamNone _ := ⟨rfl, rfl, rfl, rfl⟩
  streamPack := nofun
  streamUnpack := nofun
  uptr := ⟨.here _, .inl rfl⟩
  reset := resetHolds_released rfl

/-- R51, R240: the block has its reset values, whatever the host does and the reset input is. -/
theorem inv_resetBlock (s : State) : Inv (resetBlock s) :=
  resetSatisfiesInv.of_tied rfl (pendingFits_none rfl) fun _ => rfl

/-- Settles O59: both resets end in `resetBlock`, up to the level of the reset input. -/
theorem resetValues : Obligations.ResetValues := by
  intro s t h
  have ht : ∃ r b, t = { resetBlock r with inReset := b } := by
    rcases h with h | ⟨rest, hag, h⟩
    · exact ⟨s, s.inReset, (Host.Outcome.next.inj h).symm⟩
    · rw [step_cons s _ rest hag] at h
      exact ⟨_, true, (Host.Outcome.next.inj h).symm⟩
  obtain ⟨r, b, rfl⟩ := ht
  refine ⟨rfl, rfl, rfl, rfl, rfl, rfl, rfl, rfl, rfl, rfl, rfl, rfl, rfl, rfl, freqAt_reset, rfl, rfl, rfl, codeAt_reset,
    rfl, rfl, rfl, rfl, rfl, rfl, fun k => ?_, rfl, rfl, rfl, rfl, rfl⟩
  simp [State.reset]

end Sys2Proof.Machine
end

section
/-! BUILD (spec/42_tree_builder.md R126): the queue and the arena follow the reference construction step by step. The
invariant `Forest` says what seeding and merging keep. -/

namespace Sys2Proof.Machine

/-! ### The priority queue against the reference queue (R122, R123) -/

/-- The queue entry of a waiting tree. -/
def Root.entry (r : Root) : PQEntry := ⟨BitVec.ofNat 72 r.w, BitVec.ofNat 9 r.i⟩

/-- The weight and the index fit the entry's fields. -/
def Root.Fits (r : Root) : Prop := r.w < 2 ^ 72 ∧ r.i < 2 ^ 9

theorem Root.insert_perm (e : Root) (q : List Root) : (Root.insert e q).Perm (e :: q) := by
  induction q with
  | nil => exact .refl _
  | cons x xs ih =>
    rw [Root.insert]
    split
    · exact .refl _
    · exact (ih.cons x).trans (.swap e x xs)

theorem Root.insert_length (e : Root) (q : List Root) : (Root.insert e q).length = q.length + 1 :=
  (Root.insert_perm e q).length_eq

theorem Root.Fits.entry_toNat {r : Root} (h : r.Fits) : r.entry.w.toNat = r.w ∧ r.entry.i.toNat = r.i :=
  ⟨Nat.mod_eq_of_lt h.1, Nat.mod_eq_of_lt h.2⟩

/-- R122: the key order compares unsigned numbers, the weight first. -/
theorem PQEntry.lt_iff (a b : PQEntry) :
    a.lt b = true ↔ a.w.toNat < b.w.toNat ∨ (a.w.toNat = b.w.toNat ∧ a.i.toNat < b.i.toNat) := by
  simp [PQEntry.lt, BitVec.lt_def, BitVec.toNat_inj]

/-- Inserting an entry is the reference insertion. -/
theorem pqInsert_entry (e : Root) (q : List Root) (he : e.Fits) (hq : ∀ r ∈ q, r.Fits) :
    pqInsert e.entry (q.map Root.entry) = (Root.insert e q).map Root.entry := by
  induction q with
  | nil => rfl
  | cons x xs ih =>
    obtain ⟨hx, hxs⟩ := List.forall_mem_cons.mp hq
    simp only [List.map_cons, pqInsert, Root.insert, PQEntry.lt_iff, he.entry_toNat, hx.entry_toNat]
    split
    · rfl
    · rw [ih hxs, List.map_cons]

/-- Merging enough times leaves one tree. -/
theorem mergeRoots_singleton (k n : Nat) (q : List Root) (hk : q.length ≤ k + 1) (hq : q ≠ []) :
    ∃ r, mergeRoots k n q = [r] := by
  induction k generalizing n q with
  | zero => exact List.length_eq_one_iff.mp (Nat.le_antisymm hk (List.length_pos_iff.mpr hq))
  | succ k ih =>
    match q, hq with
    | [r], _ => exact ⟨r, rfl⟩
    | a :: b :: q, _ =>
      have hl := Root.insert_length ⟨a.w + b.w, n, .node a.tree b.tree⟩ q
      rw [mergeRoots]
      exact ih (n + 1) _ (by simp at hk; omega) (List.ne_nil_of_length_pos (by omega))

/-! ### The trees BUILD makes -/

/-- The leaf of a symbol (R126). -/
def leafOf (f : Sym → Freq) (x : Sym) : Node := .leaf x ((f x).setWidth 72)

/-- The arena holds the leaves of the symbols `xs` and the nodes of some merges, and nothing else: each waiting tree of `q`
stands in it, together they have the leaves of `xs`, and the youngest entry is the root of one of them. -/
structure Forest (f : Sym → Freq) (nodes : List Node) (xs : List Sym) (q : List Root) : Prop where
  arena : ∃ ms, nodes = xs.map (leafOf f) ++ ms ∧ ∀ n ∈ ms, n.isInternal = true
  spans : ∀ r ∈ q, r.i < nodes.length ∧ Spans nodes r.tree r.entry.i ∧ r.w = r.tree.total
  weight : (q.map Root.w).sum = (xs.map fun x => (f x).toNat).sum
  syms : (q.flatMap fun r => r.tree.syms).Perm xs
  size : (q.map fun r => r.tree.size).sum = nodes.length
  last : q ≠ [] → ∃ r ∈ q, r.i + 1 = nodes.length

section
variable {f : Sym → Freq} {nodes : List Node} {xs : List Sym} {q : List Root}

theorem Forest.perm {q' : List Root} (h : Forest f nodes xs q) (hq : q'.Perm q) : Forest f nodes xs q' where
  arena := h.arena
  spans r hr := h.spans r (hq.mem_iff.mp hr)
  weight := (hq.map _).sum_nat.trans h.weight
  syms := (hq.flatMap_right _).trans h.syms
  size := (hq.map _).sum_nat.trans h.size
  last hne := (h.last (fun he => hne (he ▸ hq).eq_nil)).imp fun _ hr => ⟨hq.mem_iff.mpr hr.1, hr.2⟩

/-- L trees' worth of leaves and the trees that wait: the entries are 2L less the trees (R128). -/
theorem sum_size_add_length (q : List Root) :
    (q.map fun r => r.tree.size).sum + q.length = 2 * (q.flatMap fun r => r.tree.syms).length := by
  induction q with
  | nil => rfl
  | cons r q ih =>
    have := r.tree.size_add_one
    simp only [List.map_cons, List.sum_cons, List.length_cons, List.flatMap_cons, List.length_append]
    omega

theorem Forest.count (h : Forest f nodes xs q) : nodes.length + q.length = 2 * xs.length := by
  rw [← h.size, ← h.syms.length_eq, sum_size_add_length]

theorem sum_freq_le (f : Sym → Freq) (xs : List Sym) :
    (xs.map fun x => (f x).toNat).sum ≤ (2 ^ 64 - 1) * xs.length := by
  induction xs with
  | nil => exact Nat.zero_le _
  | cons x xs ih =>
    have hx := (f x).isLt
    rw [List.map_cons, List.sum_cons, List.length_cons]
    omega

/-- 256 frequencies of 64 bits sum to less than 2^72 (spec/00_scope.md R7). -/
theorem sum_freq_lt (f : Sym → Freq) (xs : List Sym) (hx : xs.length ≤ 256) :
    (xs.map fun x => (f x).toNat).sum < 2 ^ 72 := by
  have := sum_freq_le f xs
  omega

theorem weight_le_sum {r : Root} {q : List Root} (hr : r ∈ q) : r.w ≤ (q.map Root.w).sum := by
  obtain ⟨p, t, rfl⟩ := List.append_of_mem hr
  rw [List.map_append, List.sum_append, List.map_cons, List.sum_cons]
  omega

theorem Forest.fits (h : Forest f nodes xs q) (hx : xs.length ≤ 256) : ∀ r ∈ q, r.Fits := by
  intro r hr
  obtain ⟨hi, -, -⟩ := h.spans r hr
  have hpos := List.length_pos_of_mem hr
  have hw := weight_le_sum hr
  have := sum_freq_lt f xs hx
  have := h.count
  rw [h.weight] at hw
  exact ⟨by omega, by omega⟩

/-- A tree that waits still stands in the arena after an allocation. -/
theorem Forest.spans_append (h : Forest f nodes xs q) (n : Node) (r : Root) (hr : r ∈ q) :
    r.i < (nodes ++ [n]).length ∧ Spans (nodes ++ [n]) r.tree r.entry.i ∧ r.w = r.tree.total := by
  obtain ⟨hi, hs, hw⟩ := h.spans r hr
  exact ⟨by simp; omega, hs.append [n], hw⟩

/-- An arena that has not reached its end has its next entry at index NODE_COUNT. -/
theorem getElem?_next (nodes : List Node) (n : Node) (h : nodes.length < 2 ^ 9) :
    (nodes ++ [n])[(BitVec.ofNat 9 nodes.length).toNat]? = some n := by
  rw [BitVec.toNat_ofNat, Nat.mod_eq_of_lt h, List.getElem?_concat_length]

/-- Seeding one more leaf, while nothing is merged yet. -/
theorem Forest.leaf (h : Forest f nodes xs q) (hn : nodes = xs.map (leafOf f)) (hx : xs.length < 256) (x : Sym) :
    Forest f (nodes ++ [leafOf f x]) (xs ++ [x]) (⟨(f x).toNat, nodes.length, .leaf x ((f x).setWidth 72)⟩ :: q) where
  arena := ⟨[], by simp [hn], nofun⟩
  spans := by
    refine List.forall_mem_cons.mpr ⟨⟨by simp, getElem?_next nodes _ ?_, ?_⟩, h.spans_append _⟩
    · rw [hn, List.length_map]; omega
    · have := (f x).isLt
      simp only [Tree.total, BitVec.toNat_setWidth]
      omega
  weight := by simp [h.weight, Nat.add_comm]
  syms := by simpa [Tree.syms] using (h.syms.cons x).trans (List.perm_append_singleton x xs).symm
  size := by simp [h.size, Tree.size, Nat.add_comm]
  last _ := ⟨_, List.mem_cons_self, by simp⟩

/-- Merging two of the trees that wait. -/
theorem Forest.merge {a b : Root} (h : Forest f nodes xs (a :: b :: q)) (hx : xs.length ≤ 256) :
    Forest f (nodes ++ [.internal (a.entry.w + b.entry.w) a.entry.i b.entry.i]) xs
      (⟨a.w + b.w, nodes.length, .node a.tree b.tree⟩ :: q) := by
  have hcount := h.count
  simp only [List.length_cons] at hcount
  have hnext : (BitVec.ofNat 9 nodes.length).toNat = nodes.length := Nat.mod_eq_of_lt (by omega)
  have ha : a ∈ a :: b :: q := List.mem_cons_self
  have hb : b ∈ a :: b :: q := List.mem_cons_of_mem _ List.mem_cons_self
  have hsum := h.weight
  have hlt := sum_freq_lt f xs hx
  obtain ⟨hwa, hia⟩ := (h.fits hx a ha).entry_toNat
  obtain ⟨hwb, hib⟩ := (h.fits hx b hb).entry_toNat
  obtain ⟨hia', hsa, hta⟩ := h.spans a ha
  obtain ⟨hib', hsb, htb⟩ := h.spans b hb
  simp only [List.map_cons, List.sum_cons] at hsum
  obtain ⟨ms, hms, hint⟩ := h.arena
  refine ⟨⟨ms ++ [.internal (a.entry.w + b.entry.w) a.entry.i b.entry.i], by simp [hms], ?_⟩, ?_, ?_, ?_, ?_, ?_⟩
  · simpa [or_imp, forall_and] using ⟨hint, rfl⟩
  · refine List.forall_mem_cons.mpr ⟨⟨by simp, ⟨_, _, _, getElem?_next nodes _ (by omega), ?_, ?_, ?_, hsa.append _,
      hsb.append _⟩, ?_⟩, fun r hr => h.spans_append _ r (List.mem_cons_of_mem _ (List.mem_cons_of_mem _ hr))⟩
    · rw [hia]; exact hnext.symm ▸ hia'
    · rw [hib]; exact hnext.symm ▸ hib'
    · rw [BitVec.toNat_add, hwa, hwb, hta, htb]; exact Nat.mod_eq_of_lt (by omega)
    · simp [Tree.total, hta, htb]
  · simp [← h.weight, Nat.add_assoc]
  · simpa [Tree.syms] using h.syms
  · have := h.size
    simp only [List.map_cons, List.sum_cons, Tree.size, List.length_append, List.length_cons, List.length_nil] at this ⊢
    omega
  · exact fun _ => ⟨_, List.mem_cons_self, by simp⟩

end

/-! ### BUILD's loops -/

/-- BUILD from `s₀` is at `s`: only the arena and the queue have changed, and they hold the forest of `q`. -/
structure Building (s₀ s : State) (xs : List Sym) (q : List Root) : Prop where
  frame : s = { s₀ with nodes := s.nodes, pq := s.pq }
  queue : s.pq = q.map Root.entry
  forest : Forest s₀.freqAt s.nodes xs q

/-- Allocating a node and inserting its tree: the queue takes the tree's root. -/
theorem Building.enqueue {s₀ s : State} {xs : List Sym} {q : List Root} {n : Node} {r : Root}
    (hf : s = { s₀ with nodes := s.nodes, pq := s.pq }) (hq : s.pq = q.map Root.entry) (hx : xs.length ≤ 256)
    (hn : n.weight = r.entry.w) (hi : r.i = s.nodes.length)
    (h : Forest s₀.freqAt (s.nodes ++ [n]) xs (r :: q)) : Building s₀ (enqueueNode n s) xs (Root.insert r q) := by
  obtain ⟨hr, hfits⟩ := List.forall_mem_cons.mp (h.fits hx)
  have hpq : (enqueueNode n s).pq = (Root.insert r q).map Root.entry := by
    rw [← pqInsert_entry r q hr hfits, ← hq, enqueueNode_pq, hn, State.nextIdx, ← hi]; rfl
  exact ⟨by rw [hf]; rfl, hpq, h.perm (Root.insert_perm r q)⟩

/-- Seeding, symbol by symbol. -/
theorem Building.seed {s₀ s : State} {done : List Sym} {q : List Root} (rest : List Sym) (h : Building s₀ s done q)
    (hn : s.nodes = done.map (leafOf s₀.freqAt)) (hx : (done ++ rest).length ≤ 256) :
    Building s₀ (rest.foldl (fun t x => enqueueNode (leafOf s₀.freqAt x) t) s) (done ++ rest)
      ((rest.zipIdx done.length).foldl (fun q p =>
        Root.insert ⟨(s₀.freqAt p.1).toNat, p.2, .leaf p.1 ((s₀.freqAt p.1).setWidth 72)⟩ q) q) ∧
    (rest.foldl (fun t x => enqueueNode (leafOf s₀.freqAt x) t) s).nodes = (done ++ rest).map (leafOf s₀.freqAt) := by
  induction rest generalizing s done q with
  | nil => exact ⟨by simpa using h, by simpa using hn⟩
  | cons x rest ih =>
    have hlen : s.nodes.length = done.length := by rw [hn, List.length_map]
    rw [List.length_append, List.length_cons] at hx
    have hleaf := h.forest.leaf hn (by omega) x
    rw [hlen] at hleaf
    have hweight : (leafOf s₀.freqAt x).weight = BitVec.ofNat 72 (s₀.freqAt x).toNat := by simp [leafOf, Node.weight]
    have hstep := Building.enqueue h.frame h.queue (by simp; omega) hweight hlen.symm hleaf
    have := ih hstep (by simp [hn]) (by simp; omega)
    simpa using this

/-- One pass of the merge loop (R126). -/
theorem Building.mergeTwo {s₀ s : State} {xs : List Sym} {a b : Root} {q : List Root}
    (h : Building s₀ s xs (a :: b :: q)) (hx : xs.length ≤ 256) :
    ∃ t, mergeTwo s = some t ∧ t.nodes.length = s.nodes.length + 1 ∧
      Building s₀ t xs (Root.insert ⟨a.w + b.w, s.nodes.length, .node a.tree b.tree⟩ q) := by
  have hpq := h.queue
  refine ⟨enqueueNode (.internal (a.entry.w + b.entry.w) a.entry.i b.entry.i) { s with pq := q.map Root.entry },
    by simp only [Machine.mergeTwo, extractMin, hpq, List.map_cons], by simp, ?_⟩
  refine Building.enqueue (s := { s with pq := q.map Root.entry }) (by rw [h.frame]) rfl hx ?_ rfl (h.forest.merge hx)
  simp [Node.weight, Root.entry, BitVec.ofNat_add]

/-- The merge loop is the reference one. -/
theorem Building.mergeAll {s₀ s : State} {xs : List Sym} {q : List Root} (k : Nat) (h : Building s₀ s xs q)
    (hx : xs.length ≤ 256) :
    ∃ t, mergeAll k s = some t ∧ Building s₀ t xs (mergeRoots k s.nodes.length q) := by
  induction k generalizing s q with
  | zero => exact ⟨s, rfl, h⟩
  | succ k ih =>
    have hlen : s.pq.length = q.length := by rw [h.queue, List.length_map]
    match q, h with
    | [], h => exact ⟨s, by simp [Machine.mergeAll, hlen], h⟩
    | [r], h => exact ⟨s, by simp [Machine.mergeAll, hlen], h⟩
    | a :: b :: q, h =>
      obtain ⟨t, ht, hn, hb⟩ := h.mergeTwo hx
      obtain ⟨u, hu, hbu⟩ := ih hb
      rw [hn] at hbu
      exact ⟨u, by simp [Machine.mergeAll, hlen, ht, hu], hbu⟩

/-- Seeding folds over the present symbols (R126). -/
theorem seed_range (g : Nat → Freq) (m k : Nat) (s : State) :
    seed ((List.range' k m).map g) k s =
      ((List.range' k m).filter fun i => g i != 0).foldl
        (fun t i => enqueueNode (.leaf (BitVec.ofNat 8 i) ((g i).setWidth 72)) t) s := by
  induction m generalizing k s with
  | zero => rfl
  | succ m ih =>
    rw [List.range'_succ, List.map_cons, seed, ih, List.filter_cons]
    by_cases h : g k = 0
    · simp [h]
    · rw [if_neg h, if_pos (by simpa using h)]; rfl

theorem freq_toList (s : State) : s.freq.toList = (List.range' 0 256).map fun i => s.freqAt (BitVec.ofNat 8 i) :=
  List.ext_getElem (by simp) fun i h₁ h₂ => by
    have hi : i < 256 := by simpa using h₁
    simp [State.freqAt, Nat.mod_eq_of_lt hi]

/-- BUILD seeds the leaves of the alphabet, in ascending symbol order. -/
theorem seed_eq_foldl (s t : State) :
    seed s.freq.toList 0 t = s.alphabet.foldl (fun t x => enqueueNode (leafOf s.freqAt x) t) t := by
  rw [freq_toList, seed_range, State.alphabet, allSyms, List.filter_map, List.foldl_map, List.range_eq_range']
  rfl

/-- After seeding the arena holds the leaves, and the queue is the reference one. -/
theorem building_seeded (s : State) (h : LoadReady s) :
    Building s (seed s.freq.toList 0 s) s.alphabet (leafRoots s) ∧
      (seed s.freq.toList 0 s).nodes = s.alphabet.map (leafOf s.freqAt) := by
  obtain ⟨-, hn, hq⟩ := h
  have hstart : Building s s [] [] := ⟨rfl, hq, ⟨[], hn, nofun⟩, nofun, rfl, .refl _, by simp [hn], nofun⟩
  rw [seed_eq_foldl]
  exact hstart.seed s.alphabet hn (alphabet_length_le s)

/-- The end of BUILD on the one tree left (R126). -/
theorem Building.finishBuild {s₀ s : State} {xs : List Sym} {r : Root} (h : Building s₀ s xs [r]) :
    finishBuild s = some { s₀ with nodes := s.nodes, pq := [], root := r.entry.i, uptr := r.entry.i,
                                   single := r.tree.isLeaf, phase := .tree } := by
  obtain ⟨-, hs, -⟩ := h.forest.spans r (List.mem_singleton_self r)
  have hsingle : (!(({ s with pq := [] } : State).nodeAt r.entry.i).isInternal) = r.tree.isLeaf := by
    rw [Spans.nodeAt_isInternal (s := { s with pq := [] }) hs, Bool.not_not]
  simp only [Machine.finishBuild, peekMin, extractMin, h.queue, List.map_cons, List.map_nil, List.head?_cons, hsingle]
  rw [h.frame]

/-- BUILD makes the reference tree (R126, R128): nothing changes but the arena, ROOT, UPTR, SINGLE and PHASE. -/
theorem execBuild_eq (s : State) (h : LoadReady s) (ha : s.alphabet ≠ []) :
    ∃ (r : Root) (nodes : List Node), huffman s = some r.tree ∧ Forest s.freqAt nodes s.alphabet [r] ∧
      execBuild s = .next { s with nodes := nodes, root := r.entry.i, uptr := r.entry.i, single := r.tree.isLeaf,
                                   phase := .tree } := by
  obtain ⟨hseed, hn⟩ := building_seeded s h
  have hcount := hseed.forest.count
  have hnodes := congrArg List.length hn
  have hpq := congrArg List.length hseed.queue
  rw [List.length_map] at hnodes hpq
  have hpos := List.length_pos_iff.mpr ha
  have hL : (leafRoots s).length = s.alphabet.length := by omega
  obtain ⟨m, hm, hb⟩ := hseed.mergeAll (leafRoots s).length (alphabet_length_le s)
  rw [hnodes, hL] at hb
  obtain ⟨r, hr⟩ := mergeRoots_singleton s.alphabet.length s.alphabet.length (leafRoots s) (by omega)
    (List.ne_nil_of_length_pos (by omega))
  rw [hr] at hb
  refine ⟨r, m.nodes, by simp [huffman, hr], hb.forest, ?_⟩
  simp only [execBuild, hpq, hm, hb.finishBuild]
  rw [if_neg (by omega), ← h.2.2]

/-- BUILD of an empty alphabet raises EmptyAlphabet (R126, R212). -/
theorem execBuild_empty (s : State) (h : LoadReady s) (ha : s.alphabet = []) :
    execBuild s = .next (raise .emptyAlphabet s) := by
  have hseed : seed s.freq.toList 0 s = s := by rw [seed_eq_foldl, ha]; rfl
  simp [execBuild, hseed, h.2.2]

/-- The forest of one tree, with the fields BUILD sets, is a built tree (R53). -/
theorem Forest.builtTree {s t : State} {r : Root} {nodes : List Node} (h : Forest s.freqAt nodes s.alphabet [r])
    (ha : s.alphabet ≠ [])
    (ht : t = { s with nodes := nodes, root := r.entry.i, uptr := r.entry.i, single := r.tree.isLeaf, phase := .tree }) :
    BuiltTree t r.tree := by
  subst ht
  have hcount := h.count
  obtain ⟨hi, hs, -⟩ := h.spans r (List.mem_singleton_self r)
  have hfits := h.fits (alphabet_length_le s) r (List.mem_singleton_self r)
  have hlast : r.i + 1 = nodes.length := by simpa using h.last nofun
  have hsyms : r.tree.syms.Perm s.alphabet := by simpa using h.syms
  refine ⟨hs, ha, ?_, ?_, by simpa using h.size, hsyms, ?_, ?_⟩
  · exact Nat.eq_sub_of_add_eq hcount
  · exact hfits.entry_toNat.2.trans (Nat.eq_sub_of_add_eq hlast)
  · intro k x w hk
    obtain ⟨ms, hms, hint⟩ := h.arena
    have hmem := List.mem_of_getElem? hk
    rw [hms, List.mem_append, List.mem_map] at hmem
    rcases hmem with ⟨y, -, hy⟩ | hmem
    · cases hy; rfl
    · cases hint _ hmem
  · exact (Tree.isLeaf_iff r.tree).trans (by rw [hsyms.length_eq]; rfl)

end Sys2Proof.Machine
end

section
/-! DERIVE (spec/43_code_deriver.md R150): the walk of a tree records each leaf's code, and leaves every other field. -/

namespace Sys2Proof.Machine

/-- The state after recording a list of paths, in order. -/
def recordPaths (ps : List (Sym × Bits)) (s : State) : State :=
  ps.foldl (fun t y => t.setCode y.1 (leafCode y.2)) s

theorem recordPaths_append (ps qs : List (Sym × Bits)) (s : State) :
    recordPaths (ps ++ qs) s = recordPaths qs (recordPaths ps s) := List.foldl_append

/-- Recording writes CODE alone. -/
theorem recordPaths_frame (ps : List (Sym × Bits)) (s : State) :
    recordPaths ps s = { s with code := (recordPaths ps s).code } := by
  induction ps generalizing s with
  | nil => rfl
  | cons y ps ih => exact ih (s.setCode y.1 (leafCode y.2))

theorem codeAt_recordPaths_of_not_mem (ps : List (Sym × Bits)) (s : State) (x : Sym) (h : x ∉ ps.map Prod.fst) :
    (recordPaths ps s).codeAt x = s.codeAt x := by
  induction ps generalizing s with
  | nil => rfl
  | cons y ps ih =>
    simp only [List.map_cons, List.mem_cons, not_or] at h
    exact (ih (s.setCode y.1 (leafCode y.2)) h.2).trans (by simp [h.1])

/-- Where no symbol has two paths, each gets its own. -/
theorem codeAt_recordPaths_of_mem (ps : List (Sym × Bits)) (s : State) (hn : (ps.map Prod.fst).Nodup) (x : Sym) (p : Bits)
    (h : (x, p) ∈ ps) : (recordPaths ps s).codeAt x = leafCode p := by
  induction ps generalizing s with
  | nil => cases h
  | cons y ps ih =>
    obtain ⟨hy, hps⟩ := List.nodup_cons.mp hn
    rcases List.mem_cons.mp h with rfl | h
    · exact (codeAt_recordPaths_of_not_mem ps _ x hy).trans (by simp)
    · exact ih (s.setCode y.1 (leafCode y.2)) hps h

/-- The walk of one subtree: as many pops as it has nodes, and its paths are recorded. -/
theorem deriveLoop_subtree {T : Tree} {i : NodeIdx} {s : State} (h : Spans s.nodes T i) (k : Nat) (p : Bits)
    (rest : List (NodeIdx × Bits)) :
    deriveLoop (T.size + k) { s with dstk := (i, p) :: rest } =
      deriveLoop k { recordPaths (T.paths p) s with dstk := rest } := by
  induction T generalizing i s k p rest with
  | leaf x w =>
    have hn := nodeAt_of_getElem? { s with dstk := rest } i _ h
    rw [Tree.size, Nat.add_comm]
    simp only [deriveLoop, visit, hn]
    rfl
  | node l r hl hr =>
    obtain ⟨w, a, b, hi, -, -, -, hsl, hsr⟩ := h
    have hn := nodeAt_of_getElem? { s with dstk := rest } i _ hi
    have hsize : (Tree.node l r).size + k = (l.size + (r.size + k)) + 1 := by simp only [Tree.size]; omega
    have hsr' : Spans (recordPaths (l.paths (p ++ [false])) s).nodes r b := by rw [recordPaths_frame]; exact hsr
    rw [hsize, Tree.paths, recordPaths_append, ← hr hsr' k, ← hl hsl]
    simp only [deriveLoop, visit, hn]

/-- DERIVE on a tree of at most 511 nodes (R150): CODE holds the paths recorded into an empty table, DSTK is empty, PHASE is
CODES, and nothing else changes. -/
theorem execDerive_eq (s : State) (T : Tree) (h : Spans s.nodes T s.root) (hT : T.size ≤ 511) :
    execDerive s = .next { s with
      code := (recordPaths (T.paths []) { s with code := Vector.replicate 256 [] }).code, dstk := [], phase := .codes } := by
  obtain ⟨k, hk⟩ : ∃ k, derivePops = T.size + (k + 1) := ⟨511 - T.size, by simp only [derivePops]; omega⟩
  have hwalk := deriveLoop_subtree (s := { s with code := Vector.replicate 256 [] }) h (k + 1) [] []
  rw [recordPaths_frame] at hwalk
  simp only [execDerive, hk, hwalk, deriveLoop]

/-- The codes DERIVE gives the tree BUILD made: the present symbols have one, of at most 255 bits (R153). -/
theorem codes_of_builtTree {s t : State} {T : Tree} (h : BuiltTree s T)
    (ht : t.code = (recordPaths (T.paths []) { s with code := Vector.replicate 256 [] }).code) (x : Sym) :
    (t.codeAt x ≠ [] ↔ s.freqAt x ≠ 0) ∧ (t.codeAt x).length ≤ Config.codeMax := by
  have hx : t.codeAt x = (recordPaths (T.paths []) { s with code := Vector.replicate 256 [] }).codeAt x := by
    simp only [State.codeAt, ht]
  have hmem : x ∈ T.syms ↔ s.freqAt x ≠ 0 := h.syms.mem_iff.trans (mem_alphabet s x)
  rw [← hmem, hx]
  by_cases hin : x ∈ T.syms
  · have hnd : ((T.paths []).map Prod.fst).Nodup := by
      rw [Tree.paths_map_fst]; exact h.syms.nodup_iff.mpr (alphabet_nodup s)
    obtain ⟨y, hy, rfl⟩ := List.mem_map.mp (Tree.paths_map_fst T [] ▸ hin)
    have hdepth := T.depth_lt_syms_length
    have hlen := T.length_of_mem_paths [] y hy
    have hL := alphabet_length_le s
    rw [h.syms.length_eq] at hdepth
    rw [codeAt_recordPaths_of_mem _ _ hnd y.1 y.2 hy, leafCode, Config.codeMax]
    simp only [List.length_nil, Nat.zero_add] at hlen
    split
    · exact ⟨by simpa using hin, by decide⟩
    · next hp => exact ⟨by simpa [hp] using hin, by omega⟩
  · rw [codeAt_recordPaths_of_not_mem _ _ x (by rwa [Tree.paths_map_fst])]
    have hempty : ({ s with code := Vector.replicate 256 [] } : State).codeAt x = [] := by simp [State.codeAt]
    simp [hempty, hin]

/-- A tree BUILD made has at most 511 nodes (R128). -/
theorem BuiltTree.size_le {s : State} {T : Tree} (h : BuiltTree s T) : T.size ≤ 511 := by
  have := alphabet_length_le s
  rw [h.size, h.count]; omega

end Sys2Proof.Machine
end

section
/-! PACK_BYTE, PACK_FLUSH, UNPACK_BYTE and UNPACK_END (spec/44_bit_packer.md, spec/45_bit_unpacker.md): the fields they
write, and how far OUT, PACC and UPTR can move. -/

namespace Sys2Proof.Machine

/-! ### The packer (R170, R171) -/

/-- Appending bits: they leave in whole bytes or stay in PACC, PACK_BITS counts them, and nothing else changes. -/
theorem appendBits_eq (p : Bits) (s : State) (h : s.pacc.length < 8) :
    ∃ (acc : Bits) (new : List Byte),
      appendBits p s = { s with packBits := s.packBits + BitVec.ofNat 64 p.length, pacc := acc, out := s.out ++ new } ∧
      8 * new.length + acc.length = s.pacc.length + p.length ∧ acc.length < 8 := by
  induction p generalizing s with
  | nil => exact ⟨s.pacc, [], by simp, by simp, h⟩
  | cons x p ih =>
    have hbits : s.packBits + 1 + BitVec.ofNat 64 p.length = s.packBits + BitVec.ofNat 64 (x :: p).length := by
      rw [List.length_cons, BitVec.add_assoc, Nat.add_comm, BitVec.ofNat_add]; rfl
    rw [appendBits_cons]
    by_cases h7 : s.pacc.length = 7
    · obtain ⟨acc, new, he, hlen, hacc⟩ := ih (appendBit x s) (by rw [appendBit_full x s h7]; exact Nat.zero_lt_succ 7)
      rw [appendBit_full x s h7] at he hlen ⊢
      refine ⟨acc, groupByte (s.pacc ++ [x]) :: new, ?_, ?_, hacc⟩
      · simp only [he, hbits, List.append_assoc, List.singleton_append]
      · simp only [List.length_nil, List.length_cons] at hlen ⊢
        omega
    · obtain ⟨acc, new, he, hlen, hacc⟩ := ih (appendBit x s) (by rw [appendBit_short x s h7]; simp; omega)
      rw [appendBit_short x s h7] at he hlen ⊢
      refine ⟨acc, new, by simp only [he, hbits], ?_, hacc⟩
      simp only [List.length_append, List.length_cons, List.length_nil] at hlen ⊢
      omega

/-- PACK_BYTE of a symbol with a code (R171). -/
theorem execPackByte_eq (a : Arg) (s : State) (h : s.pacc.length < 8) (hp : s.codeAt (symOperand a) ≠ []) :
    ∃ (acc : Bits) (new : List Byte),
      execPackByte a s = .next { s with
        stream := .pack, packBits := s.packBits + BitVec.ofNat 64 (s.codeAt (symOperand a)).length, pacc := acc,
        out := s.out ++ new } ∧
      8 * new.length + acc.length = s.pacc.length + (s.codeAt (symOperand a)).length ∧ acc.length < 8 := by
  obtain ⟨acc, new, he, hlen⟩ := appendBits_eq (s.codeAt (symOperand a)) { s with stream := .pack } h
  exact ⟨acc, new, by simp [execPackByte, hp, he], hlen⟩

/-- PACK_BYTE of a symbol without a code raises UnknownSymbol (R171). -/
theorem execPackByte_unknown (a : Arg) (s : State) (hp : s.codeAt (symOperand a) = []) :
    execPackByte a s = .next (raise .unknownSymbol s) := by simp [execPackByte, hp]

/-- PACK_FLUSH empties PACC into at most one byte and closes the stream (R172). -/
theorem execPackFlush_eq (s : State) :
    ∃ new : List Byte, execPackFlush s = .next { s with stream := .pack, closed := true, pacc := [], out := s.out ++ new } ∧
      new.length ≤ 1 := by
  cases hp : s.pacc with
  | nil => exact ⟨[], by simp [execPackFlush, hp], by simp⟩
  | cons x xs => exact ⟨[groupByte (x :: xs)], by simp [execPackFlush, hp, pushOut], by simp⟩

/-! ### The unpacker (R190, R191, R193) -/

/-- UPTR is ROOT or an internal node on a path from ROOT (spec/10_state.md R53). -/
def PointerOk (s : State) : Prop :=
  Reaches s.nodes s.root s.uptr ∧ (s.uptr = s.root ∨ (s.nodeAt s.uptr).isInternal = true)

/-- What traversing at most `n` bits does: OUT grows by at most `n` bytes, UPTR stays in place on the tree, and nothing
else changes but UNPACK_BITS and LIMHIT. -/
structure Traverses (n : Nat) (s t : State) : Prop where
  frame : t = { s with out := t.out, uptr := t.uptr, unpackBits := t.unpackBits, limhit := t.limhit }
  out : t.out.length ≤ s.out.length + n
  pointer : PointerOk t

theorem Traverses.trans {n m : Nat} {s t u : State} (h : Traverses n s t) (h' : Traverses m t u) :
    Traverses (m + n) s u where
  frame := by rw [h'.frame, h.frame]
  out := by have := h.out; have := h'.out; omega
  pointer := h'.pointer

/-- One bit keeps the pointer on the tree. -/
theorem stepBit_traverses {x : Bool} {s t : State} {T : Tree} (hT : Spans s.nodes T s.root) (hp : PointerOk s)
    (h : stepBit x s = some t) : Traverses 1 s t ∧ t.limhit = s.limhit := by
  obtain ⟨hreach, -⟩ := id hp
  have hchild : ∀ {w l r}, s.nodeAt s.uptr = .internal w l r → Reaches s.nodes s.root (if x then r else l) := fun hn =>
    hreach.child ((hT.getElem?_of_reaches hreach).trans (congrArg some hn)) x
  rcases stepBit_cases x s with ⟨y, w, -, -, he⟩ | ⟨y, w, hn, -, he⟩ | ⟨w, l, r, -, -, he⟩ | ⟨w, l, r, y, v, -, -, -, he⟩ |
    ⟨w, l, r, v, a, b, hn, -, hm, he⟩ <;> rw [he] at h <;> cases h
  · exact ⟨⟨rfl, by simp, hp⟩, rfl⟩
  · exact ⟨⟨rfl, by simp, .here _, .inl rfl⟩, rfl⟩
  · exact ⟨⟨rfl, by simp, hchild hn, .inr (congrArg Node.isInternal hm)⟩, rfl⟩

/-- Past the limit every further bit is discarded (R193). -/
theorem unpackBits_limited {lim : Bool × BitCount} {s : State} (h : limited lim s = true) (xs : Bits) :
    unpackBits lim xs { s with limhit := true } = { s with limhit := true } := by
  induction xs with
  | nil => rfl
  | cons x xs ih =>
    rw [unpackBits, if_pos (show limited lim { s with limhit := true } = true from h)]
    exact ih

theorem limited_iff (lim : Bool × BitCount) (s : State) :
    limited lim s = true ↔ lim.1 = true ∧ lim.2 ≤ s.unpackBits := by simp [limited]

/-- The bits of one UNPACK_BYTE (R191): what was traversed stands, with CorruptStream raised or not, and LIMHIT is newly set
only where the count has reached the limit. -/
theorem unpackBits_cases (lim : Bool × BitCount) (xs : Bits) {s : State} {T : Tree} (hT : Spans s.nodes T s.root)
    (hp : PointerOk s) :
    ∃ u, Traverses xs.length s u ∧ (u.limhit = s.limhit ∨ u.limhit = true ∧ lim.1 = true ∧ lim.2 ≤ u.unpackBits) ∧
      (unpackBits lim xs s = u ∨ unpackBits lim xs s = raise .corruptStream u) := by
  induction xs generalizing s with
  | nil => exact ⟨s, ⟨rfl, Nat.le_refl _, hp⟩, .inl rfl, .inl rfl⟩
  | cons x xs ih =>
    rw [unpackBits]
    by_cases hl : limited lim s = true
    · rw [if_pos hl, unpackBits_limited hl]
      exact ⟨{ s with limhit := true }, ⟨rfl, Nat.le_add_right _ _, hp⟩, .inr ⟨rfl, (limited_iff lim s).mp hl⟩, .inl rfl⟩
    · rw [if_neg hl]
      cases hs : stepBit x s with
      | none => exact ⟨s, ⟨rfl, Nat.le_add_right _ _, hp⟩, .inl rfl, .inr rfl⟩
      | some t =>
        obtain ⟨ht, hlim⟩ := stepBit_traverses hT hp hs
        obtain ⟨u, hu, hul, he⟩ := ih (s := t) (by rw [ht.frame]; exact hT) ht.pointer
        exact ⟨u, ht.trans hu, hlim ▸ hul, he⟩

/-- UNPACK_BYTE on a tree (R191): STREAM is UNPACK, and what was traversed stands, with CorruptStream raised or not. -/
theorem execUnpackByte_eq (a : Arg) {s : State} {T : Tree} (hT : Spans s.nodes T s.root) (hp : PointerOk s) :
    ∃ u, Traverses 8 { s with stream := .unpack } u ∧
      (u.limhit = s.limhit ∨ u.limhit = true ∧ (limitOperand s).1 = true ∧ (limitOperand s).2 ≤ u.unpackBits) ∧
      (execUnpackByte a s = .next u ∨ execUnpackByte a s = .next (raise .corruptStream u)) := by
  obtain ⟨u, hu, hlim, he⟩ := unpackBits_cases (s := { s with stream := .unpack }) (limitOperand s)
    (byteBits (symOperand a)) hT hp
  exact ⟨u, hu, hlim, he.imp (congrArg _) (congrArg _)⟩

/-- UNPACK_END closes the stream and puts the pointer back at ROOT; a pointer off the root sets PARTIAL (R192). -/
theorem execUnpackEnd_eq (s : State) :
    execUnpackEnd s = .next { s with
      stream := .unpack, closed := true, partialFlag := s.partialFlag || decide (s.uptr ≠ s.root), uptr := s.root } := by
  by_cases h : s.uptr = s.root
  · simp [execUnpackEnd, h]
  · simp [execUnpackEnd, h]

end Sys2Proof.Machine
end

section
/-! Every step keeps the invariant (spec/10_state.md R53): accesses, issue, each command's completion, the reset input. -/

namespace Sys2Proof.Machine

/-! ### The host's side and the reset input -/

/-- What the host does next is no part of the invariant. -/
theorem Inv.withAgenda {s : State} (h : Inv s) (rest : List Event) : Inv { s with agenda := rest } :=
  h.of_tied rfl h.pending fun hr => congrArg (fun u : State => { u with agenda := rest }) (h.reset hr)

/-- No command is pending while the reset input is asserted (R240). -/
theorem Inv.inReset_of_pend {s : State} (h : Inv s) {p : Pending} (hp : s.pend = some p) : s.inReset = false := by
  cases hr : s.inReset with
  | false => rfl
  | true => rw [h.reset hr] at hp; cases hp

theorem inv_driveReset {s : State} (h : Inv s) (b : Bool) : Inv (driveReset b s) := by
  cases b with
  | true => exact (inv_resetBlock s).of_tied rfl (pendingFits_none rfl) fun _ => rfl
  | false => exact h.of_tied rfl h.pending nofun

/-! ### Issue (spec/40_control.md R100) -/

/-- An exception entry leaves everything but PHASE, ERR and PEND (R211). -/
theorem Inv.raise {s : State} (h : Inv s) (hr : s.inReset = false) {e : Err} (he : e ≠ .none) : Inv (raise e s) :=
  { h with
    err := iff_of_false he (not_not_intro rfl)
    pending := pendingFits_none rfl
    load := nofun
    noCode := by rintro (h | h) <;> cases h
    tree := by rintro (h | h) <;> cases h
    codes := nofun
    streamPack := fun hs => ⟨.inr rfl, (h.streamPack hs).2⟩
    streamUnpack := fun hs => ⟨.inr rfl, (h.streamUnpack hs).2⟩
    reset := resetHolds_released hr }

theorem snapFits_snapshot (c : Instr) (s : State) : snapFits ⟨c, snapshot c s⟩ = true := by cases c <;> rfl

theorem pendingFits_accept {c : Instr} {s : State} (hl : legal c s.phase s.stream s.closed = true)
    (hroom : hasRoom c s = true) : PendingFits (accept c s) := by
  rintro p ⟨⟩
  exact ⟨hl, snapFits_snapshot c s, hroom, rfl⟩

theorem inv_issue {s : State} (h : Inv s) (hr : s.inReset = false) (w : Word) : Inv (issue w s) := by
  rcases issue_cases w s with ⟨-, e⟩ | ⟨-, -, -, e⟩ | ⟨-, -, -, e⟩ | ⟨-, -, -, e⟩ | ⟨c, -, -, -, -, e⟩ |
    ⟨c, hp, -, -, -, -, e⟩ | ⟨c, -, -, -, hl, hroom, e⟩ <;> rw [e]
  · exact h.of_tied rfl h.pending (resetHolds_released hr)
  · exact h.of_tied rfl (pendingFits_accept rfl ((hasRoom_iff _ _).mpr h.out)) (resetHolds_released hr)
  · exact h
  · exact h.raise hr nofun
  · exact h.raise hr nofun
  · exact h.of_tied rfl (pendingFits_none hp) (resetHolds_released hr)
  · exact h.of_tied rfl (pendingFits_accept hl hroom) (resetHolds_released hr)

/-! ### Host accesses -/

theorem inv_popOut {s : State} (h : Inv s) (hr : s.inReset = false) (hp : s.pend = none) : Inv (popOut s) :=
  { h with
    out := Nat.le_trans (List.length_tail ▸ Nat.sub_le _ 1) h.out
    pending := pendingFits_none hp
    tree := fun ht => (h.tree ht).imp fun _ hT => { hT with }
    streamNone := fun hs => by
      obtain ⟨h1, h2, h3, h4⟩ := h.streamNone hs
      exact ⟨h1, h2, congrArg List.tail h3, h4⟩
    reset := resetHolds_released hr }

theorem inv_regRead {s : State} (h : Inv s) (hr : s.inReset = false) (off : Nat) : Inv (regRead off s) := by
  rcases regRead_cases off s with ⟨-, -, e⟩ | ⟨hp, -, e⟩ | ⟨-, -, e⟩ <;> rw [e]
  · exact h.of_tied rfl h.pending (resetHolds_released hr)
  · exact (inv_popOut h hr hp).of_tied rfl (pendingFits_none hp) (resetHolds_released hr)
  · exact h.of_tied rfl h.pending (resetHolds_released hr)

theorem inv_regWrite {s : State} (h : Inv s) (hr : s.inReset = false) (off : Nat) (v : Word) : Inv (regWrite off v s) := by
  rcases regWrite_cases off v s with ⟨-, e⟩ | ⟨-, e⟩ | ⟨-, e⟩ | ⟨-, e⟩ | ⟨-, e⟩ | ⟨-, e⟩ | ⟨-, e⟩ <;> rw [e]
  · exact inv_issue h hr v
  all_goals exact h.of_tied rfl h.pending (resetHolds_released hr)

theorem inv_performAccess {s : State} (h : Inv s) (hr : s.inReset = false) (a : HostAccess) : Inv (performAccess a s) := by
  cases a with
  | read n off => exact inv_regRead h hr off
  | write n off v => exact inv_regWrite h hr off v

end Sys2Proof.Machine
end

section
/-! Each command's completion keeps the invariant (spec/40_control.md R101, spec/10_state.md R53), and so does every step. -/

namespace Sys2Proof.Machine

/-! ### Legality of the stream commands (spec/40_control.md R104) -/

section
variable {s : State} {a : Arg}

theorem legal_packByte (hl : legal (.packByte a) s.phase s.stream s.closed = true) :
    s.phase = .codes ∧ s.stream ≠ .unpack ∧ s.closed = false := by simpa [legal, packOpen] using hl

theorem legal_packFlush (hl : legal .packFlush s.phase s.stream s.closed = true) :
    s.phase = .codes ∧ s.stream ≠ .unpack ∧ s.closed = false := by simpa [legal, packOpen] using hl

theorem legal_unpackByte (hl : legal (.unpackByte a) s.phase s.stream s.closed = true) :
    s.hasTree ∧ s.stream ≠ .pack ∧ s.closed = false := by simpa [legal, unpackOpen, State.hasTree] using hl

theorem legal_unpackEnd (hl : legal .unpackEnd s.phase s.stream s.closed = true) :
    s.hasTree ∧ s.stream ≠ .pack ∧ s.closed = false := by simpa [legal, unpackOpen, State.hasTree] using hl

end

/-! ### Completion -/

/-- QUERY_NODE writes NODE_INFO and NODE_W0 to NODE_W2 alone (R127). -/
theorem execQueryNode_frame {a : Arg} {s u : State} (he : execQueryNode a s = .next u) :
    ∃ i w0 w1 w2, u = { s with nodeInfo := i, nodeW0 := w0, nodeW1 := w1, nodeW2 := w2 } := by
  rw [execQueryNode] at he
  split at he
  · cases he; exact ⟨_, _, _, _, rfl⟩
  · cases he; exact ⟨_, _, _, _, rfl⟩

theorem Inv.loadReady {s : State} (h : Inv s) (hl : s.phase = .load) : LoadReady s := ⟨hl, (h.load hl).1, h.queues.1⟩

/-- PACC holds a partial byte (R44). -/
theorem Inv.pacc_lt {s : State} (h : Inv s) : s.pacc.length < 8 := by
  rw [h.pacc]; split
  · decide
  · exact Nat.mod_lt _ (by decide)

section
variable {s u : State} (h : Inv s) (hr : s.inReset = false)
include h hr

/-- A completion that writes no tied field. -/
theorem Inv.complete_of_tied (hu : u.tied = s.tied) (hur : u.inReset = s.inReset) : Inv { u with pend := none } :=
  h.of_tied hu (pendingFits_none rfl) (resetHolds_released (hur.trans hr))

/-- LOAD_FREQ in LOAD: there is no tree and no code yet. -/
theorem inv_setFreq (hl : s.phase = .load) (x : Sym) (v : Freq) : Inv { s.setFreq x v with pend := none } :=
  { h with
    pending := pendingFits_none rfl
    tree := by rintro (ht | ht) <;> cases hl.symm.trans ht
    codes := fun hc => by cases hl.symm.trans hc
    reset := resetHolds_released hr }

/-- BUILD in LOAD: EmptyAlphabet, or the tree of the table. -/
theorem inv_execBuild (hl : s.phase = .load) (he : execBuild s = .next u) : Inv { u with pend := none } := by
  have hready := h.loadReady hl
  obtain ⟨-, -, -, hstream, -⟩ := h.load hl
  by_cases ha : s.alphabet = []
  · cases (execBuild_empty s hready ha).symm.trans he
    exact h.raise hr nofun
  · obtain ⟨r, nodes, -, hforest, hb⟩ := execBuild_eq s hready ha
    cases hb.symm.trans he
    have hT := hforest.builtTree ha rfl
    exact { h with
      err := iff_of_true (h.err.mpr (by simp [hl])) nofun
      pending := pendingFits_none rfl
      load := nofun
      noCode := fun _ => h.noCode (.inl hl)
      tree := fun _ => ⟨r.tree, { hT with }⟩
      codes := nofun
      streamPack := fun hs => by cases hstream.symm.trans hs
      streamUnpack := fun hs => by cases hstream.symm.trans hs
      uptr := ⟨.here _, .inl rfl⟩
      reset := resetHolds_released hr }

/-- DERIVE in TREE: exactly the present symbols get codes. -/
theorem inv_execDerive (ht : s.phase = .tree) (he : execDerive s = .next u) : Inv { u with pend := none } := by
  obtain ⟨T, hT⟩ := h.tree (.inl ht)
  cases (execDerive_eq s T hT.spans hT.size_le).symm.trans he
  exact { h with
    err := iff_of_true (h.err.mpr (by simp [ht])) nofun
    queues := ⟨h.queues.1, rfl⟩
    pending := pendingFits_none rfl
    load := nofun
    noCode := by rintro (h | h) <;> cases h
    tree := fun _ => ⟨T, { hT with }⟩
    codes := fun _ x => (codes_of_builtTree hT rfl x).1
    codeLen := fun x => (codes_of_builtTree hT rfl x).2
    streamPack := fun hs => ⟨.inl rfl, (h.streamPack hs).2⟩
    streamUnpack := fun hs => ⟨.inl (.inr rfl), (h.streamUnpack hs).2⟩
    reset := resetHolds_released hr }

/-- A pack command in CODES with no unpack stream (R104). -/
theorem Inv.packed (hph : s.phase = .codes) (hopen : s.stream ≠ .unpack) {c : Bool} {n : BitCount} {acc : Bits}
    {o : List Byte} (hacc : acc.length = if c then 0 else n.toNat % 8) (ho : o.length ≤ 64) :
    Inv { s with stream := .pack, closed := c, packBits := n, pacc := acc, out := o, pend := none } :=
  { h with
    out := ho
    pending := pendingFits_none rfl
    pacc := hacc
    load := fun hl => by cases hph.symm.trans hl
    tree := fun ht => (h.tree ht).imp fun _ hT => { hT with }
    streamNone := nofun
    streamPack := fun _ => ⟨.inl hph, by
      cases hs : s.stream with
      | none => exact (h.streamNone hs).2.1
      | pack => exact (h.streamPack hs).2
      | unpack => exact absurd hs hopen⟩
    streamUnpack := nofun
    reset := resetHolds_released hr }

theorem inv_execPackByte {a : Arg} (hl : legal (.packByte a) s.phase s.stream s.closed = true)
    (hroom : hasRoom (.packByte a) s = true) (he : execPackByte a s = .next u) : Inv { u with pend := none } := by
  obtain ⟨hph, hopen, hclosed⟩ := legal_packByte hl
  by_cases hp : s.codeAt (symOperand a) = []
  · cases (execPackByte_unknown a s hp).symm.trans he
    exact h.raise hr nofun
  · have hpacc := h.pacc
    have hlt := h.pacc_lt
    obtain ⟨acc, new, hx, hlen, hacc⟩ := execPackByte_eq a s hlt hp
    cases hx.symm.trans he
    have hcode := h.codeLen (symOperand a)
    rw [Config.codeMax] at hcode
    have hfit : s.out.length + 32 ≤ 64 := (hasRoom_iff _ _).mp hroom
    refine h.packed hr hph hopen ?_ (by rw [List.length_append]; omega)
    rw [hclosed] at hpacc ⊢
    simp only [Bool.false_eq_true, if_false, BitVec.toNat_add, BitVec.toNat_ofNat] at hpacc ⊢
    omega

theorem inv_execPackFlush (hl : legal .packFlush s.phase s.stream s.closed = true)
    (hroom : hasRoom .packFlush s = true) (he : execPackFlush s = .next u) : Inv { u with pend := none } := by
  obtain ⟨hph, hopen, -⟩ := legal_packFlush hl
  obtain ⟨new, hx, hnew⟩ := execPackFlush_eq s
  cases hx.symm.trans he
  have hfit : s.out.length + 1 ≤ 64 := (hasRoom_iff _ _).mp hroom
  exact h.packed hr hph hopen rfl (by rw [List.length_append]; omega)

/-- An unpack command with a tree and no pack stream (R104). -/
theorem Inv.unpacked (hph : s.hasTree) (hopen : s.stream ≠ .pack) (hclosed : s.closed = false) {c l p : Bool}
    {n : BitCount} {o : List Byte} {i : NodeIdx} (ho : o.length ≤ 64) (hi : PointerOk { s with uptr := i }) :
    Inv { s with stream := .unpack, closed := c, limhit := l, partialFlag := p, unpackBits := n, out := o, uptr := i,
                 pend := none } :=
  have hpack : s.packBits = 0 := by
    cases hs : s.stream with
    | none => exact (h.streamNone hs).1
    | pack => exact absurd hs hopen
    | unpack => exact (h.streamUnpack hs).2
  { h with
    out := ho
    pending := pendingFits_none rfl
    pacc := by
      have hpacc := h.pacc
      rw [hclosed, hpack] at hpacc
      show s.pacc.length = if c then 0 else s.packBits.toNat % 8
      rw [hpack, hpacc]; simp
    load := fun hl => by rcases hph with ht | ht <;> cases ht.symm.trans hl
    tree := fun ht => (h.tree ht).imp fun _ hT => { hT with }
    streamNone := nofun
    streamPack := nofun
    streamUnpack := fun _ => ⟨.inl hph, hpack⟩
    uptr := hi
    reset := resetHolds_released hr }

theorem inv_execUnpackByte {a : Arg} (hl : legal (.unpackByte a) s.phase s.stream s.closed = true)
    (hroom : hasRoom (.unpackByte a) s = true) (he : execUnpackByte a s = .next u) : Inv { u with pend := none } := by
  obtain ⟨hph, hopen, hclosed⟩ := legal_unpackByte hl
  have hfit : s.out.length + 8 ≤ 64 := (hasRoom_iff _ _).mp hroom
  obtain ⟨T, hT⟩ := h.tree hph
  obtain ⟨v, ⟨hframe, hout, hptr⟩, -, hv⟩ := execUnpackByte_eq a hT.spans h.uptr
  have hinv : Inv { v with pend := none } := by
    rw [hframe] at hptr ⊢
    exact h.unpacked hr hph hopen hclosed (Nat.le_trans hout hfit) hptr
  have hvr : v.inReset = false := by rw [hframe]; exact hr
  rcases hv with hv | hv <;> cases hv.symm.trans he
  · exact hinv
  · exact hinv.raise hvr nofun

theorem inv_execUnpackEnd (hl : legal .unpackEnd s.phase s.stream s.closed = true)
    (he : execUnpackEnd s = .next u) : Inv { u with pend := none } := by
  obtain ⟨hph, hopen, hclosed⟩ := legal_unpackEnd hl
  cases (execUnpackEnd_eq s).symm.trans he
  exact h.unpacked hr hph hopen hclosed h.out ⟨.here _, .inl rfl⟩

end

/-- The engine's step keeps the invariant. -/
theorem inv_complete {s t : State} (h : Inv s) (hc : complete s = .next t) : Inv t := by
  rcases (complete_next_iff s t).mp hc with ⟨-, rfl⟩ | ⟨⟨c, snap⟩, u, hp, he, rfl⟩
  · exact h
  · have hr := h.inReset_of_pend hp
    obtain ⟨hl, -, hroom, -⟩ := h.pending _ hp
    cases c with
    | nop => cases he; exact h.complete_of_tied hr rfl rfl
    | reset => cases he; exact inv_resetBlock s
    | loadFreq a => cases he; exact inv_setFreq h hr (by simpa [legal] using hl) _ _
    | readFreq a => cases he; exact h.complete_of_tied hr rfl rfl
    | build => exact inv_execBuild h hr (by simpa [legal] using hl) he
    | queryNode a => obtain ⟨i, w0, w1, w2, rfl⟩ := execQueryNode_frame he; exact h.complete_of_tied hr rfl rfl
    | derive => exact inv_execDerive h hr (by simpa [legal] using hl) he
    | queryCode a => cases he; exact h.complete_of_tied hr rfl rfl
    | packByte a => exact inv_execPackByte h hr hl hroom he
    | packFlush => exact inv_execPackFlush h hr hl hroom he
    | unpackByte a => exact inv_execUnpackByte h hr hl hroom he
    | unpackEnd => exact inv_execUnpackEnd h hr hl he

/-- Settles O43, by the cases of the step: an access, a completion, an issue with its completion, or the reset input. -/
theorem stepKeepsInv : Obligations.StepKeepsInv := by
  intro s t h hs
  rcases step_cases s t hs with ⟨-, hc⟩ | ⟨rest, -, hc⟩ | ⟨a, rest, -, hr, -, rfl⟩ | ⟨w, rest, -, hr, hc⟩ |
    ⟨b, rest, -, rfl⟩
  · exact inv_complete h hc
  · exact inv_complete (h.withAgenda rest) hc
  · exact inv_performAccess (h.withAgenda rest) hr a
  · exact inv_complete (inv_issue (h.withAgenda rest) hr w) hc
  · exact inv_driveReset (h.withAgenda rest) b

end Sys2Proof.Machine
end

section
/-! What a plain step can change (spec/10_state.md R49, R40, R41, R43): one summary, `Changes`, that every kind of step meets. -/

namespace Sys2Proof.Machine

/-- A flag goes from `a` to `b`: it keeps its value, or it is cleared or set for the reasons named. -/
def FlagChange (a b : Bool) (cleared set : Prop) : Prop := b = a ∨ (b = false ∧ cleared) ∨ (b = true ∧ set)

section
variable {a b : Bool} {P Q : Prop}

theorem FlagChange.set (h : FlagChange a b P Q) (ha : a = false) (hb : b = true) : Q := by
  rcases h with h | ⟨h, -⟩ | ⟨-, hq⟩
  · cases ha.symm.trans (h.symm.trans hb)
  · cases h.symm.trans hb
  · exact hq

theorem FlagChange.clear (h : FlagChange a b P Q) (ha : a = true) (hb : b = false) : P := by
  rcases h with h | ⟨-, hp⟩ | ⟨h, -⟩
  · cases ha.symm.trans (h.symm.trans hb)
  · exact hp
  · cases h.symm.trans hb

theorem FlagChange.cleared (hp : P) : FlagChange a false P Q := .inr (.inl ⟨rfl, hp⟩)

theorem FlagChange.raised (hq : Q) : FlagChange a true P Q := .inr (.inr ⟨rfl, hq⟩)

end

/-- The next step is a write of CMD. -/
def CmdWrite (s : State) : Prop := ∃ w rest, s.agenda = .access (.write 4 0x00 w) :: rest

/-- What changes in a step from `s` to `t`, and for which cause: the rows of R49 and the writers of FREQ, NODE, ROOT and CODE.
A field that is left out did not change. -/
structure Changes (s t : State) : Prop where
  busy : FlagChange s.busy t.busy ((∃ c, Completing s c) ∨ Resetting s) (CmdWrite s) := by exact .inl rfl
  ovr : FlagChange s.ovr t.ovr (Resetting s) (s.busy = true ∧ CmdWrite s) := by exact .inl rfl
  rej : FlagChange s.rej t.rej (Resetting s ∨ (s.pend = none ∧ t.pend ≠ none))
    (s.busy = false ∧ ∃ w c rest, s.agenda = .access (.write 4 0x00 w) :: rest ∧ decode w = .command c ∧
      64 < s.out.length + worst c) := by exact .inl rfl
  partialFlag : FlagChange s.partialFlag t.partialFlag (Resetting s) (Completing s .unpackEnd ∧ s.uptr ≠ s.root) := by
    exact .inl rfl
  limhit : FlagChange s.limhit t.limhit (Resetting s) (∃ a, Completing s (.unpackByte a) ∧ (limitOperand s).1 = true ∧
    (limitOperand s).2 ≤ t.unpackBits) := by exact .inl rfl
  single : FlagChange s.single t.single (Resetting s) (Completing s .build ∧ s.alphabet.length = 1) := by exact .inl rfl
  closed : FlagChange s.closed t.closed (Resetting s) (Completing s .packFlush ∨ Completing s .unpackEnd) := by
    exact .inl rfl
  stream : t.stream = s.stream ∨ Resetting s ∨ s.stream = .none ∧
    ((t.stream = .pack ∧ (Completing s .packFlush ∨ ∃ a, Completing s (.packByte a))) ∨
     (t.stream = .unpack ∧ (Completing s .unpackEnd ∨ ∃ a, Completing s (.unpackByte a)))) := by exact .inl rfl
  phase : t.phase = s.phase ∨ Resetting s ∨ t.phase = .error ∨ (t.phase = .tree ∧ Completing s .build) ∨
    (t.phase = .codes ∧ Completing s .derive) := by exact .inl rfl
  freq : t.freq = s.freq ∨ Resetting s ∨ s.phase = .load ∧ ∃ a, Completing s (.loadFreq a) := by exact .inl rfl
  arena : t.nodes = s.nodes ∧ t.root = s.root ∨ Resetting s ∨ s.phase = .load ∧ Completing s .build := by
    exact .inl ⟨rfl, rfl⟩
  code : t.code = s.code ∨ Resetting s ∨ s.phase = .tree ∧ Completing s .derive := by exact .inl rfl

/-! ### Resets, accesses and issue -/

theorem changes_reset {s : State} (hr : Resetting s) (r : State) (b : Bool) :
    Changes s { resetBlock r with inReset := b } where
  busy := .cleared (.inr hr)
  ovr := .cleared hr
  rej := .cleared (.inl hr)
  partialFlag := .cleared hr
  limhit := .cleared hr
  single := .cleared hr
  closed := .cleared hr
  stream := .inr (.inl hr)
  phase := .inr (.inl hr)
  freq := .inr (.inl hr)
  arena := .inr (.inl hr)
  code := .inr (.inl hr)

section
variable {s : State} {rest : List Event}

theorem changes_regRead (off : Nat) : Changes s (regRead off { s with agenda := rest }) := by
  rcases regRead_cases off { s with agenda := rest } with ⟨-, -, e⟩ | ⟨-, -, e⟩ | ⟨-, -, e⟩ <;> rw [e]
  all_goals exact {}

theorem changes_issue (w : Word) (hag : s.agenda = .access (.write 4 0x00 w) :: rest) :
    Changes s (issue w { s with agenda := rest }) := by
  have hw : CmdWrite s := ⟨w, rest, hag⟩
  rcases issue_cases w { s with agenda := rest } with ⟨hp, e⟩ | ⟨hp, -, -, e⟩ | ⟨-, -, -, e⟩ | ⟨hp, -, -, e⟩ |
    ⟨c, hp, -, -, -, e⟩ | ⟨c, hp, -, hd, -, hroom, e⟩ | ⟨c, hp, -, -, -, -, e⟩ <;> rw [e]
  · exact { ovr := .raised ⟨Option.isSome_iff_ne_none.mpr hp, hw⟩ }
  · exact { busy := .raised hw, rej := .cleared (.inr ⟨hp, nofun⟩) }
  · exact {}
  · exact { busy := .inl (congrArg Option.isSome hp).symm, phase := .inr (.inr (.inl rfl)) }
  · exact { busy := .inl (congrArg Option.isSome hp).symm, phase := .inr (.inr (.inl rfl)) }
  · exact { rej := .raised ⟨congrArg Option.isSome hp, w, c, rest, hag, hd, (hasRoom_eq_false_iff _ _).mp hroom⟩ }
  · exact { busy := .raised hw, rej := .cleared (.inr ⟨hp, nofun⟩) }

theorem changes_performAccess {a : HostAccess} (ha : a.wellFormed = true) (hag : s.agenda = .access a :: rest) :
    Changes s (performAccess a { s with agenda := rest }) := by
  cases a with
  | read n off => exact changes_regRead off
  | write n off v =>
    have hn : n = 4 := by
      simp only [HostAccess.wellFormed, HostAccess.size, alignedWord, Bool.and_eq_true, beq_iff_eq] at ha
      exact ha.1.1
    subst hn
    simp only [performAccess]
    rcases regWrite_cases off v { s with agenda := rest } with ⟨rfl, e⟩ | ⟨-, e⟩ | ⟨-, e⟩ | ⟨-, e⟩ | ⟨-, e⟩ |
      ⟨-, e⟩ | ⟨-, e⟩ <;> rw [e]
    · exact changes_issue v hag
    all_goals exact {}

/-! ### Completions -/

variable {u : State} (h : Inv s)

/-- A completion ends BUSY. -/
theorem busy_completed {c : Instr} (hc : Completing s c) :
    FlagChange s.busy false ((∃ c, Completing s c) ∨ Resetting s) (CmdWrite s) := .cleared (.inl ⟨c, hc⟩)

include h

theorem changes_execBuild (hc : Completing s .build) (hl : s.phase = .load)
    (he : execBuild { s with agenda := rest } = .next u) : Changes s { u with pend := none } := by
  have hready : LoadReady { s with agenda := rest } := h.loadReady hl
  obtain ⟨-, -, -, -, hsingle⟩ := h.load hl
  by_cases ha : s.alphabet = []
  · cases (execBuild_empty { s with agenda := rest } hready ha).symm.trans he
    exact { busy := busy_completed hc, phase := .inr (.inr (.inl rfl)) }
  · obtain ⟨r, nodes, -, hforest, hb⟩ := execBuild_eq { s with agenda := rest } hready ha
    cases hb.symm.trans he
    have hone := (hforest.builtTree ha rfl).single
    refine { busy := busy_completed hc, single := ?_, phase := .inr (.inr (.inr (.inl ⟨rfl, hc⟩))),
             arena := .inr (.inr ⟨hl, hc⟩) }
    cases hleaf : r.tree.isLeaf with
    | false => exact .inl hsingle.symm
    | true => exact .raised ⟨hc, hone.mp hleaf⟩

theorem changes_execDerive (hc : Completing s .derive) (ht : s.phase = .tree)
    (he : execDerive { s with agenda := rest } = .next u) : Changes s { u with pend := none } := by
  obtain ⟨T, hT⟩ := h.tree (.inl ht)
  cases (execDerive_eq { s with agenda := rest } T hT.spans hT.size_le).symm.trans he
  exact { busy := busy_completed hc, phase := .inr (.inr (.inr (.inr ⟨rfl, hc⟩))), code := .inr (.inr ⟨ht, hc⟩) }

omit h in
/-- A pack command starts the pack stream or goes on with it (R104). -/
theorem stream_packed (hopen : s.stream ≠ .unpack) (hc : Completing s .packFlush ∨ ∃ a, Completing s (.packByte a)) :
    Stream.pack = s.stream ∨ Resetting s ∨ s.stream = .none ∧
      ((Stream.pack = .pack ∧ (Completing s .packFlush ∨ ∃ a, Completing s (.packByte a))) ∨
       (Stream.pack = .unpack ∧ (Completing s .unpackEnd ∨ ∃ a, Completing s (.unpackByte a)))) := by
  cases hs : s.stream with
  | none => exact .inr (.inr ⟨rfl, .inl ⟨rfl, hc⟩⟩)
  | pack => exact .inl rfl
  | unpack => exact absurd hs hopen

omit h in
/-- An unpack command starts the unpack stream or goes on with it (R104). -/
theorem stream_unpacked (hopen : s.stream ≠ .pack) (hc : Completing s .unpackEnd ∨ ∃ a, Completing s (.unpackByte a)) :
    Stream.unpack = s.stream ∨ Resetting s ∨ s.stream = .none ∧
      ((Stream.unpack = .pack ∧ (Completing s .packFlush ∨ ∃ a, Completing s (.packByte a))) ∨
       (Stream.unpack = .unpack ∧ (Completing s .unpackEnd ∨ ∃ a, Completing s (.unpackByte a)))) := by
  cases hs : s.stream with
  | none => exact .inr (.inr ⟨rfl, .inr ⟨rfl, hc⟩⟩)
  | pack => exact absurd hs hopen
  | unpack => exact .inl rfl

theorem changes_execPackByte {a : Arg} (hc : Completing s (.packByte a)) (hopen : s.stream ≠ .unpack)
    (he : execPackByte a { s with agenda := rest } = .next u) : Changes s { u with pend := none } := by
  by_cases hp : s.codeAt (symOperand a) = []
  · cases (execPackByte_unknown a { s with agenda := rest } hp).symm.trans he
    exact { busy := busy_completed hc, phase := .inr (.inr (.inl rfl)) }
  · obtain ⟨acc, new, hx, -⟩ := execPackByte_eq a { s with agenda := rest } h.pacc_lt hp
    cases hx.symm.trans he
    exact { busy := busy_completed hc, stream := stream_packed hopen (.inr ⟨a, hc⟩) }

omit h in
theorem changes_execPackFlush (hc : Completing s .packFlush) (hopen : s.stream ≠ .unpack)
    (he : execPackFlush { s with agenda := rest } = .next u) : Changes s { u with pend := none } := by
  obtain ⟨new, hx, -⟩ := execPackFlush_eq { s with agenda := rest }
  cases hx.symm.trans he
  exact { busy := busy_completed hc, closed := .raised (.inl hc), stream := stream_packed hopen (.inl hc) }

theorem changes_execUnpackByte {a : Arg} (hc : Completing s (.unpackByte a)) (hph : s.hasTree) (hopen : s.stream ≠ .pack)
    (he : execUnpackByte a { s with agenda := rest } = .next u) : Changes s { u with pend := none } := by
  obtain ⟨T, hT⟩ := h.tree hph
  obtain ⟨v, ⟨hframe, -, -⟩, hlim, hv⟩ := execUnpackByte_eq a (s := { s with agenda := rest }) hT.spans h.uptr
  have hstream := stream_unpacked hopen (.inr ⟨a, hc⟩)
  have hlimhit : FlagChange s.limhit v.limhit (Resetting s) (∃ a, Completing s (.unpackByte a) ∧
      (limitOperand s).1 = true ∧ (limitOperand s).2 ≤ v.unpackBits) :=
    hlim.imp_right fun ⟨hset, hcause⟩ => .inr ⟨hset, a, hc, hcause⟩
  rcases hv with hv | hv <;> cases hv.symm.trans he
  · rw [hframe]; exact { busy := busy_completed hc, limhit := hlimhit, stream := hstream }
  · rw [hframe]
    exact { busy := busy_completed hc, limhit := hlimhit, stream := hstream, phase := .inr (.inr (.inl rfl)) }

omit h in
theorem changes_execUnpackEnd (hc : Completing s .unpackEnd) (hopen : s.stream ≠ .pack)
    (he : execUnpackEnd { s with agenda := rest } = .next u) : Changes s { u with pend := none } := by
  cases (execUnpackEnd_eq { s with agenda := rest }).symm.trans he
  refine { busy := busy_completed hc, closed := .raised (.inr hc), stream := stream_unpacked hopen (.inl hc),
           partialFlag := ?_ }
  by_cases hu : s.uptr = s.root
  · exact .inl (by simp [hu])
  · exact .inr (.inr ⟨by simp [hu], hc, hu⟩)

/-- What the completion of each command changes. -/
theorem changes_complete {t : State} (hag : s.agenda = [] ∨ s.agenda = .engine :: rest)
    (ht : complete { s with agenda := rest } = .next t) : Changes s t := by
  rcases (complete_next_iff _ t).mp ht with ⟨-, rfl⟩ | ⟨⟨c, snap⟩, u, hp, he, rfl⟩
  · exact {}
  · have hc : Completing s c := ⟨⟨snap, hp⟩, hag.imp_right fun e => ⟨rest, e⟩⟩
    obtain ⟨hl, -, -, -⟩ := h.pending _ hp
    cases c with
    | nop => cases he; exact { busy := busy_completed hc }
    | reset => cases he; exact changes_reset (.inl hc) _ _
    | loadFreq a =>
      cases he
      exact { busy := busy_completed hc, freq := .inr (.inr ⟨by simpa [legal] using hl, a, hc⟩) }
    | readFreq a => cases he; exact { busy := busy_completed hc }
    | build => exact changes_execBuild h hc (by simpa [legal] using hl) he
    | queryNode a =>
      obtain ⟨i, w0, w1, w2, rfl⟩ := execQueryNode_frame he
      exact { busy := busy_completed hc }
    | derive => exact changes_execDerive h hc (by simpa [legal] using hl) he
    | queryCode a => cases he; exact { busy := busy_completed hc }
    | packByte a => exact changes_execPackByte h hc (legal_packByte hl).2.1 he
    | packFlush => exact changes_execPackFlush hc (legal_packFlush hl).2.1 he
    | unpackByte a => exact changes_execUnpackByte h hc (legal_unpackByte hl).1 (legal_unpackByte hl).2.1 he
    | unpackEnd => exact changes_execUnpackEnd hc (legal_unpackEnd hl).2.1 he

end

/-- What a plain step can change. -/
theorem changes_of_step {s t : State} (h : Inv s) (hplain : PlainEvent s) (hs : step s = .next t) : Changes s t := by
  rcases step_cases s t hs with ⟨hag, hc⟩ | ⟨rest, hag, hc⟩ | ⟨a, rest, hag, -, ha, rfl⟩ | ⟨w, rest, hag, -⟩ |
    ⟨b, rest, hag, rfl⟩
  · exact changes_complete h (rest := []) (.inl hag) (by rw [← hag]; exact hc)
  · exact changes_complete h (.inr hag) hc
  · exact changes_performAccess ha hag
  · exact absurd hag (hplain w rest)
  · cases b with
    | true => exact changes_reset (.inr ⟨rest, hag⟩) _ _
    | false => exact {}

/-- Settles O47: each row is read off the summary of the step. -/
theorem flagsChangeOnlyAsTheTableSays : Obligations.FlagsChangeOnlyAsTheTableSays := by
  intro s t h hplain hs
  have hc := changes_of_step h hplain hs
  refine ⟨hc.busy.set, hc.busy.clear, hc.ovr.set, hc.rej.set, hc.partialFlag.set, hc.limhit.set, hc.single.set,
    hc.closed.set, fun hne hnr => (hc.stream.resolve_left hne).resolve_left hnr,
    fun hne hnr => (hc.phase.resolve_left hne).resolve_left hnr, hc.rej.clear, ?_⟩
  rintro (⟨h0, h1⟩ | ⟨h0, h1⟩ | ⟨h0, h1⟩ | ⟨h0, h1⟩ | ⟨h0, h1⟩)
  · exact hc.ovr.clear h0 h1
  · exact hc.partialFlag.clear h0 h1
  · exact hc.limhit.clear h0 h1
  · exact hc.single.clear h0 h1
  · exact hc.closed.clear h0 h1

/-- Settles O48: the writers of the tables are read off the summary of the step. -/
theorem tablesAreWrittenOnlyByTheirCommands : Obligations.TablesAreWrittenOnlyByTheirCommands := by
  intro s t h hplain hs hnr
  have hc := changes_of_step h hplain hs
  refine ⟨fun hne => (hc.freq.resolve_left hne).resolve_left hnr, fun hne => ?_,
    fun hne => (hc.code.resolve_left hne).resolve_left hnr⟩
  exact (hc.arena.resolve_left fun ⟨hn, hroot⟩ => hne.elim (absurd hn) (absurd hroot)).resolve_left hnr

end Sys2Proof.Machine
end

section
/-! The host's side of the bus (spec/20_memory.md R61, R63, R71): which accesses are performed, and what a write sets. -/

namespace Sys2Proof.Machine

/-- Settles O11: the step is the engine's, and with nothing pending it keeps the state. -/
theorem idleBlockKeepsItsState : Obligations.IdleBlockKeepsItsState := by
  intro s hp
  refine ⟨fun hag => ?_, fun rest hag => ?_⟩
  · rw [step_nil s hag, complete_none s hp]
  · rw [step_cons s _ rest hag]
    exact complete_none { s with agenda := rest } hp

/-- Settles O51, by the cases of an access: two refusals, or it is performed. -/
theorem accessContract : Obligations.AccessContract := by
  intro s a rest hr hag
  have hstep : step s = hostAccess a { s with agenda := rest } := step_cons s _ rest hag
  rw [hstep]
  rcases hostAccess_cases a { s with agenda := rest } with ⟨h, -⟩ | ⟨-, hw, e⟩ | ⟨-, h4, hal, hout, e⟩ |
    ⟨-, h4, hal, hin, e⟩
  · cases hr.symm.trans h
  · rw [e]
    exact ⟨iff_of_false (by rintro ⟨_, ⟨⟩⟩) fun h => hw (h.imp_right And.left), fun _ => rfl,
      fun h4 hal _ => absurd ⟨h4, hal⟩ hw⟩
  · rw [e]
    exact ⟨iff_of_false (by rintro ⟨_, ⟨⟩⟩) (by omega), fun hn => absurd ⟨h4, hal⟩ hn, fun _ _ _ => rfl⟩
  · rw [e]
    exact ⟨iff_of_true ⟨_, rfl⟩ ⟨h4, hal, by omega⟩, fun hn => absurd ⟨h4, hal⟩ hn, fun _ _ hgt => by omega⟩

/-- R63: a write that names neither CMD nor a data register is ignored. -/
theorem regWrite_ignored (off : Nat) (v : Word) (s : State) (h0 : off ≠ 0x00)
    (h : off ∉ [0x08, 0x0C, 0x10, 0x34, 0x38]) : regWrite off v s = s := by
  have hne : off ∉ [0x00, 0x08, 0x0C, 0x10, 0x34, 0x38] := List.not_mem_cons_of_ne_of_not_mem h0 h
  rcases regWrite_cases off v s with ⟨rfl, -⟩ | ⟨rfl, -⟩ | ⟨rfl, -⟩ | ⟨rfl, -⟩ | ⟨rfl, -⟩ | ⟨rfl, -⟩ | ⟨-, e⟩
  rotate_right
  · exact e
  all_goals exact absurd (by decide) hne

/-- Settles O54: the write is performed, and the register at its offset says what it sets. -/
theorem dataRegisterWrites : Obligations.DataRegisterWrites := by
  intro s off v rest hr hal hlt h0 hag r
  have hstep : step s = .next (regWrite off v r) := step_access s (.write 4 off v) rest hr rfl hal hlt hag
  rw [hstep]
  refine ⟨?_, ?_, ?_, ?_, ?_, fun h => by rw [regWrite_ignored off v r h0 h]⟩
  · rintro rfl; rfl
  · rintro rfl; rfl
  · rintro rfl; rfl
  · rintro rfl; exact ⟨_, rfl, rfl, BitVec.extractLsb'_append_eq_right, BitVec.extractLsb'_append_eq_left⟩
  · rintro rfl; exact ⟨_, rfl, rfl, BitVec.extractLsb'_append_eq_left, BitVec.extractLsb'_append_eq_right⟩

end Sys2Proof.Machine
end

section
/-! The data registers (spec/10_state.md R25, R26, R33) while a command is pending (spec/20_memory.md R74): `setData` gives
them other values, every shared operation of the commands commutes with it, and so does a completion up to the data registers
the command itself writes. -/

namespace Sys2Proof.Machine

/-- The values of the five data registers: CTRL.LIMIT_EN, FREQ_LO, FREQ_HI, and LIMIT_LO and LIMIT_HI as one. -/
structure DataRegs where
  limitEn : Bool
  freqLo : Word
  freqHi : Word
  limit : BitCount

/-- The state with other values in its data registers. -/
def State.setData (s : State) (d : DataRegs) : State :=
  { s with limitEn := d.limitEn, freqLo := d.freqLo, freqHi := d.freqHi, limit := d.limit }

theorem sameButDataRegs_setData (t : State) (d : DataRegs) : SameButDataRegs (t.setData d) t := rfl

/-- R63, R247: a write of a data register is a change of the data registers. -/
theorem regWrite_eq_setData (off : Nat) (v : Word) (s : State) (h : off ∈ [0x08, 0x0C, 0x10, 0x34, 0x38]) :
    ∃ d, regWrite off v s = s.setData d := by
  rcases regWrite_cases off v s with ⟨rfl, -⟩ | ⟨-, e⟩ | ⟨-, e⟩ | ⟨-, e⟩ | ⟨-, e⟩ | ⟨-, e⟩ | ⟨hn, -⟩
  · exact absurd h (by decide)
  · exact ⟨⟨v.getLsbD 0, s.freqLo, s.freqHi, s.limit⟩, e⟩
  · exact ⟨⟨s.limitEn, v, s.freqHi, s.limit⟩, e⟩
  · exact ⟨⟨s.limitEn, s.freqLo, v, s.limit⟩, e⟩
  · exact ⟨⟨s.limitEn, s.freqLo, s.freqHi, s.limit.extractLsb' 32 32 ++ v⟩, e⟩
  · exact ⟨⟨s.limitEn, s.freqLo, s.freqHi, v ++ s.limit.extractLsb' 0 32⟩, e⟩
  · exact absurd (List.mem_cons_of_mem _ h) hn

section
variable (s : State) (d : DataRegs)

/-! ### The shared operations -/

@[simp] theorem setData_pend : (s.setData d).pend = s.pend := rfl
@[simp] theorem setData_pq : (s.setData d).pq = s.pq := rfl
@[simp] theorem setData_dstk : (s.setData d).dstk = s.dstk := rfl
@[simp] theorem setData_uptr : (s.setData d).uptr = s.uptr := rfl
@[simp] theorem setData_nodeAt (i : NodeIdx) : (s.setData d).nodeAt i = s.nodeAt i := rfl
@[simp] theorem setData_codeAt (x : Sym) : (s.setData d).codeAt x = s.codeAt x := rfl
@[simp] theorem limited_setData (lim : Bool × BitCount) : limited lim (s.setData d) = limited lim s := rfl
@[simp] theorem enqueueNode_setData (n : Node) : enqueueNode n (s.setData d) = (enqueueNode n s).setData d := rfl

@[simp] theorem appendBit_setData (x : Bool) : appendBit x (s.setData d) = (appendBit x s).setData d := by
  by_cases h : s.pacc.length = 7
  · rw [appendBit_full x s h, appendBit_full x (s.setData d) h]; rfl
  · rw [appendBit_short x s h, appendBit_short x (s.setData d) h]; rfl

theorem appendBits_setData (p : Bits) : appendBits p (s.setData d) = (appendBits p s).setData d := by
  induction p generalizing s with
  | nil => rfl
  | cons x p ih => simp only [appendBits_cons, appendBit_setData, ih]

theorem stepBit_setData (x : Bool) : stepBit x (s.setData d) = (stepBit x s).map (·.setData d) := by
  simp only [stepBit, setData_uptr, setData_nodeAt]
  cases s.nodeAt s.uptr with
  | leaf y w => cases x <;> rfl
  | internal w l r =>
    dsimp only
    generalize (if x then r else l) = c
    by_cases hc : c = NodeIdx.nil
    · rw [if_pos hc, if_pos hc]; rfl
    · rw [if_neg hc, if_neg hc]
      cases s.nodeAt c <;> rfl

theorem unpackBits_setData (lim : Bool × BitCount) (p : Bits) :
    unpackBits lim p (s.setData d) = (unpackBits lim p s).setData d := by
  induction p generalizing s with
  | nil => rfl
  | cons x p ih =>
    simp only [unpackBits, limited_setData, stepBit_setData]
    split
    · exact ih { s with limhit := true }
    · cases stepBit x s with
      | none => rfl
      | some t => exact ih t

theorem seed_setData (fs : List Freq) (k : Nat) : seed fs k (s.setData d) = (seed fs k s).setData d := by
  induction fs generalizing s k with
  | nil => rfl
  | cons f fs ih =>
    simp only [seed, enqueueNode_setData, ← apply_ite (State.setData · d), ih]

theorem mergeTwo_setData : mergeTwo (s.setData d) = (mergeTwo s).map (·.setData d) := by
  match h : s.pq with
  | [] => simp [mergeTwo, extractMin, h]
  | [a] => simp [mergeTwo, extractMin, h]
  | a :: b :: q => simp only [mergeTwo, extractMin, setData_pq, h]; rfl

theorem mergeAll_setData (k : Nat) : mergeAll k (s.setData d) = (mergeAll k s).map (·.setData d) := by
  induction k generalizing s with
  | zero => rfl
  | succ k ih =>
    simp only [mergeAll, setData_pq, mergeTwo_setData]
    split
    · cases mergeTwo s with
      | none => rfl
      | some t => exact ih t
    · rfl

theorem finishBuild_setData : finishBuild (s.setData d) = (finishBuild s).map (·.setData d) := by
  cases h : s.pq with
  | nil => simp [finishBuild, peekMin, h]
  | cons e q => simp only [finishBuild, peekMin, extractMin, setData_pq, h]; rfl

theorem visit_setData (n : NodeIdx) (p : Bits) : visit n p (s.setData d) = (visit n p s).setData d := by
  simp only [visit, setData_nodeAt]
  cases s.nodeAt n <;> rfl

theorem deriveLoop_setData (k : Nat) : deriveLoop k (s.setData d) = (deriveLoop k s).map (·.setData d) := by
  induction k generalizing s with
  | zero => by_cases h : s.dstk = [] <;> simp [deriveLoop, h]
  | succ k ih =>
    simp only [deriveLoop, setData_dstk]
    cases s.dstk with
    | nil => rfl
    | cons y rest =>
      exact (congrArg (deriveLoop k) (visit_setData { s with dstk := rest } d y.1 y.2)).trans (ih _)

end

/-! ### The commands -/

section
variable {s t : State} (d : DataRegs)

theorem execBuild_setData (h : execBuild s = .next t) : execBuild (s.setData d) = .next (t.setData d) := by
  have hseed : seed (s.setData d).freq.toList 0 (s.setData d) = (seed s.freq.toList 0 s).setData d := seed_setData s d _ 0
  simp only [execBuild, hseed, setData_pq, mergeAll_setData] at h ⊢
  generalize seed s.freq.toList 0 s = seeded at h ⊢
  split at h
  next hnil => cases h; rw [if_pos hnil]; rfl
  next hne =>
    rw [if_neg hne]
    cases hm : mergeAll seeded.pq.length seeded with
    | none => rw [hm] at h; cases h; rfl
    | some merged =>
      simp only [hm, Option.map_some, finishBuild_setData] at h ⊢
      cases hf : finishBuild merged with
      | none => rw [hf] at h; cases h; rfl
      | some u => rw [hf] at h; cases h; rfl

/-- DERIVE answers a next state where its walk ends (R150). -/
theorem execDerive_next_iff : execDerive s = .next t ↔ ∃ u,
    deriveLoop derivePops { s with code := Vector.replicate 256 [], dstk := [(s.root, [])] } = some u ∧
      t = { u with phase := .codes } := by
  rw [execDerive]
  cases deriveLoop derivePops { s with code := Vector.replicate 256 [], dstk := [(s.root, [])] } <;> simp [eq_comm]

theorem execDerive_setData (h : execDerive s = .next t) : execDerive (s.setData d) = .next (t.setData d) := by
  obtain ⟨u, hu, rfl⟩ := execDerive_next_iff.mp h
  refine execDerive_next_iff.mpr ⟨u.setData d, ?_, rfl⟩
  exact (deriveLoop_setData { s with code := Vector.replicate 256 [], dstk := [(s.root, [])] } d derivePops).trans
    (congrArg (Option.map (·.setData d)) hu)

theorem execQueryNode_setData (a : Arg) (h : execQueryNode a s = .next t) :
    execQueryNode a (s.setData d) = .next (t.setData d) := by
  rw [execQueryNode] at h ⊢
  split at h
  next hlt => cases h; exact if_pos hlt
  next hge => cases h; exact if_neg hge

/-- PACK_BYTE of a symbol with a code, whatever PACC holds (R171). -/
theorem execPackByte_known (a : Arg) (hp : s.codeAt (symOperand a) ≠ []) :
    execPackByte a s = .next (appendBits (s.codeAt (symOperand a)) { s with stream := .pack }) := by
  simp [execPackByte, hp]

theorem execPackByte_setData (a : Arg) (h : execPackByte a s = .next t) :
    execPackByte a (s.setData d) = .next (t.setData d) := by
  by_cases hp : s.codeAt (symOperand a) = []
  · cases (execPackByte_unknown a s hp).symm.trans h
    exact execPackByte_unknown a (s.setData d) hp
  · cases (execPackByte_known a hp).symm.trans h
    exact (execPackByte_known a (s := s.setData d) hp).trans
      (congrArg Host.Outcome.next (appendBits_setData { s with stream := .pack } d _))

theorem execPackFlush_setData (h : execPackFlush s = .next t) : execPackFlush (s.setData d) = .next (t.setData d) := by
  simp only [execPackFlush] at h ⊢
  split at h
  next h0 => cases h; exact if_pos h0
  next h0 => cases h; exact if_neg h0

theorem execUnpackEnd_setData (h : execUnpackEnd s = .next t) : execUnpackEnd (s.setData d) = .next (t.setData d) := by
  rw [execUnpackEnd_eq] at h ⊢
  cases h; rfl

/-- UNPACK_BYTE's limit is the snapshotted one (R82). -/
theorem limitOperand_setData {c : Instr} {en : Bool} {n : BitCount} (hp : s.pend = some ⟨c, .limit en n⟩) :
    limitOperand (s.setData d) = limitOperand s := by simp only [limitOperand, setData_pend, hp]

/-- LOAD_FREQ's operand is the snapshotted one (R82). -/
theorem freqOperand_setData {c : Instr} {v : Freq} (hp : s.pend = some ⟨c, .freq v⟩) :
    freqOperand (s.setData d) = freqOperand s := by simp only [freqOperand, setData_pend, hp]

theorem execUnpackByte_setData (a : Arg) (hlim : limitOperand (s.setData d) = limitOperand s)
    (h : execUnpackByte a s = .next t) : execUnpackByte a (s.setData d) = .next (t.setData d) := by
  rw [execUnpackByte, hlim]
  cases h
  exact congrArg Host.Outcome.next (unpackBits_setData { s with stream := .unpack } d _ _)

theorem execLoadFreq_setData (a : Arg) (hv : freqOperand (s.setData d) = freqOperand s)
    (h : execLoadFreq a s = .next t) : execLoadFreq a (s.setData d) = .next (t.setData d) := by
  rw [execLoadFreq, hv]
  cases h
  rfl

/-- The data registers are no operand of a pending command: other values in them change its effect in nothing but the data
registers themselves, which READ_FREQ and RESET write and every other command leaves. -/
theorem exec_setData {p : Pending} (hp : s.pend = some p) (hfit : snapFits p = true) (h : exec p.cmd s = .next t) :
    ∃ d', exec p.cmd (s.setData d) = .next (t.setData d') := by
  obtain ⟨c, snap⟩ := p
  cases c with
  | nop => cases h; exact ⟨d, rfl⟩
  | reset => cases h; exact ⟨⟨false, 0, 0, 0⟩, rfl⟩
  | loadFreq a =>
    cases snap with
    | freq v => exact ⟨d, execLoadFreq_setData d a (freqOperand_setData d hp) h⟩
    | none => cases hfit
    | limit en n => cases hfit
  | readFreq a => cases h; exact ⟨⟨d.limitEn, _, _, d.limit⟩, rfl⟩
  | build => exact ⟨d, execBuild_setData d h⟩
  | queryNode a => exact ⟨d, execQueryNode_setData d a h⟩
  | derive => exact ⟨d, execDerive_setData d h⟩
  | queryCode a => cases h; exact ⟨d, rfl⟩
  | packByte a => exact ⟨d, execPackByte_setData d a h⟩
  | packFlush => exact ⟨d, execPackFlush_setData d h⟩
  | unpackByte a =>
    cases snap with
    | limit en n => exact ⟨d, execUnpackByte_setData d a (limitOperand_setData d hp) h⟩
    | none => cases hfit
    | freq v => cases hfit
  | unpackEnd => exact ⟨d, execUnpackEnd_setData d h⟩

end

/-- Settles O50: the write is a change of the data registers, and the pending command's effect commutes with it. -/
theorem pendingCommandIgnoresLaterWrites : Obligations.PendingCommandIgnoresLaterWrites := by
  intro s t p off v hp hfit hoff hc
  obtain ⟨d, hd⟩ := regWrite_eq_setData off v s hoff
  rw [hd]
  refine ⟨rfl, ?_⟩
  rcases (complete_next_iff s t).mp hc with ⟨hn, -⟩ | ⟨q, u, hq, he, rfl⟩
  · cases hn.symm.trans hp
  · cases hq.symm.trans hp
    obtain ⟨d', hd'⟩ := exec_setData d hq hfit he
    exact ⟨{ u with pend := none }.setData d', (complete_next_iff _ _).mpr (.inr ⟨p, u.setData d', hq, hd', rfl⟩),
      sameButDataRegs_setData _ d'⟩

end Sys2Proof.Machine
end

section
/-! The command encoding (spec/30_encoding.md R80 to R85): the decoder against the encoder, and the rows of the
opcode table as R83 prints them. -/

namespace Sys2Proof

/-! ### The decoder inverts the encoder -/

/-- R80, R84: the decoder of a word with RSV = 0 reads its OP and ARG. -/
theorem decode_packFields (a : Arg) (o : BitVec 8) : decode (packFields 0 a o) = decodeOp o a := by
  simp [decode]

/-- R81, R83: the row of a well-formed command's OP gives the command at its operand. -/
theorem decodeOp_op_arg (i : Instr) (h : i.WellFormed) : decodeOp i.op i.arg = .command i := by
  cases i with
  | nop | reset | build | derive | packFlush | unpackEnd => rfl
  | queryNode a => rfl
  | loadFreq a | readFreq a | queryCode a | packByte a | unpackByte a => exact if_pos h

theorem decode_encode (i : Instr) (h : i.WellFormed) : decode (encode i) = .command i :=
  (decode_packFields i.arg i.op).trans (decodeOp_op_arg i h)

/-! ### The decoder reads every bit -/

/-- A command answered for `op` and `a` is well-formed and has them as its OP and ARG. -/
def ReadsFields (op : BitVec 8) (a : Arg) (d : Decoded) : Prop :=
  ∀ i, d = .command i → i.WellFormed ∧ i.arg = a ∧ i.op = op

theorem ReadsFields.illegal (op : BitVec 8) (a : Arg) (why : IllegalWord) : ReadsFields op a (.illegal why) :=
  fun _ h => Decoded.noConfusion h

theorem ReadsFields.command {i : Instr} (h : i.WellFormed) : ReadsFields i.op i.arg (.command i) := by
  rintro _ ⟨⟩
  exact ⟨h, rfl, rfl⟩

theorem ReadsFields.of_noneForm {i : Instr} (h : i.WellFormed) (h0 : i.arg = 0) (a : Arg) :
    ReadsFields i.op a (noneForm i a) := by
  unfold noneForm
  split
  next ha => rw [ha, ← h0]; exact .command h
  next => exact .illegal _ _ _

/-- The commands of a row of the *sym* form: ARG is the operand, and it fits when bit 16 is 0 (R81). -/
def HasSymForm (mk : Arg → Instr) (op : BitVec 8) (name : String) : Prop :=
  ∀ a, (mk a).wellFormed = symArgOk a ∧ (mk a).arg = a ∧ (mk a).op = op ∧ (mk a).mnemonic = name

theorem hasSymForm_loadFreq : HasSymForm .loadFreq 0x10#8 "LOAD_FREQ" := fun _ => ⟨rfl, rfl, rfl, rfl⟩

theorem hasSymForm_readFreq : HasSymForm .readFreq 0x11#8 "READ_FREQ" := fun _ => ⟨rfl, rfl, rfl, rfl⟩

theorem hasSymForm_queryCode : HasSymForm .queryCode 0x31#8 "QUERY_CODE" := fun _ => ⟨rfl, rfl, rfl, rfl⟩

theorem hasSymForm_packByte : HasSymForm .packByte 0x40#8 "PACK_BYTE" := fun _ => ⟨rfl, rfl, rfl, rfl⟩

theorem hasSymForm_unpackByte : HasSymForm .unpackByte 0x50#8 "UNPACK_BYTE" := fun _ => ⟨rfl, rfl, rfl, rfl⟩

theorem ReadsFields.of_symForm {mk : Arg → Instr} {op : BitVec 8} {n : String} (h : HasSymForm mk op n) (a : Arg) :
    ReadsFields op a (symForm mk a) := by
  obtain ⟨hwf, ha, ho, -⟩ := h a
  unfold symForm
  split
  next hs =>
    rintro _ ⟨⟩
    exact ⟨hwf.trans hs, ha, ho⟩
  next => exact .illegal _ _ _

/-- One comparison of OP in `decodeOp`. -/
theorem ReadsFields.ite {op k : BitVec 8} {a : Arg} {d e : Decoded} (hd : ReadsFields k a d) (he : ReadsFields op a e) :
    ReadsFields op a (if op = k then d else e) := by
  split
  next h => rwa [h]
  next => exact he

/-- R83: the comparisons of OP, row by row. -/
theorem decodeOp_readsFields (op : BitVec 8) (a : Arg) : ReadsFields op a (decodeOp op a) :=
  .ite (.of_noneForm (i := .nop) rfl rfl a) <|
  .ite (.of_noneForm (i := .reset) rfl rfl a) <|
  .ite (.of_symForm hasSymForm_loadFreq a) <|
  .ite (.of_symForm hasSymForm_readFreq a) <|
  .ite (.of_noneForm (i := .build) rfl rfl a) <|
  .ite (.command (i := .queryNode a) rfl) <|
  .ite (.of_noneForm (i := .derive) rfl rfl a) <|
  .ite (.of_symForm hasSymForm_queryCode a) <|
  .ite (.of_symForm hasSymForm_packByte a) <|
  .ite (.of_noneForm (i := .packFlush) rfl rfl a) <|
  .ite (.of_symForm hasSymForm_unpackByte a) <|
  .ite (.of_noneForm (i := .unpackEnd) rfl rfl a) <|
  .illegal op a _

/-- A word with RSV = 0 is the encoding of the command with its OP and ARG. -/
theorem encode_eq_of_fields {i : Instr} {w : Word} (hr : rsvField w = 0) (ha : i.arg = argField w)
    (ho : i.op = opField w) : encode i = w := by
  rw [encode, ha, ho, ← hr]
  exact packFields_of_fields w

/-- R84: a word that decodes to a command has RSV = 0, and its OP and ARG are the command's. -/
theorem encode_of_decode {w : Word} {i : Instr} (h : decode w = .command i) : i.WellFormed ∧ encode i = w := by
  unfold decode at h
  split at h
  next hr =>
    obtain ⟨hwf, ha, ho⟩ := decodeOp_readsFields _ _ i h
    exact ⟨hwf, encode_eq_of_fields hr ha ho⟩
  next => cases h

/-- R84: the words that decode to a command are its encoding, where it has one. -/
theorem decode_eq_command_iff (w : Word) (i : Instr) : decode w = .command i ↔ i.WellFormed ∧ encode i = w := by
  constructor
  · exact encode_of_decode
  · rintro ⟨hwf, rfl⟩
    exact decode_encode i hwf

/-- R85: a word is Illegal exactly when it decodes to no command. -/
theorem decode_illegal_iff (w : Word) : (∃ why, decode w = .illegal why) ↔ ∀ i, decode w ≠ .command i := by
  cases decode w <;> simp

/-- Settles O1, by the three fields of the encoding and the row of the command's OP. -/
theorem decodeOfEncode : Obligations.DecodeOfEncode := decode_encode

/-- Settles O2: the decoder's answer has the word's own OP and ARG, and RSV is 0. -/
theorem encodeOfDecode : Obligations.EncodeOfDecode := fun _ _ h => encode_of_decode h

/-- Settles O5: ten closed words, each evaluated by the decoder. -/
theorem sampleWordsDecode : Obligations.SampleWordsDecode := by
  unfold Obligations.SampleWordsDecode
  decide

/-! ### The rows of the opcode table -/

/-- Words are equal exactly when their fields are (R80). -/
theorem packFields_inj {r r' : BitVec 15} {a a' : Arg} {o o' : BitVec 8} :
    packFields r a o = packFields r' a' o' ↔ r = r' ∧ a = a' ∧ o = o' := by
  constructor
  · intro h
    exact ⟨by simpa using congrArg rsvField h, by simpa using congrArg argField h, by simpa using congrArg opField h⟩
  · rintro ⟨rfl, rfl, rfl⟩
    rfl

/-- A mask acts on each field by itself. -/
theorem packFields_and (r r' : BitVec 15) (a a' : Arg) (o o' : BitVec 8) :
    packFields r a o &&& packFields r' a' o' = packFields (r &&& r') (a &&& a') (o &&& o') := by
  apply BitVec.eq_of_getLsbD_eq
  intro k _
  simp only [BitVec.getLsbD_and, packFields_getLsbD]
  split
  · rfl
  · split <;> rfl

/-- R83: what a mask that keeps RSV and OP whole says of a word with the row's value, whose ARG is 0. -/
theorem masked_eq_iff (w : Word) (m : Arg) (o : BitVec 8) :
    w &&& packFields (.allOnes 15) m (.allOnes 8) = packFields 0 0 o ↔
      rsvField w = 0 ∧ argField w &&& m = 0 ∧ opField w = o := by
  have hfields : w &&& packFields (.allOnes 15) m (.allOnes 8) =
      packFields (rsvField w) (argField w &&& m) (opField w) := by
    calc w &&& packFields (.allOnes 15) m (.allOnes 8)
        = packFields (rsvField w) (argField w) (opField w) &&& packFields (.allOnes 15) m (.allOnes 8) := by
          rw [packFields_of_fields]
      _ = packFields (rsvField w) (argField w &&& m) (opField w) := by
          rw [packFields_and, BitVec.and_allOnes, BitVec.and_allOnes]
  rw [hfields, packFields_inj]

/-- R81: the mask 0xFFFF00FF keeps bit 16 of ARG. -/
theorem and_bit8_eq_zero_iff (a : Arg) : a &&& 0x100#9 = 0 ↔ symArgOk a = true := by
  have h : a &&& 0x100#9 = if a.getLsbD 8 then 0x100#9 else 0 := BitVec.and_twoPow a 8
  rw [h, symArgOk]
  cases a.getLsbD 8 <;> decide

/-- A word the row's mask and value tell is the word of a well-formed command with the row's name. -/
def RowNamesCommand (r : OpRow) : Prop :=
  ∀ w : Word, w &&& r.mask = r.value → ∃ i : Instr, (i.WellFormed ∧ encode i = w) ∧ i.mnemonic = r.mnemonic

/-- A *none* row: its value is its one word (R81). -/
theorem noneRow_namesCommand (i : Instr) (h : i.WellFormed) :
    RowNamesCommand ⟨i.mnemonic, encode i, 0xFFFFFFFF#32⟩ := by
  intro w hw
  have hmask : w &&& 0xFFFFFFFF#32 = w := BitVec.and_allOnes
  exact ⟨i, ⟨h, hw.symm.trans hmask⟩, rfl⟩

/-- A *sym* row: bit 16 of its words is 0 and bits 15:8 are free (R81). -/
theorem symRow_namesCommand {mk : Arg → Instr} {o : BitVec 8} {n : String} (h : HasSymForm mk o n) :
    RowNamesCommand ⟨n, packFields 0 0 o, 0xFFFF00FF#32⟩ := by
  intro w hw
  obtain ⟨hr, hb, hop⟩ := (masked_eq_iff w 0x100#9 o).mp hw
  obtain ⟨hwf, ha, ho, hn⟩ := h (argField w)
  exact ⟨mk (argField w), ⟨hwf.trans ((and_bit8_eq_zero_iff _).mp hb),
    encode_eq_of_fields hr ha (ho.trans hop.symm)⟩, hn⟩

/-- The *idx* row: ARG is free (R81). -/
theorem idxRow_namesCommand : RowNamesCommand ⟨"QUERY_NODE", 0x00000021#32, 0xFFFE00FF#32⟩ := by
  intro w hw
  obtain ⟨hr, -, hop⟩ := (masked_eq_iff w 0 0x21#8).mp hw
  exact ⟨.queryNode (argField w), ⟨rfl, encode_eq_of_fields hr rfl hop.symm⟩, rfl⟩

/-- R83: the twelve rows, each by its operand form. -/
theorem row_namesCommand : ∀ r ∈ opcodeTable, RowNamesCommand r := by
  simp only [opcodeTable, List.forall_mem_cons]
  exact ⟨noneRow_namesCommand .nop rfl,
    noneRow_namesCommand .reset rfl,
    symRow_namesCommand hasSymForm_loadFreq,
    symRow_namesCommand hasSymForm_readFreq,
    noneRow_namesCommand .build rfl,
    idxRow_namesCommand,
    noneRow_namesCommand .derive rfl,
    symRow_namesCommand hasSymForm_queryCode,
    symRow_namesCommand hasSymForm_packByte,
    noneRow_namesCommand .packFlush rfl,
    symRow_namesCommand hasSymForm_unpackByte,
    noneRow_namesCommand .unpackEnd rfl,
    List.forall_mem_nil _⟩

/-- Every well-formed command's word is told by the row of its name (R83). -/
theorem exists_row (i : Instr) : Laws.TableRow.Statement i := by
  cases i with
  | nop => exact Laws.TableRow.nop
  | reset => exact Laws.TableRow.reset
  | loadFreq a => exact Laws.TableRow.loadFreq a
  | readFreq a => exact Laws.TableRow.readFreq a
  | build => exact Laws.TableRow.build
  | queryNode a => exact Laws.TableRow.queryNode a
  | derive => exact Laws.TableRow.derive
  | queryCode a => exact Laws.TableRow.queryCode a
  | packByte a => exact Laws.TableRow.packByte a
  | packFlush => exact Laws.TableRow.packFlush
  | unpackByte a => exact Laws.TableRow.unpackByte a
  | unpackEnd => exact Laws.TableRow.unpackEnd

/-- No name stands in two rows. -/
theorem opcodeTable_mnemonic_inj {r q : OpRow} (hr : r ∈ opcodeTable) (hq : q ∈ opcodeTable)
    (h : r.mnemonic = q.mnemonic) : r = q := by
  have hall : ∀ r ∈ opcodeTable, ∀ q ∈ opcodeTable, r.mnemonic = q.mnemonic → r = q := by decide
  exact hall r hr q hq h

/-- R83: a row's mask and value tell the words that decode to a command with the row's name. -/
theorem masked_eq_value_iff {r : OpRow} (hr : r ∈ opcodeTable) (w : Word) :
    w &&& r.mask = r.value ↔ ∃ i, decode w = .command i ∧ i.mnemonic = r.mnemonic := by
  simp only [decode_eq_command_iff]
  constructor
  · exact row_namesCommand r hr w
  · rintro ⟨i, ⟨hwf, rfl⟩, hn⟩
    obtain ⟨q, hq, hqn, hqv⟩ := exists_row i hwf
    cases opcodeTable_mnemonic_inj hr hq (hn.symm.trans hqn.symm)
    exact hqv

/-- R83: one word decodes to one command, whose name stands in one row. -/
theorem row_unique {r q : OpRow} (hr : r ∈ opcodeTable) (hq : q ∈ opcodeTable) {w : Word}
    (hwr : w &&& r.mask = r.value) (hwq : w &&& q.mask = q.value) : r = q := by
  obtain ⟨i, hi, hin⟩ := (masked_eq_value_iff hr w).mp hwr
  obtain ⟨j, hj, hjn⟩ := (masked_eq_value_iff hq w).mp hwq
  cases hi.symm.trans hj
  exact opcodeTable_mnemonic_inj hr hq (hin.symm.trans hjn)

/-- Settles O3: each row names the commands with its name, and the names differ. -/
theorem opcodeTableRows : Obligations.OpcodeTableRows :=
  ⟨fun _ hr w => masked_eq_value_iff hr w, fun _ _ hr _ hq hwr hwq => row_unique hr hq hwr hwq⟩

/-- Settles O4: a word decodes to a command exactly when a row tells it. -/
theorem illegalExactlyOutsideTheTable : Obligations.IllegalExactlyOutsideTheTable := by
  intro w
  rw [decode_illegal_iff]
  constructor
  · intro hno r hr hw
    obtain ⟨i, hi, -⟩ := (masked_eq_value_iff hr w).mp hw
    exact hno i hi
  · intro hno i hi
    obtain ⟨hwf, rfl⟩ := encode_of_decode hi
    obtain ⟨r, hr, -, hw⟩ := exists_row i hwf
    exact hno r hr hw

end Sys2Proof
end

section
/-! Issue and completion of a command (spec/40_control.md R100, R101, R104): an equation for each outcome of a CMD write, and
what the engine's step runs. -/

namespace Sys2Proof.Machine

/-! ### Legality (R104) -/

/-- Settles O7, command by command: each row of the table is a condition on three finite fields. -/
theorem legalityTable : Obligations.LegalityTable := by
  intro p st cl a
  refine ⟨?_, rfl, beq_iff_eq, ?_, beq_iff_eq, ?_, beq_iff_eq, beq_iff_eq, ?_, ?_, ?_, ?_⟩
  · cases p <;> simp [legal]
  · cases p <;> simp [legal]
  · simp [legal]
  · cases st <;> simp [legal, packOpen]
  · cases st <;> simp [legal, packOpen]
  · cases st <;> simp [legal, unpackOpen]
  · cases st <;> simp [legal, unpackOpen]

/-! ### Issue: an equation for each of its checks (R100) -/

section
variable {w : Word} {c : Instr} {s : State}

theorem issue_busy (hp : s.pend ≠ none) : issue w s = { s with ovr := true } :=
  if_pos (Option.isSome_iff_ne_none.mpr hp)

theorem issue_error_reset (hp : s.pend = none) (he : s.phase = .error) : issue resetWord s = accept .reset s := by
  simp [issue, State.busy, hp, he]

theorem issue_error_other (hp : s.pend = none) (he : s.phase = .error) (hw : w ≠ resetWord) : issue w s = s := by
  simp [issue, State.busy, hp, he, hw]

theorem issue_illegal (hp : s.pend = none) (he : s.phase ≠ .error) (hd : ∀ i, decode w ≠ .command i) :
    issue w s = raise .illegalOpcode s := by
  obtain ⟨why, hwhy⟩ := (decode_illegal_iff w).mpr hd
  simp [issue, State.busy, hp, he, hwhy]

theorem issue_notLegal (hp : s.pend = none) (he : s.phase ≠ .error) (hd : decode w = .command c)
    (hl : legal c s.phase s.stream s.closed = false) : issue w s = raise .illegalSequence s := by
  simp [issue, State.busy, hp, he, hd, hl]

theorem issue_noRoom (hp : s.pend = none) (he : s.phase ≠ .error) (hd : decode w = .command c)
    (hl : legal c s.phase s.stream s.closed = true) (hroom : hasRoom c s = false) :
    issue w s = { s with rej := true } := by
  simp [issue, State.busy, hp, he, hd, hl, hroom]

theorem issue_accept (hp : s.pend = none) (he : s.phase ≠ .error) (hd : decode w = .command c)
    (hl : legal c s.phase s.stream s.closed = true) (hroom : hasRoom c s = true) : issue w s = accept c s := by
  simp [issue, State.busy, hp, he, hd, hl, hroom]

/-- With nothing pending, an exception entry changes PHASE and ERR alone (R211). -/
theorem raise_idle (e : Err) (hp : s.pend = none) : raise e s = { s with phase := .error, err := e } := by
  rw [raise, ← hp]

theorem step_cmdWrite {rest : List Event} (hr : s.inReset = false) (hag : s.agenda = .access (.write 4 0x00 w) :: rest) :
    step s = .next (issue w { s with agenda := rest }) :=
  step_access s (.write 4 0x00 w) rest hr rfl rfl (Nat.zero_le _) hag

end

/-- Settles O6: the write issues, and the checks of the issue decide. -/
theorem cmdWriteOutcomes : Obligations.CmdWriteOutcomes := by
  intro s w rest hr hag r
  rw [step_cmdWrite hr hag]
  refine ⟨fun hp => congrArg _ (issue_busy hp), fun hp he hw => ?_, fun hp he hw => congrArg _ (issue_error_other hp he hw),
    fun hp he hd => congrArg _ ?_, fun c hp he hd => ⟨fun hl => congrArg _ ?_, fun hl ho => congrArg _ ?_,
      fun hl ho => congrArg _ ?_, ?_⟩⟩
  · rw [hw]
    exact congrArg _ (issue_error_reset hp he)
  · exact (issue_illegal (s := r) hp he hd).trans (raise_idle _ hp)
  · exact (issue_notLegal (s := r) hp he hd hl).trans (raise_idle _ hp)
  · exact issue_noRoom hp he hd hl ((hasRoom_eq_false_iff c r).mpr ho)
  · rw [← snapshot_agenda c s rest]
    exact issue_accept hp he hd hl ((hasRoom_iff c r).mpr ho)
  · cases c <;> rfl

/-! ### Completion (R101) -/

/-- R101: the engine's step on a pending command. -/
theorem complete_of_pend {s : State} {p : Pending} (hp : s.pend = some p) :
    complete s = match exec p.cmd s with
      | .next t => .next { t with pend := none }
      | .fault r => .fault r
      | .refused r => .refused r := by
  cases he : exec p.cmd s <;> simp [complete, hp, he]

theorem complete_of_exec {s t : State} {p : Pending} (hp : s.pend = some p) (he : exec p.cmd s = .next t) :
    complete s = .next { t with pend := none } := (complete_next_iff s _).mpr (.inr ⟨p, t, hp, he, rfl⟩)

/-- Settles O9: both the engine's event and the empty agenda are the engine's step. -/
theorem engineStepExecutesThePendingCommand : Obligations.EngineStepExecutesThePendingCommand := by
  intro s p rest hp hag
  have hstep : step s = complete { s with agenda := rest } := by
    rcases hag with hag | ⟨hag, rfl⟩
    · exact step_cons s .engine rest hag
    · rw [step_nil s hag, ← hag]
  rw [hstep]
  exact complete_of_pend (s := { s with agenda := rest }) hp

/-- Settles O12: NOP and RESET answer their state at once, the table commands write one entry or one pair of registers. -/
theorem controlAndTableCommandsComplete : Obligations.ControlAndTableCommandsComplete := by
  intro s a
  refine ⟨rfl, rfl, ⟨_, rfl, rfl, fun x => ?_⟩, ⟨_, rfl, rfl, ?_⟩⟩
  · rw [freqAt_setFreq, symOperand_eq_extract]
  · rw [← symOperand_eq_extract]
    exact halves_append (s.freqAt (symOperand a))

end Sys2Proof.Machine
end

section
/-! Command lines (spec/70_reset_and_hazards.md R253): what one does from an idle block, and the lines of NOP and RESET
(spec/40_control.md R102, R103). -/

namespace Sys2Proof.Machine

/-- A command line outside reset is the CMD write and then the engine's step. -/
theorem step_commandLine {s : State} {w : Word} {rest : List Event} (hr : s.inReset = false)
    (hag : s.agenda = .command w :: rest) : step s = complete (issue w { s with agenda := rest }) := by
  have hwrite : hostAccess (.write 4 Reg.cmd.offset w) { s with agenda := rest } =
      .next (issue w { s with agenda := rest }) :=
    step_cmdWrite (s := { s with agenda := .access (.write 4 0x00 w) :: rest }) hr rfl
  simp only [step_cons s _ rest hag, perform, commandLine, hwrite]

/-- Settles O8: the line's write accepts the command, and the engine's step runs it. -/
theorem stepRunsTheDecodedCommand : Obligations.StepRunsTheDecodedCommand := by
  intro s w i rest hag hr hp he hd hl ho
  have hroom : hasRoom i { s with agenda := rest } = true := (hasRoom_iff _ _).mpr ho
  rw [step_commandLine hr hag, issue_accept (s := { s with agenda := rest }) hp he hd hl hroom,
    ← snapshot_agenda i s rest]
  exact complete_of_pend (accept_pend i { s with agenda := rest })

section
variable {s : State} {w : Word} {rest : List Event}

/-- In ERROR a line whose word is not RESET's changes nothing (R100 step 2). -/
theorem HostIssues.step_error (h : HostIssues s w rest) (he : s.phase = .error) (hw : w ≠ resetWord) :
    step s = .next { s with agenda := rest } := by
  rw [step_commandLine h.outOfReset h.agenda, issue_error_other (s := { s with agenda := rest }) h.idle he hw]
  exact complete_none { s with agenda := rest } h.idle

/-- Outside ERROR a line with an Illegal word raises IllegalOpcode (R100 step 3). -/
theorem HostIssues.step_illegal (h : HostIssues s w rest) (he : s.phase ≠ .error) (hd : ∀ i, decode w ≠ .command i) :
    step s = .next { s with agenda := rest, phase := .error, err := .illegalOpcode } := by
  rw [step_commandLine h.outOfReset h.agenda, issue_illegal (s := { s with agenda := rest }) h.idle he hd,
    complete_none _ (raise_pend _ _)]
  exact congrArg _ (raise_idle _ h.idle)

/-- A line whose write is accepted runs the command to its end (R100 step 6, R101). -/
theorem HostIssues.step_accepted (h : HostIssues s w rest) {c : Instr} {t : State}
    (ha : issue w { s with agenda := rest } = accept c { s with agenda := rest })
    (hx : exec c (accept c { s with agenda := rest }) = .next t) : step s = .next { t with pend := none } := by
  rw [step_commandLine h.outOfReset h.agenda, ha]
  exact complete_of_exec (accept_pend c _) hx

/-- A command that reserves no room is never rejected: OUT holds at most 64 bytes. -/
theorem HostIssues.hasRoom_unreserved (h : HostIssues s w rest) {c : Instr} (hc : worst c = 0) :
    hasRoom c { s with agenda := rest } = true := by
  rw [hasRoom_iff, hc]; exact h.out

end

/-! ### The words of a row of the *none* form (spec/30_encoding.md R81) -/

/-- The row of a command whose form is *none* names no other command. -/
theorem eq_of_noneRow {i j : Instr} (hrow : ∀ a, decodeOp i.op a = noneForm i a) (hj : j.WellFormed)
    (ho : j.op = i.op) : j = i := by
  have h := decodeOp_op_arg j hj
  rw [ho, hrow, noneForm] at h
  split at h <;> cases h
  rfl

/-- Of the words with the OP of a *none* row, all but the command's own are Illegal. -/
theorem not_command_of_noneRow {i : Instr} (hrow : ∀ a, decodeOp i.op a = noneForm i a) {w : Word}
    (ho : opField w = i.op) (hw : w ≠ encode i) (j : Instr) : decode w ≠ .command j := by
  intro hd
  obtain ⟨hwf, rfl⟩ := encode_of_decode hd
  exact hw (congrArg encode (eq_of_noneRow hrow hwf ((opField_packFields _ _ _).symm.trans ho)))

theorem legal_nop {p : Phase} (h : p ≠ .error) (st : Stream) (cl : Bool) : legal .nop p st cl = true := by
  obtain ⟨hnop, -⟩ := legalityTable p st cl 0
  exact hnop.mpr h

/-- Settles O23: the word 0 is NOP's and every other word of its row is Illegal. -/
theorem nopCommandLine : Obligations.NopCommandLine := by
  intro s w rest h hop r
  have hne : w ≠ resetWord := by
    rintro rfl
    exact absurd hop (by decide)
  refine ⟨fun he => h.step_error he hne, fun he hw => ?_, fun he hw => ?_⟩
  · exact h.step_illegal he (not_command_of_noneRow (i := .nop) (fun _ => rfl) hop hw)
  · have hd : decode w = .command .nop := hw ▸ decode_encode .nop rfl
    rw [h.step_accepted (issue_accept (s := r) h.idle he hd (legal_nop he _ _) (h.hasRoom_unreserved rfl)) rfl, ← h.idle]
    rfl

/-- The word of RESET is accepted in every phase (R100 steps 2 to 6). -/
theorem HostIssues.issue_reset {s : State} {rest : List Event} (h : HostIssues s resetWord rest) :
    issue resetWord { s with agenda := rest } = accept .reset { s with agenda := rest } := by
  by_cases he : s.phase = .error
  · exact issue_error_reset (s := { s with agenda := rest }) h.idle he
  · exact issue_accept (s := { s with agenda := rest }) h.idle he (decode_encode .reset rfl) rfl (h.hasRoom_unreserved rfl)

/-- Settles O24: RESET's word is accepted unless BUSY, and every other word of its row is Illegal. -/
theorem resetCommandLine : Obligations.ResetCommandLine := by
  refine ⟨fun s rest hr hp hag => ?_, fun s w rest h hop => ⟨?_, fun hw he => h.step_error he hw, fun hw he => ?_⟩⟩
  · rw [step_cmdWrite hr hag]
    exact congrArg _ (issue_busy (s := { s with agenda := rest }) hp)
  · rintro rfl
    rw [h.step_accepted h.issue_reset rfl]
    simp only [resetBlock, accept_inReset, h.outOfReset]
    rfl
  · exact h.step_illegal he (not_command_of_noneRow (i := .reset) (fun _ => rfl) hop hw)

end Sys2Proof.Machine
end

section
/-! Every pending command completes (spec/40_control.md R101, spec/70_reset_and_hazards.md R251): which commands answer a
next state everywhere, and that no event faults. -/

namespace Sys2Proof.Machine

/-- BUILD always ends (R126). -/
theorem exists_execBuild (s : State) : ∃ t, execBuild s = .next t := by
  unfold execBuild
  dsimp only
  split
  · exact ⟨_, rfl⟩
  · split
    · exact ⟨_, rfl⟩
    · split <;> exact ⟨_, rfl⟩

/-- Every command ends, but for DERIVE where the arena is no tree (log entry 8). -/
theorem exists_exec (c : Instr) (s : State) (hderive : c = .derive → ∃ T, BuiltTree s T) : ∃ t, exec c s = .next t := by
  cases c with
  | nop | reset | loadFreq a | readFreq a | queryCode a | unpackByte a => exact ⟨_, rfl⟩
  | build => exact exists_execBuild s
  | queryNode a =>
    simp only [exec_queryNode, execQueryNode]
    split <;> exact ⟨_, rfl⟩
  | derive =>
    obtain ⟨T, hT⟩ := hderive rfl
    exact ⟨_, execDerive_eq s T hT.spans hT.size_le⟩
  | packByte a =>
    by_cases hp : s.codeAt (symOperand a) = []
    · exact ⟨_, execPackByte_unknown a s hp⟩
    · exact ⟨_, execPackByte_known a hp⟩
  | packFlush =>
    obtain ⟨new, h, -⟩ := execPackFlush_eq s
    exact ⟨_, h⟩
  | unpackEnd => exact ⟨_, execUnpackEnd_eq s⟩

/-- Under the invariant the engine's step answers a next state: DERIVE is pending only with a tree (R104). -/
theorem Inv.exists_complete {s : State} (h : Inv s) : ∃ t, complete s = .next t := by
  cases hp : s.pend with
  | none => exact ⟨s, complete_none s hp⟩
  | some p =>
    obtain ⟨hl, -⟩ := h.pending p hp
    have hderive : p.cmd = .derive → ∃ T, BuiltTree s T := fun hc => h.tree (.inl (by simpa [legal, hc] using hl))
    obtain ⟨t, ht⟩ := exists_exec p.cmd s hderive
    exact ⟨_, complete_of_exec hp ht⟩

/-- An access never faults: it is refused or performed. -/
theorem hostAccess_ne_fault (a : HostAccess) (s : State) (r : Fault) : hostAccess a s ≠ .fault r := by
  rcases hostAccess_cases a s with ⟨-, e⟩ | ⟨-, -, e⟩ | ⟨-, -, -, -, e⟩ | ⟨-, -, -, -, e⟩ <;> rw [e] <;> nofun

theorem Inv.complete_ne_fault {s : State} (h : Inv s) (r : Fault) : complete s ≠ .fault r := by
  obtain ⟨t, ht⟩ := h.exists_complete
  rw [ht]; nofun

/-- A command line is refused in reset and never faults. -/
theorem Inv.commandLine_ne_fault {s : State} (h : Inv s) (w : Word) (r : Fault) : commandLine w s ≠ .fault r := by
  rw [commandLine]
  cases ha : hostAccess (.write 4 Reg.cmd.offset w) s with
  | next t =>
    obtain ⟨hr, -, -, -, rfl⟩ := hostAccess_next _ s t ha
    exact (inv_performAccess h hr _).complete_ne_fault r
  | fault q => exact absurd ha (hostAccess_ne_fault _ s q)
  | refused q => nofun

theorem Inv.step_ne_fault {s : State} (h : Inv s) (r : Fault) : step s ≠ .fault r := by
  cases hag : s.agenda with
  | nil => rw [step_nil s hag]; exact h.complete_ne_fault r
  | cons e rest =>
    rw [step_cons s e rest hag]
    cases e with
    | access a => exact hostAccess_ne_fault a _ r
    | engine => exact (h.withAgenda rest).complete_ne_fault r
    | command w => exact (h.withAgenda rest).commandLine_ne_fault w r
    | resetInput b => nofun

/-- Settles O45: the invariant gives DERIVE its tree, and every other command ends in every state. -/
theorem pendingCommandCompletes : Obligations.PendingCommandCompletes := by
  intro s h
  refine ⟨h.step_ne_fault, ?_⟩
  rintro ⟨c, -, hag | ⟨rest, hag⟩⟩
  · obtain ⟨t, ht⟩ := h.exists_complete
    exact ⟨t, by rw [step_nil s hag, ht], complete_pend s t ht⟩
  · obtain ⟨t, ht⟩ := (h.withAgenda rest).exists_complete
    exact ⟨t, by rw [step_cons s _ rest hag]; exact ht, complete_pend _ t ht⟩

end Sys2Proof.Machine
end

section
/-! The reserved room (spec/40_control.md R105): how many bytes each command can push, on any arena and any table. -/

namespace Sys2Proof.Machine

section
variable {s t : State}

/-! ### BUILD and DERIVE push nothing -/

theorem seed_out (fs : List Freq) (k : Nat) (s : State) : (seed fs k s).out = s.out := by
  induction fs generalizing k s with
  | nil => rfl
  | cons f fs ih => rw [seed, ih]; split <;> rfl

theorem mergeTwo_out (h : mergeTwo s = some t) : t.out = s.out := by
  match hp : s.pq with
  | [] => simp [mergeTwo, extractMin, hp] at h
  | [a] => simp [mergeTwo, extractMin, hp] at h
  | a :: b :: q =>
    simp only [mergeTwo, extractMin, hp, Option.some.injEq] at h
    rw [← h]; rfl

theorem mergeAll_out {k : Nat} (h : mergeAll k s = some t) : t.out = s.out := by
  induction k generalizing s with
  | zero => cases h; rfl
  | succ k ih =>
    rw [mergeAll] at h
    split at h
    · cases hm : mergeTwo s with
      | none => rw [hm] at h; cases h
      | some u => rw [hm] at h; exact (ih h).trans (mergeTwo_out hm)
    · cases h; rfl

theorem finishBuild_out (h : finishBuild s = some t) : t.out = s.out := by
  cases hp : s.pq with
  | nil => simp [finishBuild, peekMin, hp] at h
  | cons e q =>
    simp only [finishBuild, peekMin, extractMin, hp, List.head?_cons, Option.some.injEq] at h
    rw [← h]

theorem execBuild_out (h : execBuild s = .next t) : t.out = s.out := by
  have hseed := seed_out s.freq.toList 0 s
  unfold execBuild at h
  dsimp only at h
  split at h
  · cases h; exact hseed
  · split at h
    · cases h; exact hseed
    next merged hm =>
      have hmerged := (mergeAll_out hm).trans hseed
      split at h
      · cases h; exact hmerged
      next u hu => cases h; exact (finishBuild_out hu).trans hmerged

theorem visit_out (n : NodeIdx) (p : Bits) (s : State) : (visit n p s).out = s.out := by
  rw [visit]; split <;> rfl

theorem deriveLoop_out {k : Nat} (h : deriveLoop k s = some t) : t.out = s.out := by
  induction k generalizing s with
  | zero =>
    rw [deriveLoop] at h
    split at h <;> cases h
    rfl
  | succ k ih =>
    rw [deriveLoop] at h
    split at h
    · cases h; rfl
    · exact (ih h).trans (visit_out _ _ _)

theorem execDerive_out (h : execDerive s = .next t) : t.out = s.out := by
  obtain ⟨u, hu, rfl⟩ := execDerive_next_iff.mp h
  simpa using deriveLoop_out hu

/-! ### The stream commands -/

/-- A stream bit pushes at most one byte. -/
theorem stepBit_out_le {x : Bool} (h : stepBit x s = some t) : t.out.length ≤ s.out.length + 1 := by
  rcases stepBit_cases x s with ⟨y, w, -, -, he⟩ | ⟨y, w, -, -, he⟩ | ⟨w, l, r, -, -, he⟩ | ⟨w, l, r, y, v, -, -, -, he⟩ |
    ⟨w, l, r, v, a, b, -, -, -, he⟩ <;> rw [he] at h <;> cases h <;> simp

theorem unpackBits_out_le (lim : Bool × BitCount) (xs : Bits) (s : State) :
    (unpackBits lim xs s).out.length ≤ s.out.length + xs.length := by
  induction xs generalizing s with
  | nil => exact Nat.le_refl _
  | cons x xs ih =>
    rw [unpackBits, List.length_cons]
    split
    · exact Nat.le_trans (ih { s with limhit := true }) (by simp)
    · split
      · simp
      next t ht =>
        have := ih t
        have := stepBit_out_le ht
        omega

/-- PACK_BYTE pushes at most 32 bytes: 7 bits and a code of 255 are 262. -/
theorem execPackByte_out_le {a : Arg} (hacc : s.pacc.length ≤ 7) (hcode : ∀ x, (s.codeAt x).length ≤ 255)
    (h : execPackByte a s = .next t) : t.out.length ≤ s.out.length + 32 := by
  by_cases hp : s.codeAt (symOperand a) = []
  · cases (execPackByte_unknown a s hp).symm.trans h
    exact Nat.le_add_right _ _
  · obtain ⟨acc, new, hx, hlen, -⟩ := execPackByte_eq a s (Nat.lt_succ_of_le hacc) hp
    cases hx.symm.trans h
    have := hcode (symOperand a)
    simp only [List.length_append]
    omega

theorem execPackFlush_out_le (h : execPackFlush s = .next t) : t.out.length ≤ s.out.length + 1 := by
  obtain ⟨new, hx, hnew⟩ := execPackFlush_eq s
  cases hx.symm.trans h
  simp only [List.length_append]
  omega

end

/-- Settles O49, command by command: PACK_BYTE, PACK_FLUSH and UNPACK_BYTE push within their figures, the others nothing. -/
theorem outputFitsTheReservation : Obligations.OutputFitsTheReservation := by
  refine ⟨fun c => by cases c <;> rfl, fun s t c hacc hcode h => ?_⟩
  cases c with
  | nop | loadFreq a | readFreq a | queryCode a => cases h; exact Nat.le_refl _
  | reset => cases h; exact Nat.zero_le _
  | build => rw [execBuild_out h]; exact Nat.le_add_right _ _
  | queryNode a => obtain ⟨i, w0, w1, w2, rfl⟩ := execQueryNode_frame h; exact Nat.le_refl _
  | derive => rw [execDerive_out h]; exact Nat.le_add_right _ _
  | packByte a => exact execPackByte_out_le hacc hcode h
  | packFlush => exact execPackFlush_out_le h
  | unpackByte a => cases h; exact unpackBits_out_le _ (byteBits (symOperand a)) { s with stream := .unpack }
  | unpackEnd => cases (execUnpackEnd_eq s).symm.trans h; exact Nat.le_refl _

end Sys2Proof.Machine
end

section
/-! The command lines of the table commands (spec/41_freq_table.md R110, R111), by the words of a row of the *sym* form
(spec/30_encoding.md R81). -/

namespace Sys2Proof.Machine

/-! ### The words of a row of the *sym* form -/

section
variable {mk : Arg → Instr} {op : BitVec 8} {name : String} {w : Word}

/-- A word with the OP of a *sym* row and bits 31:16 = 0 is the row's command at ARG. -/
theorem decode_of_symRow (hform : HasSymForm mk op name) (ho : opField w = op) (h0 : w.extractLsb' 16 16 = 0) :
    decode w = .command (mk (argField w)) := by
  obtain ⟨hr, hs⟩ := (highHalf_eq_zero_iff w).mp h0
  obtain ⟨hwf, ha, hop, -⟩ := hform (argField w)
  exact (decode_eq_command_iff w _).mpr ⟨hwf.trans hs, encode_eq_of_fields hr ha (hop.trans ho.symm)⟩

/-- A *sym* row gives a command to no ARG with bit 8 set. -/
theorem symArgOk_of_symForm {a : Arg} {i : Instr} (h : symForm mk a = .command i) : symArgOk a = true := by
  unfold symForm at h
  split at h
  next hs => exact hs
  next => cases h

/-- A word with the OP of a *sym* row and bits 31:16 not 0 is Illegal. -/
theorem not_command_of_symRow (hrow : ∀ a, decodeOp op a = symForm mk a) (ho : opField w = op)
    (h0 : w.extractLsb' 16 16 ≠ 0) (i : Instr) : decode w ≠ .command i := by
  intro hd
  obtain ⟨hwf, rfl⟩ := encode_of_decode hd
  have hop : i.op = op := (opField_packFields _ _ _).symm.trans ho
  have hform : symForm mk i.arg = .command i := by rw [← hrow, ← hop, decodeOp_op_arg i hwf]
  refine h0 ((highHalf_eq_zero_iff _).mpr ⟨rsvField_packFields _ _ _, ?_⟩)
  rw [encode, argField_packFields]
  exact symArgOk_of_symForm hform

end

/-! ### Outcomes of a command line -/

section
variable {s : State} {w : Word} {rest : List Event}

/-- Only the OP 0x01 is RESET's. -/
theorem ne_resetWord {op : BitVec 8} (ho : opField w = op) (hne : op ≠ 0x01#8) : w ≠ resetWord := by
  rintro rfl
  have hreset : opField resetWord = 0x01#8 := by decide
  exact hne (ho.symm.trans hreset)

/-- Outside ERROR a line with a command that PHASE, STREAM or CLOSED forbids raises IllegalSequence (R100 step 4). -/
theorem HostIssues.step_notLegal (h : HostIssues s w rest) (he : s.phase ≠ .error) {c : Instr}
    (hd : decode w = .command c) (hl : legal c s.phase s.stream s.closed = false) :
    step s = .next { s with agenda := rest, phase := .error, err := .illegalSequence } := by
  rw [step_commandLine h.outOfReset h.agenda, issue_notLegal (s := { s with agenda := rest }) h.idle he hd hl,
    complete_none _ (raise_pend _ _)]
  exact congrArg _ (raise_idle _ h.idle)

/-- A line with a legal command that reserves no room runs it to its end (R100 step 6, R101, R105). -/
theorem HostIssues.step_unreserved (h : HostIssues s w rest) (he : s.phase ≠ .error) {c : Instr} {t : State}
    (hd : decode w = .command c) (hl : legal c s.phase s.stream s.closed = true) (hroom : worst c = 0)
    (hx : exec c (accept c { s with agenda := rest }) = .next t) : step s = .next { t with pend := none } :=
  h.step_accepted (issue_accept (s := { s with agenda := rest }) h.idle he hd hl (h.hasRoom_unreserved hroom)) hx

end

/-! ### LOAD_FREQ and READ_FREQ -/

theorem legal_loadFreq_iff (a : Arg) (p : Phase) (st : Stream) (cl : Bool) :
    legal (.loadFreq a) p st cl = true ↔ p = .load := by
  obtain ⟨-, -, hload, -⟩ := legalityTable p st cl a
  exact hload

theorem legal_readFreq_iff (a : Arg) (p : Phase) (st : Stream) (cl : Bool) :
    legal (.readFreq a) p st cl = true ↔ p ≠ .error := by
  obtain ⟨-, -, -, hread, -⟩ := legalityTable p st cl a
  exact hread

/-- An accepted LOAD_FREQ writes the pair as it stood at the acceptance (R110). -/
theorem execLoadFreq_accepted (a : Arg) (s : State) :
    execLoadFreq a (accept (.loadFreq a) s) =
      .next ((accept (.loadFreq a) s).setFreq (symOperand a) (s.freqHi ++ s.freqLo)) := rfl

/-- Settles O25: bits 31:16 decide whether the word is LOAD_FREQ's, PHASE whether it is legal, and its completion writes
the snapshot to the entry of bits 15:8. -/
theorem loadFreqCommandLine : Obligations.LoadFreqCommandLine := by
  intro s w rest h hop r
  have hdecode := decode_of_symRow hasSymForm_loadFreq hop
  refine ⟨fun he => ?_, fun he h0 => ?_, fun hp h0 => ?_, fun hl h0 => ?_⟩
  · exact h.step_error he (ne_resetWord hop (by decide))
  · exact h.step_illegal he (not_command_of_symRow (fun _ => rfl) hop h0)
  · obtain ⟨he, hload⟩ : s.phase ≠ .error ∧ s.phase ≠ .load := by rcases hp with hp | hp <;> simp [hp]
    exact h.step_notLegal he (hdecode h0) (Bool.eq_false_iff.mpr (mt (legal_loadFreq_iff _ _ _ _).mp hload))
  · have he : s.phase ≠ .error := by rw [hl]; nofun
    refine ⟨_, h.step_unreserved he (hdecode h0) ((legal_loadFreq_iff _ _ _ _).mpr hl) rfl
      (execLoadFreq_accepted _ r), ?_, fun x => ?_⟩
    · simp only [r, ← h.idle]
      rfl
    · rw [← symOperand_argField]
      exact freqAt_setFreq r (symOperand (argField w)) x (s.freqHi ++ s.freqLo)

/-- Settles O26: bits 31:16 decide whether the word is READ_FREQ's, which every phase but ERROR allows. -/
theorem readFreqCommandLine : Obligations.ReadFreqCommandLine := by
  intro s w rest h hop r
  refine ⟨fun he => ?_, fun he h0 => ?_, fun he h0 => ?_⟩
  · exact h.step_error he (ne_resetWord hop (by decide))
  · exact h.step_illegal he (not_command_of_symRow (fun _ => rfl) hop h0)
  · rw [h.step_unreserved he (decode_of_symRow hasSymForm_readFreq hop h0) ((legal_readFreq_iff _ _ _ _).mpr he) rfl rfl,
      ← symOperand_argField, ← h.idle]
    rfl

end Sys2Proof.Machine
end

section
/-! The priority queue (spec/42_tree_builder.md R122 to R125): its key order, and what insertion and extraction keep. -/

namespace Sys2Proof.Machine

/-! ### The key order (R122) -/

theorem PQEntry.lt_irrefl (a : PQEntry) : a.lt a = false := by
  rw [Bool.eq_false_iff, Ne, PQEntry.lt_iff]
  omega

theorem PQEntry.lt_trans {a b c : PQEntry} (hab : a.lt b = true) (hbc : b.lt c = true) : a.lt c = true := by
  rw [PQEntry.lt_iff] at *
  omega

/-- Entries with one key are one entry. -/
theorem PQEntry.eq_of_key_eq {a b : PQEntry} (hw : a.w.toNat = b.w.toNat) (hi : a.i.toNat = b.i.toNat) : a = b :=
  congr (congrArg PQEntry.mk (BitVec.eq_of_toNat_eq hw)) (BitVec.eq_of_toNat_eq hi)

theorem PQEntry.lt_or_lt_of_ne {a b : PQEntry} (h : a ≠ b) : a.lt b = true ∨ b.lt a = true := by
  have hkey : a.w.toNat = b.w.toNat → a.i.toNat ≠ b.i.toNat := fun hw hi => h (PQEntry.eq_of_key_eq hw hi)
  rw [PQEntry.lt_iff, PQEntry.lt_iff]
  omega

/-- Settles O35: the key order is the lexicographic order of two unsigned numbers, and the key tells entries apart. -/
theorem queueKeyIsAStrictTotalOrder : Obligations.QueueKeyIsAStrictTotalOrder :=
  ⟨PQEntry.lt_irrefl, fun _ _ _ => PQEntry.lt_trans, fun _ _ => PQEntry.lt_or_lt_of_ne, PQEntry.lt_iff⟩

/-! ### The operations (R123 to R125) -/

theorem pqInsert_perm (e : PQEntry) (q : List PQEntry) : (pqInsert e q).Perm (e :: q) := by
  induction q with
  | nil => exact .refl _
  | cons x xs ih =>
    rw [pqInsert]
    split
    · exact .refl _
    · exact (ih.cons x).trans (.swap e x xs)

/-- Insertion of a new entry keeps the strict key order. -/
theorem pqInsert_pairwise {e : PQEntry} {q : List PQEntry} (hq : q.Pairwise fun a b => a.lt b = true) (he : e ∉ q) :
    (pqInsert e q).Pairwise fun a b => a.lt b = true := by
  induction q with
  | nil => exact List.pairwise_singleton _ _
  | cons x xs ih =>
    obtain ⟨hx, hxs⟩ := List.pairwise_cons.mp hq
    obtain ⟨hne, hmem⟩ := not_or.mp (mt List.mem_cons.mpr he)
    rw [pqInsert]
    split
    next hlt => exact hq.cons (List.forall_mem_cons.mpr ⟨hlt, fun y hy => PQEntry.lt_trans hlt (hx y hy)⟩)
    next hlt =>
      have hxe : x.lt e = true := (PQEntry.lt_or_lt_of_ne hne).resolve_left hlt
      refine (ih hxs hmem).cons fun y hy => ?_
      rcases List.mem_cons.mp ((pqInsert_perm e xs).mem_iff.mp hy) with rfl | hy
      · exact hxe
      · exact hx y hy

/-- Settles O36: insertion by induction on the queue; the head of an ordered queue is its least entry. -/
theorem queueOperations : Obligations.QueueOperations := by
  refine ⟨fun e s hq he => ⟨pqInsert_pairwise hq he, pqInsert_perm e s.pq⟩, fun s hq => ?_, fun s hq hne => ?_⟩
  · simp [extractMin, peekMin, hq]
  · obtain ⟨e, rest, hpq⟩ := List.exists_cons_of_ne_nil hne
    rw [hpq] at hq ⊢
    refine ⟨e, { s with pq := rest }, by simp [extractMin, hpq], by simp [peekMin, hpq], fun x hx hxe => ?_, rfl, rfl⟩
    exact (List.pairwise_cons.mp hq).1 x ((List.mem_cons.mp hx).resolve_left hxe)

end Sys2Proof.Machine
end

section
/-! QUERY_NODE (spec/42_tree_builder.md R127): the parts of NODE_INFO and NODE_W0 to NODE_W2, and its command line. -/

namespace Sys2Proof.Machine

/-! ### The report of a node (spec/10_state.md R36, R37) -/

/-- R36: NODE_INFO's parts, each at its place. -/
theorem nodeInfoWord_slices (n : Node) :
    let w : BitVec (4 + 9 + 9 + 8 + 1 + 1) := nodeInfoWord n
    w.getLsbD 0 = true ∧ w.getLsbD 1 = n.isInternal ∧ w.extractLsb' 2 8 = n.sym ∧ w.extractLsb' 10 9 = n.left ∧
    w.extractLsb' 19 9 = n.right ∧ w.extractLsb' 28 4 = 0 := by
  intro w
  simp (disch := omega) only [w, nodeInfoWord, BitVec.getLsbD_eq_extractLsb', BitVec.extractLsb'_append_eq_of_le,
    BitVec.extractLsb'_append_eq_of_add_le, Nat.reduceSub]
  simp [ofBool_beq_one]

theorem toNat_append_eq_add {m k : Nat} (x : BitVec m) (y : BitVec k) : (x ++ y).toNat = 2 ^ k * x.toNat + y.toNat := by
  rw [BitVec.toNat_append, ← Nat.shiftLeft_add_eq_or_of_lt y.isLt, Nat.shiftLeft_eq, Nat.mul_comm]

/-- R36: NODE_INFO as a number. -/
theorem nodeInfoWord_eq_ofNat (n : Node) :
    nodeInfoWord n = BitVec.ofNat 32 (2 ^ 19 * n.right.toNat + 2 ^ 10 * n.left.toNat + 2 ^ 2 * n.sym.toNat +
      2 * n.isInternal.toNat + 1) := by
  have hright := n.right.isLt
  have hleft := n.left.isLt
  have hsym := n.sym.isLt
  have htag := n.isInternal.toNat_lt
  apply BitVec.eq_of_toNat_eq
  simp only [nodeInfoWord, toNat_append_eq_add, BitVec.toNat_ofBool, BitVec.toNat_ofNat]
  omega

/-- R37: the three words of a weight, W2 above W1 above W0. -/
theorem weight_words_append (v : Weight) :
    v.extractLsb' 64 8 ++ v.extractLsb' 32 32 ++ v.extractLsb' 0 32 = v := by
  have hlt := v.isLt
  apply BitVec.eq_of_toNat_eq
  simp only [toNat_append_eq_add, BitVec.extractLsb'_toNat, Nat.shiftRight_eq_div_pow]
  omega

theorem extractLsb'_eq_ofNat {m : Nat} (v : BitVec m) (start len : Nat) :
    v.extractLsb' start len = BitVec.ofNat len (v.toNat / 2 ^ start) := by
  rw [BitVec.extractLsb', Nat.shiftRight_eq_div_pow]

theorem execQueryNode_allocated {a : Arg} {s : State} {n : Node} (h : s.nodes[a.toNat]? = some n) :
    execQueryNode a s = .next { s with
      nodeInfo := nodeInfoWord n
      nodeW0 := n.weight.extractLsb' 0 32
      nodeW1 := n.weight.extractLsb' 32 32
      nodeW2 := n.weight.extractLsb' 64 8 } := by
  have hlt : a.toNat < s.nodes.length := (List.getElem?_eq_some_iff.mp h).1
  simp only [execQueryNode, idxOperand, hlt, if_true, nodeAt_of_getElem? s a n h]

theorem execQueryNode_unallocated {a : Arg} {s : State} (h : s.nodes.length ≤ a.toNat) :
    execQueryNode a s = .next { s with nodeInfo := 0, nodeW0 := 0, nodeW1 := 0, nodeW2 := 0 } :=
  if_neg (Nat.not_lt.mpr h)

/-- Settles O13: an allocated node's report, sliced, or zeros. -/
theorem queryNodeCompletes : Obligations.QueryNodeCompletes := by
  intro s a
  cases hn : s.nodes[a.toNat]? with
  | none =>
    exact ⟨_, execQueryNode_unallocated (List.getElem?_eq_none_iff.mp hn), rfl, nofun, fun _ => ⟨rfl, rfl, rfl, rfl⟩⟩
  | some n =>
    obtain ⟨hvalid, htag, hsym, hleft, hright, hzero⟩ := nodeInfoWord_slices n
    refine ⟨_, execQueryNode_allocated hn, rfl, fun m hm => ?_, nofun⟩
    cases hm
    refine ⟨hvalid, hzero, ?_⟩
    cases n with
    | leaf y w => exact ⟨htag, hsym, hleft, hright, weight_words_append w⟩
    | internal w l r => exact ⟨htag, hsym, hleft, hright, weight_words_append w⟩

/-! ### The command line -/

/-- A word with bits 31:17 not 0 is Illegal (R81). -/
theorem not_command_of_rsv {w : Word} (h : rsvField w ≠ 0) (i : Instr) : decode w ≠ .command i := by
  intro hd
  obtain ⟨-, rfl⟩ := encode_of_decode hd
  exact h (rsvField_packFields _ _ _)

/-- A word with QUERY_NODE's OP and bits 31:17 = 0 is QUERY_NODE of bits 16:8. -/
theorem decode_queryNode {w : Word} (ho : opField w = 0x21#8) (hr : rsvField w = 0) :
    decode w = .command (.queryNode (argField w)) :=
  (decode_eq_command_iff w _).mpr ⟨rfl, encode_eq_of_fields hr rfl ho.symm⟩

theorem legal_queryNode_iff (a : Arg) (p : Phase) (st : Stream) (cl : Bool) :
    legal (.queryNode a) p st cl = true ↔ p = .tree ∨ p = .codes := by
  obtain ⟨-, -, -, -, -, hquery, -⟩ := legalityTable p st cl a
  exact hquery

/-- Settles O28: bits 31:17 decide whether the word is QUERY_NODE's, PHASE whether it is legal, and the arena what the
entry of bits 16:8 reports. -/
theorem queryNodeCommandLine : Obligations.QueryNodeCommandLine := by
  intro s w rest h hop r i
  have htree : ∀ {t : State}, s.phase = .tree ∨ s.phase = .codes → rsvField w = 0 →
      execQueryNode (argField w) (accept (.queryNode (argField w)) r) = .next t → step s = .next { t with pend := none } :=
    fun hp h0 hx => h.step_unreserved (by rcases hp with hp | hp <;> simp [hp]) (decode_queryNode hop h0)
      ((legal_queryNode_iff _ _ _ _).mpr hp) rfl hx
  refine ⟨fun he => ?_, fun he h0 => ?_, fun hp h0 => ?_, fun hp h0 hi => ?_, fun y v hp h0 hn => ?_,
    fun v a b hp h0 hn => ?_⟩
  · exact h.step_error he (ne_resetWord hop (by decide))
  · exact h.step_illegal he (not_command_of_rsv h0)
  · exact h.step_notLegal (by simp [hp]) (decode_queryNode hop h0)
      (Bool.eq_false_iff.mpr (mt (legal_queryNode_iff _ _ _ _).mp (by simp [hp])))
  · rw [htree hp h0 (execQueryNode_unallocated hi), ← h.idle]
    rfl
  · rw [htree hp h0 (execQueryNode_allocated hn), nodeInfoWord_eq_ofNat, ← h.idle]
    simp only [extractLsb'_eq_ofNat, Nat.pow_zero, Nat.div_one]
    rfl
  · rw [htree hp h0 (execQueryNode_allocated hn), nodeInfoWord_eq_ofNat, ← h.idle]
    simp only [extractLsb'_eq_ofNat, Nat.pow_zero, Nat.div_one]
    rfl

end Sys2Proof.Machine
end

section
/-! The nodes of a tree in the arena (spec/42_tree_builder.md R120, R128): no node is shared, so a tree that fills the arena
reaches every entry of it. -/

namespace Sys2Proof.Machine

section
variable {nodes : List Node} {T : Tree} {i j : NodeIdx}

/-- The arena holds at most one tree at an index. -/
theorem Spans.unique {T' : Tree} (h : Spans nodes T i) (h' : Spans nodes T' i) : T = T' := by
  induction T generalizing T' i with
  | leaf x w =>
    cases T' with
    | leaf y v => cases (Eq.symm h).trans h'; rfl
    | node l r => obtain ⟨v, a, b, hn, -⟩ := h'; cases (Eq.symm h).trans hn
  | node l r hl hr =>
    obtain ⟨w, a, b, hn, -, -, -, hla, hrb⟩ := h
    cases T' with
    | leaf y v => cases hn.symm.trans h'
    | node l' r' =>
      obtain ⟨w', a', b', hn', -, -, -, hla', hrb'⟩ := h'
      cases hn.symm.trans hn'
      rw [hl hla hla', hr hrb hrb']

/-- A path down from a tree's root ends at the root of a subtree, at no higher index. -/
theorem Spans.subtree_of_reaches (h : Spans nodes T i) (hr : Reaches nodes i j) :
    ∃ T', Spans nodes T' j ∧ T'.syms ⊆ T.syms ∧ j.toNat ≤ i.toNat := by
  induction T generalizing i with
  | leaf x w =>
    cases hr with
    | here => exact ⟨_, h, List.Subset.refl _, Nat.le_refl _⟩
    | left _ _ _ _ v hn _ => cases (Eq.symm h).trans hn
    | right _ _ _ _ v hn _ => cases (Eq.symm h).trans hn
  | node l r hl hr' =>
    have hnode := h
    obtain ⟨w, a, b, hn, ha, hb, -, hla, hrb⟩ := hnode
    cases hr with
    | here => exact ⟨_, h, List.Subset.refl _, Nat.le_refl _⟩
    | left _ _ _ _ v hn' hr =>
      cases hn.symm.trans hn'
      obtain ⟨T', hT', hsub, hle⟩ := hl hla hr
      exact ⟨T', hT', List.subset_append_of_subset_left _ hsub, by omega⟩
    | right _ _ _ _ v hn' hr =>
      cases hn.symm.trans hn'
      obtain ⟨T', hT', hsub, hle⟩ := hr' hrb hr
      exact ⟨T', hT', List.subset_append_of_subset_right _ hsub, by omega⟩

/-- R120: two trees with no leaf symbol in common share no node. -/
theorem Spans.disjoint {l r : Tree} {a b : NodeIdx} (hl : Spans nodes l a) (hr : Spans nodes r b)
    (hd : ∀ x ∈ l.syms, ∀ y ∈ r.syms, x ≠ y) (ha : Reaches nodes a j) : ¬ Reaches nodes b j := by
  intro hb
  obtain ⟨T, hT, hsub, -⟩ := hl.subtree_of_reaches ha
  obtain ⟨T', hT', hsub', -⟩ := hr.subtree_of_reaches hb
  cases hT.unique hT'
  obtain ⟨x, hx⟩ := List.exists_mem_of_length_pos T.syms_length_pos
  exact hd x (hsub hx) x (hsub' hx) rfl

/-- A tree with distinct leaf symbols reaches as many entries as it has nodes. -/
theorem Spans.exists_indices (h : Spans nodes T i) (hnodup : T.syms.Nodup) :
    ∃ js : List NodeIdx, js.Nodup ∧ js.length = T.size ∧ ∀ j ∈ js, Reaches nodes i j := by
  induction T generalizing i with
  | leaf x w => exact ⟨[i], List.pairwise_singleton _ i, rfl, by simp [Reaches.here]⟩
  | node l r ihl ihr =>
    obtain ⟨w, a, b, hn, ha, hb, -, hla, hrb⟩ := h
    obtain ⟨hnl, hnr, hd⟩ := List.nodup_append.mp hnodup
    obtain ⟨jl, hjl, hlenl, hreachl⟩ := ihl hla hnl
    obtain ⟨jr, hjr, hlenr, hreachr⟩ := ihr hrb hnr
    refine ⟨i :: (jl ++ jr), List.nodup_cons.mpr ⟨?_, List.nodup_append.mpr ⟨hjl, hjr, ?_⟩⟩, ?_, ?_⟩
    · intro hi
      rcases List.mem_append.mp hi with hi | hi
      · obtain ⟨-, -, -, hle⟩ := hla.subtree_of_reaches (hreachl i hi)
        omega
      · obtain ⟨-, -, -, hle⟩ := hrb.subtree_of_reaches (hreachr i hi)
        omega
    · rintro j hj _ hj' rfl
      exact hla.disjoint hrb hd (hreachl j hj) (hreachr j hj')
    · simp [Tree.size, hlenl, hlenr]
    · refine List.forall_mem_cons.mpr ⟨.here i, List.forall_mem_append.mpr ⟨fun j hj => ?_, fun j hj => ?_⟩⟩
      · exact .left i a b j w hn (hreachl j hj)
      · exact .right i a b j w hn (hreachr j hj)

end

/-- R128: every node of a built tree is on a path down from ROOT. -/
theorem BuiltTree.reaches {s : State} {T : Tree} (h : BuiltTree s T) {i : NodeIdx} (hi : i.toNat < s.nodes.length) :
    Reaches s.nodes s.root i := by
  obtain ⟨js, hnodup, hlen, hreach⟩ := h.spans.exists_indices (h.syms.nodup_iff.mpr (alphabet_nodup s))
  have hallocated : ∀ j ∈ i :: js, j.toNat < s.nodes.length := List.forall_mem_cons.mpr ⟨hi, fun j hj =>
    (List.getElem?_eq_some_iff.mp (h.spans.getElem?_of_reaches (hreach j hj))).1⟩
  by_cases hmem : i ∈ js
  · exact hreach i hmem
  · have hsub : i :: js ⊆ (List.range s.nodes.length).map (BitVec.ofNat 9) := fun j hj =>
      List.mem_map.mpr ⟨j.toNat, List.mem_range.mpr (hallocated j hj), by rw [BitVec.ofNat_toNat, BitVec.setWidth_eq]⟩
    have hle := (List.nodup_cons.mpr ⟨hmem, hnodup⟩).length_le_of_subset hsub
    rw [List.length_cons, List.length_map, List.length_range, hlen, h.size] at hle
    omega

end Sys2Proof.Machine
end

section
/-! BUILD (spec/42_tree_builder.md R126, R128): the tree it makes, the reference construction it refines, and its command
line. -/

namespace Sys2Proof.Machine

/-! ### The completion -/

theorem sum_map_filter {p : Sym → Bool} {g : Sym → Nat} (hp : ∀ x, p x = false → g x = 0) (xs : List Sym) :
    ((xs.filter p).map g).sum = (xs.map g).sum := by
  induction xs with
  | nil => rfl
  | cons x xs ih =>
    rw [List.filter_cons, List.map_cons, List.sum_cons]
    split
    next => rw [List.map_cons, List.sum_cons, ih]
    next hx => rw [ih, hp x (Bool.eq_false_iff.mpr hx), Nat.zero_add]

/-- An absent symbol adds nothing to the sum of the frequencies. -/
theorem sum_alphabet (s : State) : (s.alphabet.map fun x => (s.freqAt x).toNat).sum = s.totalFreq := by
  refine sum_map_filter (fun x hx => ?_) allSyms
  have h0 : s.freqAt x = 0 := bne_eq_false_iff_eq.mp hx
  rw [h0]
  rfl

/-- R128: the leaves stand first, in ascending symbol order. -/
theorem Forest.getElem?_leaf {f : Sym → Freq} {nodes : List Node} {xs : List Sym} {q : List Root} (h : Forest f nodes xs q)
    {k : Nat} {x : Sym} (hk : xs[k]? = some x) : nodes[k]? = some (leafOf f x) := by
  obtain ⟨ms, hms, -⟩ := h.arena
  obtain ⟨hlt, -⟩ := List.getElem?_eq_some_iff.mp hk
  rw [hms, List.getElem?_append_left (by simpa using hlt), List.getElem?_map, hk]
  rfl

/-- R128: after the leaves the arena holds internal nodes alone. -/
theorem Forest.isInternal_of_length_le {f : Sym → Freq} {nodes : List Node} {xs : List Sym} {q : List Root}
    (h : Forest f nodes xs q) {k : Nat} {n : Node} (hk : xs.length ≤ k) (hn : nodes[k]? = some n) : n.isInternal = true := by
  obtain ⟨ms, hms, hint⟩ := h.arena
  rw [hms, List.getElem?_append_right (by simpa using hk)] at hn
  exact hint n (List.mem_of_getElem? hn)

/-- Settles O15: the forest that BUILD ends with is one tree, which fills the arena. -/
theorem buildCompletesWithTheTree : Obligations.BuildCompletesWithTheTree := by
  intro s h ha
  obtain ⟨r, nodes, -, hforest, hx⟩ := execBuild_eq s h ha
  have hT := hforest.builtTree ha rfl
  obtain ⟨-, -, hw⟩ := hforest.spans r (List.mem_singleton_self r)
  refine ⟨_, r.tree, hx, rfl, hT, ?_, ?_, fun k x => hforest.getElem?_leaf, fun k n => hforest.isInternal_of_length_le,
    fun i => hT.reaches⟩
  · rw [← hw, ← sum_alphabet, ← hforest.weight, List.map_singleton, List.sum_singleton]
  · have hleaves : r.tree.syms.length = s.alphabet.length := hT.syms.length_eq
    exact Nat.le_sub_one_of_lt (hleaves ▸ r.tree.depth_lt_syms_length)

/-- Settles O16: nothing is seeded, so nothing is queued. -/
theorem buildRejectsTheEmptyAlphabet : Obligations.BuildRejectsTheEmptyAlphabet := by
  intro s hq ha
  have hseed : seed s.freq.toList 0 s = s := by rw [seed_eq_foldl, ha]; rfl
  simp [execBuild, hseed, hq, raise]

/-- Settles O37: BUILD's queue and arena follow the reference construction. -/
theorem buildRefinesHuffman : Obligations.BuildRefinesHuffman := by
  intro s h ha
  obtain ⟨r, nodes, hhuffman, hforest, hx⟩ := execBuild_eq s h ha
  exact ⟨_, r.tree, hx, hhuffman, (hforest.builtTree ha rfl).spans⟩

/-! ### The command line -/

theorem legal_build_iff (p : Phase) (st : Stream) (cl : Bool) : legal .build p st cl = true ↔ p = .load := by
  obtain ⟨-, -, -, -, hbuild, -⟩ := legalityTable p st cl 0
  exact hbuild

/-- Settles O27: the word alone is BUILD's, PHASE decides whether it is legal, and the table whether it has a tree. -/
theorem buildCommandLine : Obligations.BuildCommandLine := by
  intro s w rest h hop r
  have hdecode : w = 0x00000020#32 → decode w = .command .build := fun hw => hw ▸ decode_encode .build rfl
  have hload : ∀ {t : State}, LoadReady s → w = 0x00000020#32 → execBuild (accept .build r) = .next t →
      step s = .next { t with pend := none } := fun hl hw hx =>
    h.step_unreserved (by simp [hl.1]) (hdecode hw) ((legal_build_iff _ _ _).mpr hl.1) rfl hx
  refine ⟨fun he => ?_, fun he hw => ?_, fun hp hw => ?_, fun hl hw ha => ?_, fun hl hw ha => ?_⟩
  · exact h.step_error he (ne_resetWord hop (by decide))
  · exact h.step_illegal he (not_command_of_noneRow (i := .build) (fun _ => rfl) hop hw)
  · obtain ⟨he, hnl⟩ : s.phase ≠ .error ∧ s.phase ≠ .load := by rcases hp with hp | hp <;> simp [hp]
    exact h.step_notLegal he (hdecode hw) (Bool.eq_false_iff.mpr (mt (legal_build_iff _ _ _).mp hnl))
  · rw [hload hl hw (execBuild_empty (accept .build r) hl ha), ← h.idle]
    rfl
  · obtain ⟨t, T, hx, ht, hT, -⟩ := buildCompletesWithTheTree (accept .build r) hl ha
    refine ⟨_, T, hload hl hw hx, ?_, { hT with }⟩
    rw [ht, ← h.idle]
    rfl

/-! ### The arena is a function of the table (R128 item 5) -/

/-- The state `c` with the arena and the queue of `s`. -/
def State.withArenaOf (c s : State) : State := { c with nodes := s.nodes, pq := s.pq }

section
variable (c s : State)

@[simp] theorem withArenaOf_pq : (c.withArenaOf s).pq = s.pq := rfl
@[simp] theorem enqueueNode_withArenaOf (n : Node) :
    enqueueNode n (c.withArenaOf s) = c.withArenaOf (enqueueNode n s) := rfl

theorem seed_withArenaOf (fs : List Freq) (k : Nat) : seed fs k (c.withArenaOf s) = c.withArenaOf (seed fs k s) := by
  induction fs generalizing s k with
  | nil => rfl
  | cons f fs ih => simp only [seed, enqueueNode_withArenaOf, ← apply_ite c.withArenaOf, ih]

theorem mergeTwo_withArenaOf : mergeTwo (c.withArenaOf s) = (mergeTwo s).map c.withArenaOf := by
  match h : s.pq with
  | [] => simp [mergeTwo, extractMin, h]
  | [a] => simp [mergeTwo, extractMin, h]
  | a :: b :: q => simp only [mergeTwo, extractMin, withArenaOf_pq, h]; rfl

theorem mergeAll_withArenaOf (k : Nat) : mergeAll k (c.withArenaOf s) = (mergeAll k s).map c.withArenaOf := by
  induction k generalizing s with
  | zero => rfl
  | succ k ih =>
    simp only [mergeAll, withArenaOf_pq, mergeTwo_withArenaOf]
    split
    · cases mergeTwo s with
      | none => rfl
      | some t => exact ih t
    · rfl

/-- The state `c` with the fields that BUILD gives to `t`. -/
def State.withTreeOf (c t : State) : State :=
  { c with nodes := t.nodes, pq := t.pq, root := t.root, uptr := t.uptr, single := t.single, phase := t.phase }

theorem finishBuild_withArenaOf : finishBuild (c.withArenaOf s) = (finishBuild s).map c.withTreeOf := by
  cases h : s.pq with
  | nil => simp [finishBuild, peekMin, h]
  | cons e q => simp only [finishBuild, peekMin, extractMin, withArenaOf_pq, h]; rfl

/-- A BUILD that raises nothing runs alike on the same table, arena and queue. -/
theorem execBuild_withArenaOf {t : State} (hf : c.freq = s.freq) (h : execBuild s = .next t) (ht : t.phase ≠ .error) :
    execBuild (c.withArenaOf s) = .next (c.withTreeOf t) := by
  have hfreq : (c.withArenaOf s).freq = s.freq := hf
  simp only [execBuild, hfreq, seed_withArenaOf, withArenaOf_pq, mergeAll_withArenaOf] at h ⊢
  generalize seed s.freq.toList 0 s = seeded at h ⊢
  split at h
  next => cases h; exact absurd rfl ht
  next hne =>
    rw [if_neg hne]
    cases hm : mergeAll seeded.pq.length seeded with
    | none => rw [hm] at h; cases h; exact absurd rfl ht
    | some merged =>
      simp only [hm, Option.map_some, finishBuild_withArenaOf] at h ⊢
      cases hu : finishBuild merged with
      | none => rw [hu] at h; cases h; exact absurd rfl ht
      | some u => rw [hu] at h; cases h; rfl

end

/-- Settles O38: both states start with an empty arena and an empty queue, and BUILD reads nothing else but the table. -/
theorem treeIsAFunctionOfTheTable : Obligations.TreeIsAFunctionOfTheTable := by
  intro s u hs hu hf ha
  obtain ⟨r, nodes, -, -, hx⟩ := execBuild_eq s hs ha
  obtain ⟨-, hsn, hsq⟩ := hs
  obtain ⟨-, hun, huq⟩ := hu
  have hstart : u.withArenaOf s = u := by rw [State.withArenaOf, hsn, hsq, ← hun, ← huq]
  have hxu := execBuild_withArenaOf u s hf.symm hx nofun
  rw [hstart] at hxu
  exact ⟨_, _, hx, hxu, rfl, rfl, rfl, rfl⟩

end Sys2Proof.Machine
end

section
/-! QUERY_CODE (spec/43_code_deriver.md R152): the length and the window it reports, and its command line. -/

namespace Sys2Proof.Machine

/-! ### The completion -/

/-- R152, R35: QUERY_CODE writes CODE_LEN and CODE_W alone, and CODE_W is the left-justified window of the code. -/
theorem execQueryCode_eq (a : Arg) (s : State) :
    ∃ words : Vector Word 8,
      execQueryCode a s =
        .next { s with codeLen := BitVec.ofNat 8 (s.codeAt (symOperand a)).length, codeW := words } ∧
      ∀ (j : Fin 8) (m : Nat), m < 32 →
        (words[j.val]'j.isLt).getLsbD (31 - m) = (s.codeAt (symOperand a)).getD (32 * j.val + m) false := by
  refine ⟨_, rfl, fun j m hm => ?_⟩
  rw [← windowWord_getLsbD _ _ _ hm]
  revert j
  simp only [Fin.forall_fin_succ]
  exact ⟨rfl, rfl, rfl, rfl, rfl, rfl, rfl, rfl, nofun⟩

/-- Settles O14: a length of at most 255 fits CODE_LEN, and the window holds the code's bits. -/
theorem queryCodeCompletes : Obligations.QueryCodeCompletes := by
  intro s a hlen
  obtain ⟨words, hx, hbits⟩ := execQueryCode_eq a s
  rw [symOperand_eq_extract] at hx hbits
  exact ⟨_, hx, rfl, Nat.mod_eq_of_lt (by omega), hbits⟩

/-! ### The command line -/

theorem legal_queryCode_iff (a : Arg) (p : Phase) (st : Stream) (cl : Bool) :
    legal (.queryCode a) p st cl = true ↔ p = .codes := by
  obtain ⟨-, -, -, -, -, -, -, hquery, -⟩ := legalityTable p st cl a
  exact hquery

/-- Settles O30: bits 31:16 decide whether the word is QUERY_CODE's, PHASE whether it is legal, and bit k of the window
stands in word k / 32. -/
theorem queryCodeCommandLine : Obligations.QueryCodeCommandLine := by
  intro s w rest h hop r p
  have hdecode := decode_of_symRow hasSymForm_queryCode hop
  refine ⟨fun he => ?_, fun he h0 => ?_, fun hp h0 => ?_, fun hp h0 _ => ?_⟩
  · exact h.step_error he (ne_resetWord hop (by decide))
  · exact h.step_illegal he (not_command_of_symRow (fun _ => rfl) hop h0)
  · obtain ⟨he, hnc⟩ : s.phase ≠ .error ∧ s.phase ≠ .codes := by rcases hp with hp | hp <;> simp [hp]
    exact h.step_notLegal he (hdecode h0) (Bool.eq_false_iff.mpr (mt (legal_queryCode_iff _ _ _ _).mp hnc))
  · obtain ⟨words, hx, hbits⟩ := execQueryCode_eq (argField w) (accept (.queryCode (argField w)) r)
    rw [symOperand_argField] at hx hbits
    have hbit : ∀ k, (hk : k / 32 < 8) → (words[k / 32]'hk).getLsbD (31 - k % 32) = p.getD k false := fun k hk => by
      rw [hbits ⟨k / 32, hk⟩ (k % 32) (Nat.mod_lt k (by decide)), Nat.div_add_mod]
      rfl
    refine ⟨_, h.step_unreserved (by simp [hp]) (hdecode h0) ((legal_queryCode_iff _ _ _ _).mpr hp) rfl hx, ?_,
      fun k hlt hk => ?_, fun k hle hk => ?_⟩
    · simp only [r, ← h.idle]
      rfl
    · exact (hbit k hk).trans (List.getElem_eq_getD false).symm
    · rw [hbit k hk, List.getD_eq_getElem?_getD, List.getElem?_eq_none hle, Option.getD_none]

end Sys2Proof.Machine
end

section
/-! The codes DERIVE gives (spec/43_code_deriver.md R150, R153): the paths of the tree, none of which starts another,
Kraft's equality, and the command line. -/

namespace Sys2Proof.Machine

/-! ### The paths of a tree -/

theorem Tree.exists_path {T : Tree} {x : Sym} (h : x ∈ T.syms) (p : Bits) : ∃ q, (x, q) ∈ T.paths p := by
  rw [← T.paths_map_fst p] at h
  obtain ⟨⟨_, q⟩, hq, rfl⟩ := List.mem_map.mp h
  exact ⟨q, hq⟩

/-- The path of a leaf goes on from the path of the root. -/
theorem Tree.prefix_of_mem_paths {T : Tree} {p : Bits} {y : Sym × Bits} (h : y ∈ T.paths p) : p <+: y.2 := by
  induction T generalizing p with
  | leaf x w =>
    obtain rfl := List.mem_singleton.mp h
    exact List.prefix_refl p
  | node l r hl hr =>
    rcases List.mem_append.mp h with h | h
    · exact (List.prefix_append p _).trans (hl h)
    · exact (List.prefix_append p _).trans (hr h)

/-- A path through a left edge and one through the right edge of the same node: neither starts the other. -/
theorem not_prefix_of_branches {p q q' : Bits} {x : Bool} (hq : p ++ [x] <+: q) (hq' : p ++ [!x] <+: q') : ¬ q <+: q' := by
  intro h
  have hx := (List.prefix_of_prefix_length_le (hq.trans h) hq' (by simp)).eq_of_length (by simp)
  cases x <;> simp at hx

/-- R153: no leaf's path starts another's. -/
theorem Tree.paths_prefixFree {T : Tree} {p : Bits} {y z : Sym × Bits} (hy : y ∈ T.paths p) (hz : z ∈ T.paths p)
    (h : y.2 <+: z.2) : y = z := by
  induction T generalizing p with
  | leaf x w => rw [List.mem_singleton.mp hy, List.mem_singleton.mp hz]
  | node l r hl hr =>
    rcases List.mem_append.mp hy with hy | hy <;> rcases List.mem_append.mp hz with hz | hz
    · exact hl hy hz
    · exact absurd h (not_prefix_of_branches (prefix_of_mem_paths hy) (prefix_of_mem_paths hz))
    · exact absurd h (not_prefix_of_branches (prefix_of_mem_paths hy) (prefix_of_mem_paths hz))
    · exact hr hy hz

/-- R153: Kraft's equality on the paths of a tree, scaled by 2 ^ n: the two subtrees share their node's part in halves. -/
theorem Tree.kraft_paths (T : Tree) (p : Bits) (n : Nat) (h : p.length + T.depth ≤ n) :
    ((T.paths p).map fun y => 2 ^ (n - y.2.length)).sum = 2 ^ (n - p.length) := by
  induction T generalizing p with
  | leaf x w => exact Nat.add_zero _
  | node l r hl hr =>
    have hdepth : p.length + 1 + max l.depth r.depth ≤ n := by simp only [Tree.depth] at h; omega
    have hhalf : n - p.length = n - (p.length + 1) + 1 := by omega
    have hl' := hl (p ++ [false]) (by rw [List.length_append, List.length_singleton]; omega)
    have hr' := hr (p ++ [true]) (by rw [List.length_append, List.length_singleton]; omega)
    rw [Tree.paths, List.map_append, List.sum_append, hl', hr', List.length_append, List.length_append,
      List.length_singleton, List.length_singleton, hhalf, Nat.pow_succ, Nat.mul_two]

/-- A leaf's code is its path, and "0" for a lone leaf (R150). -/
theorem leafCode_of_mem_paths {T : Tree} {y : Sym × Bits} (h : y ∈ T.paths []) :
    leafCode y.2 = if T.isLeaf then [false] else y.2 := by
  cases T with
  | leaf x w => rw [List.mem_singleton.mp h]; rfl
  | node l r =>
    refine if_neg ?_
    rcases List.mem_append.mp h with h | h
    · exact (Tree.prefix_of_mem_paths h).ne_nil nofun
    · exact (Tree.prefix_of_mem_paths h).ne_nil nofun

/-! ### The completion -/

section
variable {s t : State} {T : Tree} (ht : t.code = (recordPaths (T.paths []) { s with code := Vector.replicate 256 [] }).code)
include ht

/-- R150: with distinct leaf symbols DERIVE records each leaf's path. -/
theorem codeAt_of_mem_paths (hn : T.syms.Nodup) {x : Sym} {p : Bits} (hp : (x, p) ∈ T.paths []) :
    t.codeAt x = if T.isLeaf then [false] else p := by
  rw [(code_eq_iff t _).mp ht, codeAt_recordPaths_of_mem _ _ (by rwa [Tree.paths_map_fst]) x p hp]
  exact leafCode_of_mem_paths hp

/-- R150: DERIVE empties the code of a symbol that no leaf has. -/
theorem codeAt_of_not_mem_syms {x : Sym} (hx : x ∉ T.syms) : t.codeAt x = [] := by
  rw [(code_eq_iff t _).mp ht, codeAt_recordPaths_of_not_mem _ _ x (by rwa [Tree.paths_map_fst])]
  simp [State.codeAt]

end

/-- The leaves of a built tree are the present symbols (R128). -/
theorem BuiltTree.mem_syms_iff {s : State} {T : Tree} (h : BuiltTree s T) (x : Sym) : x ∈ T.syms ↔ s.freqAt x ≠ 0 :=
  h.syms.mem_iff.trans (mem_alphabet s x)

theorem BuiltTree.syms_nodup {s : State} {T : Tree} (h : BuiltTree s T) : T.syms.Nodup :=
  h.syms.nodup_iff.mpr (alphabet_nodup s)

/-- Settles O17: the walk records the paths into an empty table. -/
theorem deriveCompletesWithThePaths : Obligations.DeriveCompletesWithThePaths := fun s T h hT hn =>
  ⟨_, execDerive_eq s T h hT, rfl, fun _ _ => codeAt_of_mem_paths rfl hn, fun _ => codeAt_of_not_mem_syms rfl⟩

/-! ### The command line -/

theorem legal_derive_iff (p : Phase) (st : Stream) (cl : Bool) : legal .derive p st cl = true ↔ p = .tree := by
  obtain ⟨-, -, -, -, -, -, hderive, -⟩ := legalityTable p st cl 0
  exact hderive

/-- Settles O29: the word alone is DERIVE's, PHASE decides whether it is legal, and a built tree has distinct leaves. -/
theorem deriveCommandLine : Obligations.DeriveCommandLine := by
  intro s w rest h hop r
  have hdecode : w = 0x00000030#32 → decode w = .command .derive := fun hw => hw ▸ decode_encode .derive rfl
  refine ⟨fun he => ?_, fun he hw => ?_, fun hp hw => ?_, fun T hp hw hT => ?_⟩
  · exact h.step_error he (ne_resetWord hop (by decide))
  · exact h.step_illegal he (not_command_of_noneRow (i := .derive) (fun _ => rfl) hop hw)
  · obtain ⟨he, hnt⟩ : s.phase ≠ .error ∧ s.phase ≠ .tree := by rcases hp with hp | hp <;> simp [hp]
    exact h.step_notLegal he (hdecode hw) (Bool.eq_false_iff.mpr (mt (legal_derive_iff _ _ _).mp hnt))
  · obtain ⟨t, hx, ht, hpaths, habsent⟩ :=
      deriveCompletesWithThePaths (accept .derive r) T hT.spans hT.size_le hT.syms_nodup
    refine ⟨_, h.step_unreserved (by simp [hp]) (hdecode hw) ((legal_derive_iff _ _ _).mpr hp) rfl hx, ?_, hpaths,
      fun x hx0 => habsent x fun hmem => (hT.mem_syms_iff x).mp hmem hx0⟩
    rw [ht, ← h.idle]
    rfl

/-! ### No code starts another, and the codes are complete (R153) -/

section
variable {s t : State} {T : Tree} (h : BuiltTree s T)
  (ht : t.code = (recordPaths (T.paths []) { s with code := Vector.replicate 256 [] }).code)
include h ht

/-- A present symbol's code is its path, or "0" on a lone leaf. -/
theorem BuiltTree.exists_codeAt_eq {x : Sym} (hx : s.freqAt x ≠ 0) :
    ∃ p, (x, p) ∈ T.paths [] ∧ t.codeAt x = if T.isLeaf then [false] else p := by
  obtain ⟨p, hp⟩ := Tree.exists_path ((h.mem_syms_iff x).mpr hx) []
  exact ⟨p, hp, codeAt_of_mem_paths ht h.syms_nodup hp⟩

/-- R153 item 2: no present symbol's code starts another's. -/
theorem BuiltTree.codes_prefixFree {a b : Sym} (hne : a ≠ b) (ha : s.freqAt a ≠ 0) (hb : s.freqAt b ≠ 0) :
    ¬ t.codeAt a <+: t.codeAt b := by
  cases hleaf : T.isLeaf with
  | true =>
    obtain ⟨x, hx⟩ := List.length_eq_one_iff.mp (T.isLeaf_iff.mp hleaf)
    rw [← h.mem_syms_iff, hx, List.mem_singleton] at ha hb
    exact absurd (ha.trans hb.symm) hne
  | false =>
    obtain ⟨p, hp, hpa⟩ := h.exists_codeAt_eq ht ha
    obtain ⟨q, hq, hqb⟩ := h.exists_codeAt_eq ht hb
    rw [hpa, hqb, hleaf]
    exact fun hpre => hne (congrArg Prod.fst (Tree.paths_prefixFree hp hq hpre))

section
variable (hL : 2 ≤ s.alphabet.length)
include hL

omit ht in
theorem BuiltTree.isLeaf_eq_false : T.isLeaf = false := by
  rw [← Bool.not_eq_true, T.isLeaf_iff, h.syms.length_eq]
  omega

/-- R153: with L symbols, two or more, no code is longer than L − 1. -/
theorem BuiltTree.codeAt_length_le {x : Sym} (hx : s.freqAt x ≠ 0) : (t.codeAt x).length ≤ s.alphabet.length - 1 := by
  obtain ⟨p, hp, hpx⟩ := h.exists_codeAt_eq ht hx
  have hlen : p.length ≤ T.depth := by simpa using T.length_of_mem_paths [] _ hp
  have hdepth : T.depth < s.alphabet.length := h.syms.length_eq ▸ T.depth_lt_syms_length
  rw [hpx, h.isLeaf_eq_false hL, if_neg Bool.false_ne_true]
  omega

/-- R153 item 3: the codes' lengths meet Kraft's equality, scaled by 2 ^ 255. -/
theorem BuiltTree.kraft_codes : (s.alphabet.map fun x => 2 ^ (255 - (t.codeAt x).length)).sum = 2 ^ 255 := by
  have hdepth : T.depth < s.alphabet.length := h.syms.length_eq ▸ T.depth_lt_syms_length
  have hcodes : ∀ y ∈ T.paths [], t.codeAt y.1 = y.2 := fun y hy => by
    rw [codeAt_of_mem_paths ht h.syms_nodup hy, h.isLeaf_eq_false hL, if_neg Bool.false_ne_true]
  have hα := alphabet_length_le s
  calc (s.alphabet.map fun x => 2 ^ (255 - (t.codeAt x).length)).sum
      = (T.syms.map fun x => 2 ^ (255 - (t.codeAt x).length)).sum := (h.syms.map _).sum_nat.symm
    _ = ((T.paths []).map fun y => 2 ^ (255 - y.2.length)).sum := by
      rw [← T.paths_map_fst [], List.map_map]
      exact congrArg List.sum (List.map_congr_left fun y hy => by rw [Function.comp_apply, hcodes y hy])
    _ = 2 ^ 255 := T.kraft_paths [] 255 (by rw [List.length_nil]; omega)

end

/-- R150: a lone symbol has the code "0". -/
theorem BuiltTree.codeAt_lone {x : Sym} (hx : s.alphabet = [x]) : t.codeAt x = [false] := by
  have hleaf : T.isLeaf = true := by rw [T.isLeaf_iff, h.syms.length_eq, hx, List.length_singleton]
  obtain ⟨p, -, hp⟩ := h.exists_codeAt_eq ht ((mem_alphabet s x).mp (by rw [hx]; exact List.mem_singleton_self x))
  rw [hp, hleaf, if_pos rfl]

end

/-- Settles O39: DERIVE records the paths of the tree BUILD made, whose leaves are the present symbols. -/
theorem derivedCodesArePrefixFree : Obligations.DerivedCodesArePrefixFree := by
  intro s hs ha
  obtain ⟨r, nodes, -, hforest, hx⟩ := execBuild_eq s hs ha
  have hT := hforest.builtTree ha rfl
  have hpresent := fun x => (codes_of_builtTree hT rfl x).1
  refine ⟨_, _, hx, execDerive_eq _ r.tree hT.spans hT.size_le, hpresent, fun a b => hT.codes_prefixFree rfl,
    fun hL => ⟨fun x hxf => ⟨?_, hT.codeAt_length_le rfl hL hxf⟩, hT.kraft_codes rfl hL⟩, fun x => hT.codeAt_lone rfl⟩
  exact List.length_pos_iff.mpr ((hpresent x).mpr hxf)

end Sys2Proof.Machine
end

section
/-! The bits a pack stream carries (spec/44_bit_packer.md R170): every packed byte holds a full group of eight, and PACC the
bits still waiting; what PACK_BYTE and PACK_FLUSH emit follows from that. -/

namespace Sys2Proof.Machine

/-! ### Groups of eight (spec/20_memory.md R64) -/

/-- Cutting eight bits into a byte and reading the byte in stream order gives the bits back. -/
theorem byteBits_groupByte {g : Bits} (h : g.length = 8) : byteBits (groupByte g) = g := by
  refine List.ext_getElem h.symm fun k hk _ => ?_
  rw [byteBits_length] at hk
  simp only [byteBits_eq, List.getElem_map, List.getElem_range, groupByte_getLsbD g k hk]
  exact (List.getElem_eq_getD false).symm

theorem length_flatMap_byteBits (bytes : List Byte) : (bytes.flatMap byteBits).length = 8 * bytes.length := by
  induction bytes with
  | nil => rfl
  | cons b bytes ih => rw [List.flatMap_cons, List.length_append, byteBits_length, ih, List.length_cons]; omega

theorem BytesHold.nil (bits : Bits) : BytesHold [] bits := nofun

theorem BytesHold.cons {bytes : List Byte} {bits : Bits} (h : BytesHold bytes bits) (b : Byte) :
    BytesHold (b :: bytes) (byteBits b ++ bits) := by
  intro k j hk hj
  cases k with
  | zero => simp [List.getD_eq_getElem?_getD, List.getElem?_append_left, hj, byteBits_eq]
  | succ k =>
    have hpast : (byteBits b).length ≤ 8 * (k + 1) + j := by rw [byteBits_length]; omega
    have hindex : 8 * (k + 1) + j - (byteBits b).length = 8 * k + j := by rw [byteBits_length]; omega
    rw [List.getD_cons_succ, h k j (Nat.lt_of_succ_lt_succ hk) hj, List.getD_eq_getElem?_getD,
      List.getD_eq_getElem?_getD, List.getElem?_append_right hpast, hindex]

/-- Bytes hold their own bits, and the bytes after them the rest. -/
theorem BytesHold.append {more : List Byte} {bits : Bits} (h : BytesHold more bits) (bytes : List Byte) :
    BytesHold (bytes ++ more) (bytes.flatMap byteBits ++ bits) := by
  induction bytes with
  | nil => exact h
  | cons b bytes ih => simpa using ih.cons b

theorem bytesHold_groupByte (g : Bits) : BytesHold [groupByte g] g := by
  intro k j hk hj
  obtain rfl : k = 0 := Nat.lt_one_iff.mp hk
  simpa using groupByte_getLsbD g j hj

/-- Whole bytes and a rest of less than eight bits are the groups of eight and the remainder of the string they make up. -/
theorem groups_of_flatMap_append {bytes : List Byte} {acc bits : Bits} (h : bytes.flatMap byteBits ++ acc = bits)
    (hacc : acc.length < 8) :
    bytes.length = bits.length / 8 ∧ BytesHold bytes bits ∧ acc = bits.drop (8 * (bits.length / 8)) := by
  have hbytes := length_flatMap_byteBits bytes
  have hlen := congrArg List.length h
  rw [List.length_append, hbytes] at hlen
  have hcount : bytes.length = bits.length / 8 := by omega
  refine ⟨hcount, ?_, ?_⟩
  · have hhold := (BytesHold.nil acc).append bytes
    rwa [List.append_nil, h] at hhold
  · rw [← hcount, ← hbytes, ← h, List.drop_left]

/-! ### PACK_BYTE (R171) -/

/-- The stream so far, as far as OUT still holds it: the bits of OUT's bytes, then PACC. -/
def State.streamBits (s : State) : Bits := s.out.flatMap byteBits ++ s.pacc

theorem streamBits_appendBit (x : Bool) (s : State) : (appendBit x s).streamBits = s.streamBits ++ [x] := by
  by_cases h7 : s.pacc.length = 7
  · have hgroup : (s.pacc ++ [x]).length = 8 := by rw [List.length_append, h7]; rfl
    simp [appendBit_full x s h7, State.streamBits, byteBits_groupByte hgroup]
  · simp [appendBit_short x s h7, State.streamBits]

/-- Appending adds the bits to the stream, in order. -/
theorem streamBits_appendBits (p : Bits) (s : State) : (appendBits p s).streamBits = s.streamBits ++ p := by
  induction p generalizing s with
  | nil => exact (List.append_nil _).symm
  | cons x p ih => rw [appendBits_cons, ih, streamBits_appendBit, List.append_assoc, List.singleton_append]

/-- PACK_BYTE of a symbol with a code: the bytes pushed and the new PACC hold the old PACC and the code, and nothing else
changes but STREAM and PACK_BITS. -/
theorem execPackByte_groups (a : Arg) (s : State) (h : s.pacc.length < 8) (hp : s.codeAt (symOperand a) ≠ []) :
    ∃ (acc : Bits) (new : List Byte),
      execPackByte a s = .next { s with
        stream := .pack, packBits := s.packBits + BitVec.ofNat 64 (s.codeAt (symOperand a)).length, pacc := acc,
        out := s.out ++ new } ∧
      new.flatMap byteBits ++ acc = s.pacc ++ s.codeAt (symOperand a) ∧ acc.length < 8 := by
  obtain ⟨acc, new, hx, -, hacc⟩ := execPackByte_eq a s h hp
  refine ⟨acc, new, hx, ?_, hacc⟩
  have hstate := Host.Outcome.next.inj ((execPackByte_known a hp).symm.trans hx)
  have hbits := streamBits_appendBits (s.codeAt (symOperand a)) { s with stream := .pack }
  rw [hstate] at hbits
  simpa [State.streamBits] using hbits

/-- Settles O18: the code's bits join those in PACC, and whole groups of eight leave. -/
theorem packByteCompletes : Obligations.PackByteCompletes := by
  intro s a h p bits
  have hoperand := symOperand_eq_extract a
  refine ⟨fun hp => ?_, fun hp => execPackByte_unknown a s (hoperand ▸ hp)⟩
  obtain ⟨acc, new, hx, hbits, hacc⟩ := execPackByte_groups a s h (hoperand ▸ hp)
  rw [hoperand] at hx hbits
  exact ⟨_, new, hx, rfl, groups_of_flatMap_append hbits hacc⟩

/-! ### PACK_FLUSH (R172) -/

/-- What PACK_FLUSH emits: nothing for an empty PACC, else one zero-padded byte. -/
def flushBytes (acc : Bits) : List Byte := if acc = [] then [] else [groupByte acc]

theorem bytesHold_flushBytes (acc : Bits) : BytesHold (flushBytes acc) acc := by
  rw [flushBytes]
  split
  · exact .nil acc
  · exact bytesHold_groupByte acc

theorem length_flushBytes {acc : Bits} (h : acc.length < 8) : (flushBytes acc).length = (acc.length + 7) / 8 := by
  rw [flushBytes]
  split
  next hacc => rw [hacc]; rfl
  next hacc =>
    have hpos := List.length_pos_iff.mpr hacc
    rw [List.length_singleton]; omega

theorem execPackFlush_flushBytes (s : State) :
    execPackFlush s =
      .next { s with stream := .pack, closed := true, pacc := [], out := s.out ++ flushBytes s.pacc } := by
  cases hp : s.pacc with
  | nil => simp [execPackFlush, flushBytes, hp]
  | cons x xs => simp [execPackFlush, flushBytes, hp, pushOut]

/-- Settles O19: PACC leaves as one padded byte, or there is nothing to emit. -/
theorem packFlushCompletes : Obligations.PackFlushCompletes := by
  intro s _
  refine ⟨fun hp => ?_, fun hp => ⟨groupByte s.pacc, ?_, bytesHold_groupByte s.pacc⟩⟩
  · simp [execPackFlush, hp]
  · exact (execPackFlush_flushBytes s).trans (by rw [flushBytes, if_neg hp])

end Sys2Proof.Machine
end

section
/-! The command lines of PACK_BYTE and PACK_FLUSH (spec/44_bit_packer.md R171, R172), which reserve room in OUT
(spec/40_control.md R105). -/

namespace Sys2Proof.Machine

theorem legal_packByte_iff (a : Arg) (p : Phase) (st : Stream) (cl : Bool) :
    legal (.packByte a) p st cl = true ↔ p = .codes ∧ st ≠ .unpack ∧ cl = false := by simp [legal, packOpen]

theorem legal_packFlush_iff (p : Phase) (st : Stream) (cl : Bool) :
    legal .packFlush p st cl = true ↔ p = .codes ∧ st ≠ .unpack ∧ cl = false := legal_packByte_iff 0 p st cl

section
variable {s : State} {w : Word} {rest : List Event}

/-- A line with a legal command for which OUT has no room sets REJ alone (R100 step 5). -/
theorem HostIssues.step_noRoom (h : HostIssues s w rest) (he : s.phase ≠ .error) {c : Instr} (hd : decode w = .command c)
    (hl : legal c s.phase s.stream s.closed = true) (ho : 64 < s.out.length + worst c) :
    step s = .next { s with agenda := rest, rej := true } := by
  rw [step_commandLine h.outOfReset h.agenda,
    issue_noRoom (s := { s with agenda := rest }) h.idle he hd hl ((hasRoom_eq_false_iff c _).mpr ho)]
  exact complete_none { s with agenda := rest, rej := true } h.idle

/-- A line with a legal command for which OUT has room runs it to its end (R100 step 6, R101). -/
theorem HostIssues.step_reserved (h : HostIssues s w rest) (he : s.phase ≠ .error) {c : Instr} {t : State}
    (hd : decode w = .command c) (hl : legal c s.phase s.stream s.closed = true) (ho : s.out.length + worst c ≤ 64)
    (hx : exec c (accept c { s with agenda := rest }) = .next t) : step s = .next { t with pend := none } :=
  h.step_accepted (issue_accept (s := { s with agenda := rest }) h.idle he hd hl ((hasRoom_iff c _).mpr ho)) hx

end

/-- Settles O31: bits 31:16 decide whether the word is PACK_BYTE's, PHASE and the stream whether it is legal, OUT whether
it is accepted, and the code table what it does. -/
theorem packByteCommandLine : Obligations.PackByteCommandLine := by
  intro s w rest h hop hacc r p bits open_
  have hdecode := decode_of_symRow hasSymForm_packByte hop
  have hlegal := legal_packByte_iff (argField w) s.phase s.stream s.closed
  have hne : open_ → s.phase ≠ .error := fun ho => by simp [ho.1]
  have hoperand := symOperand_argField w
  refine ⟨fun he => ?_, fun he h0 => ?_, fun he ho h0 => ?_, fun ho h0 hfull => ?_, fun ho h0 hroom hp => ?_,
    fun ho h0 hroom hp => ?_⟩
  · exact h.step_error he (ne_resetWord hop (by decide))
  · exact h.step_illegal he (not_command_of_symRow (fun _ => rfl) hop h0)
  · exact h.step_notLegal he (hdecode h0) (Bool.eq_false_iff.mpr (mt hlegal.mp ho))
  · exact h.step_noRoom (hne ho) (hdecode h0) (hlegal.mpr ho) (Nat.add_lt_add_right hfull 32)
  · rw [h.step_reserved (hne ho) (hdecode h0) (hlegal.mpr ho) (Nat.add_le_add_right hroom 32)
      (execPackByte_unknown _ (accept _ r) (hoperand ▸ hp)), ← h.idle]
    rfl
  · obtain ⟨acc, new, hx, hbits, hlt⟩ :=
      execPackByte_groups (argField w) (accept (.packByte (argField w)) r) hacc (hoperand ▸ hp)
    rw [hoperand] at hx hbits
    refine ⟨_, new, h.step_reserved (hne ho) (hdecode h0) (hlegal.mpr ho) (Nat.add_le_add_right hroom 32) hx, ?_,
      groups_of_flatMap_append hbits hlt⟩
    simp only [r, ← h.idle]
    rfl

/-- Settles O32: the word alone is PACK_FLUSH's, PHASE and the stream decide whether it is legal, OUT whether it is
accepted, and PACC whether a byte leaves. -/
theorem packFlushCommandLine : Obligations.PackFlushCommandLine := by
  intro s w rest h hop _ r open_
  have hdecode : w = 0x00000041#32 → decode w = .command .packFlush := fun hw => hw ▸ decode_encode .packFlush rfl
  have hlegal := legal_packFlush_iff s.phase s.stream s.closed
  have hne : open_ → s.phase ≠ .error := fun ho => by simp [ho.1]
  have hflush : open_ → w = 0x00000041#32 → s.out.length ≤ 63 → step s = .next { r with
      rej := false, stream := .pack, closed := true, pacc := [], out := s.out ++ flushBytes s.pacc } := by
    intro ho hw hroom
    rw [h.step_reserved (hne ho) (hdecode hw) (hlegal.mpr ho) (Nat.add_le_add_right hroom 1)
      (execPackFlush_flushBytes _), ← h.idle]
    rfl
  refine ⟨fun he => ?_, fun he hw => ?_, fun he ho hw => ?_, fun ho hw hfull => ?_, fun ho hw hroom hp => ?_,
    fun ho hw hroom hp => ⟨groupByte s.pacc, ?_, bytesHold_groupByte s.pacc⟩⟩
  · exact h.step_error he (ne_resetWord hop (by decide))
  · exact h.step_illegal he (not_command_of_noneRow (i := .packFlush) (fun _ => rfl) hop hw)
  · exact h.step_notLegal he (hdecode hw) (Bool.eq_false_iff.mpr (mt hlegal.mp ho))
  · exact h.step_noRoom (hne ho) (hdecode hw) (hlegal.mpr ho) (Nat.add_lt_add_right hfull 1)
  · rw [hflush ho hw hroom, hp, flushBytes, if_pos rfl, List.append_nil, ← hp]
  · rw [hflush ho hw hroom, flushBytes, if_neg hp]

end Sys2Proof.Machine
end

section
/-! Whole pack runs (spec/44_bit_packer.md R173, R174): command lines with a DRAIN after each, and the bits they deliver. -/

namespace Sys2Proof.Machine

/-! ### Runs of command lines (spec/30_encoding.md R88) -/

theorem commandLine_eq_complete_issue (w : Word) (s : State) (hr : s.inReset = false) :
    commandLine w s = complete (issue w s) :=
  step_commandLine (s := { s with agenda := .command w :: s.agenda }) hr rfl

theorem worst_le_outDepth (i : Instr) : worst i ≤ Config.outDepth := by
  cases i with
  | packByte a => exact (by decide : 32 ≤ 64)
  | packFlush => exact (by decide : 1 ≤ 64)
  | unpackByte a => exact (by decide : 8 ≤ 64)
  | _ => exact Nat.zero_le _

/-- Between the lines of a run: out of reset, nothing pending, OUT empty. -/
structure Drained (s : State) : Prop where
  outOfReset : s.inReset = false
  idle : s.pend = none
  out : s.out = []

/-- A legal command on a drained block always has room; it runs to its end, and what it pushed is drained. -/
theorem Drained.lineAndDrain_eq {i : Instr} {s t : State} (h : Drained s) (he : s.phase ≠ .error) (hwf : i.WellFormed)
    (hl : legal i s.phase s.stream s.closed = true) (hx : exec i (accept i s) = .next t) :
    lineAndDrain i s = some ({ t with pend := none, out := [] }, t.out) := by
  have hroom : hasRoom i s = true := by
    rw [hasRoom_iff, h.out, List.length_nil, Nat.zero_add]
    exact worst_le_outDepth i
  rw [lineAndDrain, commandLine_eq_complete_issue _ _ h.outOfReset, issue_accept h.idle he (decode_encode i hwf) hl hroom,
    complete_of_exec (accept_pend i s) hx]

theorem runLines_cons {i : Instr} {is : List Instr} {s t u : State} {b c : List Byte}
    (h : lineAndDrain i s = some (t, b)) (h' : runLines is t = some (u, c)) : runLines (i :: is) s = some (u, b ++ c) := by
  simp only [runLines, h, h']

theorem runLines_singleton {i : Instr} {s t : State} {b : List Byte} (h : lineAndDrain i s = some (t, b)) :
    runLines [i] s = some (t, b) := by rw [runLines_cons h rfl, List.append_nil]

theorem runLines_append {is js : List Instr} {s t u : State} {b c : List Byte}
    (h : runLines is s = some (t, b)) (h' : runLines js t = some (u, c)) : runLines (is ++ js) s = some (u, b ++ c) := by
  induction is generalizing s b with
  | nil => cases h; exact h'
  | cons i is ih =>
    rw [runLines] at h
    split at h
    next => cases h
    next v d hv =>
      split at h
      next => cases h
      next v' d' hv' =>
        cases h
        rw [List.cons_append, runLines_cons hv (ih hv'), List.append_assoc]

/-! ### BUILD and DERIVE -/

/-- The codes recorded do not depend on the other fields. -/
theorem recordPaths_code_congr (ps : List (Sym × Bits)) {s t : State} (h : s.code = t.code) :
    (recordPaths ps s).code = (recordPaths ps t).code := by
  induction ps generalizing s t with
  | nil => exact h
  | cons y ps ih => exact ih (by rw [setCode_code, setCode_code, h])

/-- The code table that DERIVE makes of a tree: its paths recorded into an empty table. -/
def Tree.codes (T : Tree) : Vector Bits 256 := (recordPaths (T.paths []) State.reset).code

theorem Tree.codes_eq (T : Tree) (s : State) :
    T.codes = (recordPaths (T.paths []) { s with code := Vector.replicate 256 [] }).code :=
  recordPaths_code_congr (T.paths []) rfl

section
variable {s : State} (h : Drained s)
include h

/-- R126: BUILD on a table with a symbol delivers nothing and leaves the tree of the table. -/
theorem Drained.build (hl : LoadReady s) (ha : s.alphabet ≠ []) :
    ∃ (t : State) (T : Tree), lineAndDrain .build s = some (t, []) ∧ BuiltTree t T ∧
      t = { s with rej := false, nodes := t.nodes, root := t.root, uptr := t.root, single := t.single, phase := .tree } := by
  obtain ⟨hphase, -⟩ := id hl
  obtain ⟨t, T, hx, ht, hT, -⟩ := buildCompletesWithTheTree (accept .build s) hl ha
  have hline := h.lineAndDrain_eq (by simp [hphase]) rfl ((legal_build_iff _ _ _).mpr hphase) hx
  have hout : t.out = [] := by rw [ht]; exact h.out
  rw [hout] at hline
  refine ⟨_, T, hline, { hT with }, ?_⟩
  rw [ht]
  simp only [accept, h.idle, h.out]

/-- R150: DERIVE on a built tree delivers nothing and leaves the codes of its leaves. -/
theorem Drained.derive {T : Tree} (hp : s.phase = .tree) (hT : BuiltTree s T) :
    lineAndDrain .derive s = some ({ s with rej := false, code := T.codes, dstk := [], phase := .codes }, []) := by
  rw [h.lineAndDrain_eq (by simp [hp]) rfl ((legal_derive_iff _ _ _).mpr hp)
    (execDerive_eq (accept .derive s) T hT.spans hT.size_le), ← T.codes_eq]
  simp only [accept, h.idle, h.out]

end

/-! ### The pack commands -/

/-- The block is ready for a pack command: DERIVE is done, nothing is unpacked, the stream is open, OUT is drained. -/
structure PackReady (s : State) : Prop extends Drained s where
  phase : s.phase = .codes
  stream : s.stream ≠ .unpack
  opened : s.closed = false
  pacc : s.pacc.length < 8

/-- The symbol operand of `packCmd x` is `x`. -/
theorem symOperand_setWidth (x : Byte) : symOperand (x.setWidth 9) = x := by simp [symOperand]

theorem wellFormed_packCmd (x : Byte) : (packCmd x).WellFormed := by
  show symArgOk (x.setWidth 9) = true
  simp [symArgOk]

section
variable {s : State} (h : PackReady s)
include h

theorem PackReady.phase_ne_error : s.phase ≠ .error := by simp [h.phase]

/-- R171: PACK_BYTE of a symbol with a code delivers the whole groups of eight, and the block stays ready. -/
theorem PackReady.packByte {x : Byte} (hx : s.codeAt x ≠ []) :
    ∃ (t : State) (new : List Byte), lineAndDrain (packCmd x) s = some (t, new) ∧ PackReady t ∧ t.code = s.code ∧
      t.packBits = s.packBits + BitVec.ofNat 64 (s.codeAt x).length ∧
      new.flatMap byteBits ++ t.pacc = s.pacc ++ s.codeAt x := by
  have hoperand := symOperand_setWidth x
  obtain ⟨acc, new, he, hbits, hacc⟩ :=
    execPackByte_groups (x.setWidth 9) (accept (packCmd x) s) h.pacc (by rwa [hoperand])
  rw [hoperand, accept_out, h.out, List.nil_append] at he
  rw [hoperand] at hbits
  have hlegal := (legal_packByte_iff (x.setWidth 9) _ _ _).mpr ⟨h.phase, h.stream, h.opened⟩
  exact ⟨_, new, h.lineAndDrain_eq h.phase_ne_error (wellFormed_packCmd x) hlegal he,
    ⟨⟨h.outOfReset, rfl, rfl⟩, h.phase, nofun, h.opened, hacc⟩, rfl, rfl, hbits⟩

/-- R174: the PACK_BYTEs of an input deliver the whole groups of eight of its codes, and the block stays ready. -/
theorem PackReady.runLines_packBytes {input : List Byte} (hin : ∀ x ∈ input, s.codeAt x ≠ []) :
    ∃ (t : State) (new : List Byte), runLines (input.map packCmd) s = some (t, new) ∧ PackReady t ∧ t.code = s.code ∧
      t.packBits = s.packBits + BitVec.ofNat 64 (input.map s.codeAt).flatten.length ∧
      new.flatMap byteBits ++ t.pacc = s.pacc ++ (input.map s.codeAt).flatten := by
  induction input generalizing s with
  | nil => exact ⟨s, [], rfl, h, rfl, by simp, by simp⟩
  | cons x input ih =>
    obtain ⟨t, b, hline, ht, htcode, hcount, hbits⟩ := h.packByte (hin x List.mem_cons_self)
    have hcodes : t.codeAt = s.codeAt := funext fun y => (code_eq_iff t s).mp htcode y
    obtain ⟨u, c, hrun, hu, hucode, hcount', hbits'⟩ := ih ht fun y hy => hcodes ▸ hin y (List.mem_cons_of_mem x hy)
    rw [hcodes] at hcount' hbits'
    refine ⟨u, b ++ c, runLines_cons hline hrun, hu, hucode.trans htcode, ?_, ?_⟩
    · rw [hcount', hcount, List.map_cons, List.flatten_cons, List.length_append, BitVec.ofNat_add, BitVec.add_assoc]
    · rw [List.flatMap_append, List.append_assoc, hbits', ← List.append_assoc, hbits, List.append_assoc, List.map_cons,
        List.flatten_cons]

/-- R172: PACK_FLUSH delivers what waits in PACC, padded, and closes the stream. -/
theorem PackReady.packFlush :
    lineAndDrain .packFlush s =
      some ({ s with rej := false, stream := .pack, closed := true, pacc := [] }, flushBytes s.pacc) := by
  have hx := execPackFlush_flushBytes (accept .packFlush s)
  rw [accept_out, h.out, List.nil_append] at hx
  rw [h.lineAndDrain_eq h.phase_ne_error rfl ((legal_packFlush_iff _ _ _).mpr ⟨h.phase, h.stream, h.opened⟩) hx]
  simp only [accept, h.idle, h.out]

end

/-! ### The run (R173, R174) -/

/-- BUILD and DERIVE of a loaded table: the block is ready to pack, with nothing packed yet, every present symbol has a
code, and the codes are those of the tree that BUILD made. -/
theorem exists_runLines_build_derive (freq : Vector Freq 256) (ha : (loaded freq).alphabet ≠ []) :
    ∃ s : State, runLines [.build, .derive] (loaded freq) = some (s, []) ∧ PackReady s ∧ s.pacc = [] ∧ s.packBits = 0#64 ∧
      (∀ x, (loaded freq).freqAt x ≠ 0 → s.codeAt x ≠ []) ∧
      ∃ (t : State) (T : Tree), lineAndDrain .build (loaded freq) = some (t, []) ∧ BuiltTree t T ∧ s.code = T.codes := by
  have hstart : Drained (loaded freq) := ⟨rfl, rfl, rfl⟩
  obtain ⟨t, T, hbuild, hT, ht⟩ := hstart.build ⟨rfl, rfl, rfl⟩ ha
  have hderive := Drained.derive (s := t) (by rw [ht]; exact ⟨rfl, rfl, rfl⟩) (by rw [ht]) hT
  refine ⟨_, runLines_cons hbuild (runLines_singleton hderive), ?_, by rw [ht]; rfl, by rw [ht]; rfl, fun x hx => ?_,
    t, T, hbuild, hT, rfl⟩
  · rw [ht]
    exact ⟨⟨rfl, rfl, rfl⟩, rfl, nofun, rfl, Nat.zero_lt_succ 7⟩
  · exact (codes_of_builtTree hT (T.codes_eq t) x).1.mpr (by rw [ht]; exact hx)

/-- A pack run on a loaded table delivers the whole groups of eight of the concatenated codes, and then the padded rest;
the codes are those of the tree that BUILD made. -/
theorem exists_packRun (freq : Vector Freq 256) (input : List Byte) (ha : (loaded freq).alphabet ≠ [])
    (hin : ∀ x ∈ input, (loaded freq).freqAt x ≠ 0) :
    ∃ (s : State) (groups : List Byte) (acc : Bits),
      runLines ([.build, .derive] ++ input.map packCmd ++ [.packFlush]) (loaded freq) =
        some (s, groups ++ flushBytes acc) ∧
      s.phase = .codes ∧ s.closed = true ∧
      s.packBits = BitVec.ofNat 64 (input.map s.codeAt).flatten.length ∧
      groups.flatMap byteBits ++ acc = (input.map s.codeAt).flatten ∧ acc.length < 8 ∧
      ∃ (t : State) (T : Tree), lineAndDrain .build (loaded freq) = some (t, []) ∧ BuiltTree t T ∧ s.code = T.codes := by
  obtain ⟨u, hderive, hready, hacc, hzero, hpresent, t, T, hbuild, hT, hcode⟩ := exists_runLines_build_derive freq ha
  obtain ⟨v, groups, hpack, hv, hvcode, hcount, hbits⟩ := hready.runLines_packBytes fun x hx => hpresent x (hin x hx)
  have hcodes : v.codeAt = u.codeAt := funext fun x => (code_eq_iff v u).mp hvcode x
  rw [hzero, BitVec.zero_add, ← hcodes] at hcount
  rw [hacc, List.nil_append, ← hcodes] at hbits
  have hrun := runLines_append (runLines_append hderive hpack) (runLines_singleton hv.packFlush)
  exact ⟨_, groups, v.pacc, hrun, hv.phase, rfl, hcount, hbits, hv.pacc, t, T, hbuild, hT, hvcode.trans hcode⟩

/-- Settles O40: the groups of eight and the padded rest are the ⌈N / 8⌉ bytes that hold the codes. -/
theorem packRunDeliversTheCodes : Obligations.PackRunDeliversTheCodes := by
  intro freq input ha hin
  obtain ⟨s, groups, acc, hrun, hphase, hclosed, hcount, hbits, hacc, -⟩ := exists_packRun freq input ha hin
  refine ⟨s, _, hrun, hphase, hclosed, ?_, ?_, hcount⟩
  · have hlen := congrArg List.length hbits
    rw [List.length_append, length_flatMap_byteBits] at hlen
    rw [List.length_append, length_flushBytes hacc]
    omega
  · rw [← hbits]
    exact (bytesHold_flushBytes acc).append groups

end Sys2Proof.Machine
end

section
/-! Decoding (spec/45_bit_unpacker.md R190, R193): bit by bit, the symbols a bit string emits on an arena and where it takes
the pointer; how many bits a limit leaves; and what UNPACK_BYTE and UNPACK_END do with them. -/

namespace Sys2Proof.Machine

/-! ### The bits a limit leaves (R193) -/

/-- How many of `len` further bits are traversed under the limit, after `done` of them. -/
def budget (lim : Bool × BitCount) (done : BitCount) (len : Nat) : Nat :=
  if lim.1 then min len (lim.2.toNat - done.toNat) else len

section
variable (lim : Bool × BitCount) (done : BitCount)

theorem traversed_eq_budget : traversed lim done = budget lim done 8 := rfl

theorem budget_le (len : Nat) : budget lim done len ≤ len := by
  rw [budget]
  split
  · exact Nat.min_le_left _ _
  · exact Nat.le_refl _

/-- Without a limit every bit is traversed. -/
theorem budget_off (h : lim.1 = false) (len : Nat) : budget lim done len = len := by simp [budget, h]

/-- No more bits than are traversed anyway: all of them are. -/
theorem budget_of_le {m len : Nat} (h : m ≤ budget lim done len) : budget lim done m = m := by
  cases hl : lim.1 with
  | false => exact budget_off _ _ hl m
  | true =>
    simp only [budget, hl, if_true] at h ⊢
    omega

/-- Where bits are left over, no later bit is traversed. -/
theorem budget_spent {m : Nat} (h : budget lim done m < m) (n : Nat) :
    budget lim (done + BitVec.ofNat 64 (budget lim done m)) n = 0 := by
  cases hl : lim.1 with
  | false => exact absurd h (by rw [budget_off _ _ hl]; exact Nat.lt_irrefl m)
  | true =>
    have hbound := lim.2.isLt
    simp only [budget, hl, if_true, BitVec.toNat_add, BitVec.toNat_ofNat] at h ⊢
    omega

/-- The bits a string traverses are those of its first part and then those of the rest. UNPACK_BITS does not wrap under a
limit, since the count stops there. -/
theorem budget_add (m n : Nat) :
    budget lim done (m + n) = budget lim done m + budget lim (done + BitVec.ofNat 64 (budget lim done m)) n := by
  cases hl : lim.1 with
  | false => simp only [budget_off _ _ hl]
  | true =>
    have hdone := done.isLt
    have hbound := lim.2.isLt
    simp only [budget, hl, if_true, BitVec.toNat_add, BitVec.toNat_ofNat]
    omega

end

/-- The limit is reached exactly when no further bit is traversed. -/
theorem limited_iff_budget (lim : Bool × BitCount) (s : State) {m : Nat} (hm : 0 < m) :
    limited lim s = true ↔ budget lim s.unpackBits m = 0 := by
  rw [limited_iff, BitVec.le_def, budget]
  split
  next hl =>
    simp only [hl, true_and]
    omega
  next hl => simp [hl, Nat.ne_of_gt hm]

/-! ### Decoding on an arena (R190) -/

/-- The state after traversing `n` bits that emit the symbols `ys` and take the pointer to `j`. -/
def State.decoded (s : State) (n : Nat) (ys : List Sym) (j : NodeIdx) : State :=
  { s with out := s.out ++ ys, uptr := j, unpackBits := s.unpackBits + BitVec.ofNat 64 n }

@[simp] theorem State.decoded_unpackBits (s : State) (n : Nat) (ys : List Sym) (j : NodeIdx) :
    (s.decoded n ys j).unpackBits = s.unpackBits + BitVec.ofNat 64 n := rfl

theorem State.decoded_zero (s : State) : s.decoded 0 [] s.uptr = s := by simp [State.decoded]

theorem State.decoded_decoded (s : State) (m n : Nat) (ys zs : List Sym) (j k : NodeIdx) :
    (s.decoded m ys j).decoded n zs k = s.decoded (m + n) (ys ++ zs) k := by
  simp [State.decoded, BitVec.ofNat_add, BitVec.add_assoc]

/-- One bit at the pointer `i` emits `ys` and takes the pointer to `j`, in every state with this arena and this root. -/
def BitDecodes (nodes : List Node) (root i : NodeIdx) (x : Bool) (ys : List Sym) (j : NodeIdx) : Prop :=
  ∀ s : State, s.nodes = nodes → s.root = root → s.uptr = i → stepBit x s = some (s.decoded 1 ys j)

/-- The bits from the pointer `i` on emit the symbols and take the pointer to the last index. -/
inductive Decodes (nodes : List Node) (root : NodeIdx) : NodeIdx → Bits → List Sym → NodeIdx → Prop where
  | nil (i : NodeIdx) : Decodes nodes root i [] [] i
  | cons {i j k : NodeIdx} {x : Bool} {xs : Bits} {ys zs : List Sym} :
      BitDecodes nodes root i x ys j → Decodes nodes root j xs zs k → Decodes nodes root i (x :: xs) (ys ++ zs) k

section
variable {nodes : List Node} {root i j k : NodeIdx} {x : Bool} {xs xs' : Bits} {ys zs : List Sym}

theorem Decodes.single (h : BitDecodes nodes root i x ys j) : Decodes nodes root i [x] ys j :=
  List.append_nil ys ▸ .cons h (.nil j)

theorem Decodes.append (h : Decodes nodes root i xs ys j) (h' : Decodes nodes root j xs' zs k) :
    Decodes nodes root i (xs ++ xs') (ys ++ zs) k := by
  induction h with
  | nil i => exact h'
  | cons hbit _ ih =>
    rw [List.append_assoc]
    exact .cons hbit (ih h')

/-- A decoding of a string is one of its first part and then one of the rest. -/
theorem Decodes.split (h : Decodes nodes root i (xs ++ xs') zs k) :
    ∃ (ys ys' : List Sym) (j : NodeIdx), zs = ys ++ ys' ∧ Decodes nodes root i xs ys j ∧ Decodes nodes root j xs' ys' k := by
  induction xs generalizing i zs with
  | nil => exact ⟨[], zs, i, rfl, .nil i, h⟩
  | cons x xs ih =>
    cases h with
    | cons hbit hrest =>
      obtain ⟨ys, ys', j, rfl, hxs, hxs'⟩ := ih hrest
      exact ⟨_, ys', j, (List.append_assoc _ _ _).symm, .cons hbit hxs, hxs'⟩

/-- A lone leaf emits its symbol for a 0 bit. -/
theorem bitDecodes_lone {y : Sym} {w : Weight} (h : nodes[i.toNat]? = some (.leaf y w)) :
    BitDecodes nodes root i false [y] i := by
  rintro s rfl rfl rfl
  simp only [stepBit, nodeAt_of_getElem? s _ _ h]
  rfl

theorem decodes_lone {y : Sym} {w : Weight} (h : nodes[i.toNat]? = some (.leaf y w)) (n : Nat) :
    Decodes nodes root i (List.replicate n false) (List.replicate n y) i := by
  induction n with
  | zero => exact .nil i
  | succ n ih => exact .cons (bitDecodes_lone h) ih

/-- No allocated slot has the index NIL: the arena has 511 slots. -/
theorem ne_nil_of_getElem? {n : Node} (hlen : nodes.length ≤ 511) (h : nodes[i.toNat]? = some n) : i ≠ NodeIdx.nil := by
  rintro rfl
  obtain ⟨hlt, -⟩ := List.getElem?_eq_some_iff.mp h
  exact absurd (Nat.lt_of_lt_of_le hlt hlen) (by decide)

/-- The child that a bit chooses below an internal node. -/
theorem Spans.child {l r : Tree} (h : Spans nodes (.node l r) i) (x : Bool) :
    ∃ w a b, nodes[i.toNat]? = some (.internal w a b) ∧ (if x then b else a).toNat < i.toNat ∧
      Spans nodes (if x then r else l) (if x then b else a) := by
  obtain ⟨w, a, b, hn, ha, hb, -, hl, hr⟩ := h
  cases x
  · exact ⟨w, a, b, hn, ha, hl⟩
  · exact ⟨w, a, b, hn, hb, hr⟩

section
variable (hlen : nodes.length ≤ 511) {l r : Tree} (h : Spans nodes (.node l r) i)
include hlen h

/-- A bit that leads to a leaf emits its symbol and takes the pointer to the root. -/
theorem Spans.bitDecodes_leaf {y : Sym} {w : Weight} (hx : (if x then r else l) = .leaf y w) :
    BitDecodes nodes root i x [y] root := by
  obtain ⟨v, a, b, hn, -, hc⟩ := h.child x
  rw [hx] at hc
  rintro s rfl rfl rfl
  simp only [stepBit, nodeAt_of_getElem? s _ _ hn, if_neg (ne_nil_of_getElem? hlen hc), nodeAt_of_getElem? s _ _ hc]
  rfl

/-- A bit that leads to an internal node takes the pointer there and emits nothing. -/
theorem Spans.bitDecodes_node {a b : Tree} (hx : (if x then r else l) = .node a b) :
    ∃ j, j.toNat < i.toNat ∧ Spans nodes (.node a b) j ∧ BitDecodes nodes root i x [] j := by
  obtain ⟨v, c, d, hn, hlt, hc⟩ := h.child x
  rw [hx] at hc
  obtain ⟨u, e, f, hm, -⟩ := id hc
  refine ⟨_, hlt, hc, ?_⟩
  rintro s rfl rfl rfl
  simp only [stepBit, nodeAt_of_getElem? s _ _ hn, if_neg (ne_nil_of_getElem? hlen hm), nodeAt_of_getElem? s _ _ hm,
    State.decoded, List.append_nil]
  rfl

end

/-- R190: on a tree with two leaves or more the arena decodes as the reference decoder walks. -/
theorem decodes_walk (hlen : nodes.length ≤ 511) {T c : Tree} (hT : Spans nodes T root) (hTn : T.isLeaf = false)
    (hc : Spans nodes c i) (hcn : c.isLeaf = false) (xs : Bits) :
    ∃ j, Decodes nodes root i xs (walk T c xs).1 j ∧ Spans nodes (walk T c xs).2 j := by
  induction xs generalizing c i with
  | nil => exact ⟨i, .nil i, hc⟩
  | cons x xs ih =>
    cases c with
    | leaf y w => cases hcn
    | node l r =>
      cases hx : (if x then r else l) with
      | leaf y w =>
        obtain ⟨j, hdec, hj⟩ := ih hT hTn
        simp only [walk, hx]
        exact ⟨j, .cons (hc.bitDecodes_leaf hlen hx) hdec, hj⟩
      | node a b =>
        obtain ⟨k, -, hk, hbit⟩ := hc.bitDecodes_node hlen hx
        obtain ⟨j, hdec, hj⟩ := ih hk rfl
        simp only [walk, hx]
        exact ⟨j, .cons hbit hdec, hj⟩

end

/-! ### Decoding in the unpacker (R191) -/

section
variable {lim : Bool × BitCount} {s : State} {xs : Bits} {ys : List Sym} {j : NodeIdx}

/-- Bits that the limit leaves are decoded, and the unpacker goes on with the rest. -/
theorem Decodes.unpackBits_append (h : Decodes s.nodes s.root s.uptr xs ys j)
    (hlim : budget lim s.unpackBits xs.length = xs.length) (rest : Bits) :
    unpackBits lim (xs ++ rest) s = unpackBits lim rest (s.decoded xs.length ys j) := by
  generalize hn : s.nodes = nodes, hr : s.root = root, hi : s.uptr = i at h
  induction h generalizing s with
  | nil i => rw [← hi, List.length_nil, s.decoded_zero, List.nil_append]
  | @cons i j k x xs ys zs hbit _ ih =>
    have hadd := budget_add lim s.unpackBits 1 xs.length
    have hone := budget_le lim s.unpackBits 1
    have hrest := budget_le lim (s.unpackBits + BitVec.ofNat 64 (budget lim s.unpackBits 1)) xs.length
    rw [List.length_cons, Nat.add_comm] at hlim
    have hfirst : budget lim s.unpackBits 1 = 1 := by omega
    have hfree : ¬ limited lim s = true := by
      rw [limited_iff_budget lim s Nat.one_pos]
      omega
    rw [hfirst] at hadd hrest
    have hleft : budget lim (s.decoded 1 ys j).unpackBits xs.length = xs.length := by
      rw [State.decoded_unpackBits]
      omega
    rw [List.cons_append, unpackBits, if_neg hfree, hbit s hn hr hi, List.length_cons, Nat.add_comm xs.length 1,
      ← s.decoded_decoded 1 _ ys zs j k]
    exact ih (s := s.decoded 1 ys j) hleft hn hr rfl

/-- The bits of one command: those the limit leaves are decoded, and LIMHIT is set if there are more. -/
theorem Decodes.unpackBits_eq {n : Nat} (hn : budget lim s.unpackBits xs.length = n)
    (h : Decodes s.nodes s.root s.uptr (xs.take n) ys j) :
    unpackBits lim xs s = { s.decoded n ys j with limhit := s.limhit || decide (n < xs.length) } := by
  have hle : n ≤ xs.length := hn ▸ budget_le _ _ _
  have htake : (xs.take n).length = n := List.length_take_of_le hle
  have hself : budget lim s.unpackBits n = n := budget_of_le lim _ (Nat.le_of_eq hn.symm)
  have happend := h.unpackBits_append (lim := lim) (by rw [htake, hself]) (xs.drop n)
  rw [List.take_append_drop, htake] at happend
  rw [happend]
  cases hrest : xs.drop n with
  | nil =>
    have hall := List.drop_eq_nil_iff.mp hrest
    simp [unpackBits, State.decoded, Nat.not_lt_of_le hall]
  | cons x rest =>
    have hmore : n < xs.length := by
      have hlen := congrArg List.length hrest
      rw [List.length_drop, List.length_cons] at hlen
      omega
    have hlimited : limited lim (s.decoded n ys j) = true := by
      rw [limited_iff_budget lim _ Nat.one_pos, State.decoded_unpackBits, ← hn]
      exact budget_spent lim _ (hn ▸ hmore) 1
    rw [unpackBits, if_pos hlimited, unpackBits_limited hlimited]
    simp [State.decoded, hmore]

/-- A bit that the limit leaves and no step takes raises CorruptStream; what came before it stands. -/
theorem Decodes.unpackBits_corrupt {x : Bool} {rest : Bits} (h : Decodes s.nodes s.root s.uptr xs ys j)
    (hlim : budget lim s.unpackBits (xs.length + 1) = xs.length + 1)
    (hx : stepBit x (s.decoded xs.length ys j) = none) :
    unpackBits lim (xs ++ x :: rest) s = raise .corruptStream (s.decoded xs.length ys j) := by
  have hadd := budget_add lim s.unpackBits xs.length 1
  have hfirst := budget_le lim s.unpackBits xs.length
  have hone := budget_le lim (s.unpackBits + BitVec.ofNat 64 (budget lim s.unpackBits xs.length)) 1
  have hall : budget lim s.unpackBits xs.length = xs.length := by omega
  rw [hall] at hadd
  have hfree : ¬ limited lim (s.decoded xs.length ys j) = true := by
    rw [limited_iff_budget lim _ Nat.one_pos, State.decoded_unpackBits]
    omega
  rw [h.unpackBits_append hall, unpackBits, if_neg hfree, hx]

end

/-! ### The completions -/

section
variable {a : Arg} {s : State} {n : Nat} {ys : List Sym} {j : NodeIdx}

/-- UNPACK_BYTE where the bits that the limit leaves are decoded (R191). -/
theorem Decodes.execUnpackByte_eq (hn : traversed (limitOperand s) s.unpackBits = n)
    (h : Decodes s.nodes s.root s.uptr ((byteBits (symOperand a)).take n) ys j) :
    execUnpackByte a s = .next { s with
      stream := .unpack, out := s.out ++ ys, uptr := j, unpackBits := s.unpackBits + BitVec.ofNat 64 n,
      limhit := s.limhit || decide (n < 8) } :=
  congrArg _ (Decodes.unpackBits_eq (s := { s with stream := .unpack }) (xs := byteBits (symOperand a))
    ((traversed_eq_budget _ _).symm.trans hn) h)

end

/-- Settles O20: the bits the limit leaves are decoded on the arena as the reference decoder walks. -/
theorem unpackByteCompletes : Obligations.UnpackByteCompletes := by
  intro s a T c hT hTn hc hcn hlen n bits end_
  have hbits : byteBits (symOperand a) = bits := by rw [symOperand_eq_extract, byteBits_eq]
  obtain ⟨j, hdec, hj⟩ := decodes_walk hlen hT hTn hc hcn (bits.take n)
  exact ⟨_, Decodes.execUnpackByte_eq rfl (hbits ▸ hdec), rfl, hj⟩

/-! ### A lone leaf (R190) -/

/-- Bits without a 1 are zeros. -/
theorem eq_replicate_false {xs : Bits} (h : true ∉ xs) : xs = List.replicate xs.length false :=
  List.eq_replicate_iff.mpr ⟨rfl, fun _ hx => Bool.eq_false_iff.mpr fun hone => h (hone ▸ hx)⟩

/-- Before the first 1 bit there are zeros. -/
theorem exists_eq_zeros_append {xs : Bits} (h : true ∈ xs) :
    ∃ rest, xs = List.replicate (xs.idxOf true) false ++ true :: rest := by
  obtain ⟨zeros, rest, hsplit, hzeros⟩ := List.eq_append_cons_of_mem h
  have hlen : xs.idxOf true = zeros.length := by
    rw [hsplit, List.idxOf_append, if_neg hzeros, List.idxOf_cons_self, Nat.zero_add]
  rw [hlen, ← eq_replicate_false hzeros]
  exact ⟨rest, hsplit⟩

/-- On a lone leaf no step takes a 1 bit. -/
theorem stepBit_lone_true {s : State} {y : Sym} {w : Weight} (h : s.nodes[s.uptr.toNat]? = some (.leaf y w)) :
    stepBit true s = none := by
  simp only [stepBit, nodeAt_of_getElem? s _ _ h, if_true]

/-- UNPACK_BYTE on a lone leaf where the limit leaves zeros and then a 1 bit: the symbol for each zero, then CorruptStream. -/
theorem execUnpackByte_lone_corrupt {a : Arg} {s : State} {y : Sym} {w : Weight}
    (h : s.nodes[s.uptr.toNat]? = some (.leaf y w)) {z : Nat} {rest : Bits}
    (hbits : byteBits (symOperand a) = List.replicate z false ++ true :: rest)
    (hz : z + 1 ≤ traversed (limitOperand s) s.unpackBits) :
    execUnpackByte a s = .next { s with
      stream := .unpack, out := s.out ++ List.replicate z y, unpackBits := s.unpackBits + BitVec.ofNat 64 z,
      phase := .error, err := .corruptStream, pend := none } := by
  rw [traversed_eq_budget] at hz
  have hcorrupt := Decodes.unpackBits_corrupt (s := { s with stream := .unpack }) (lim := limitOperand s) (rest := rest)
    (decodes_lone h z) (by rw [List.length_replicate]; exact budget_of_le _ _ hz) (stepBit_lone_true h)
  rw [List.length_replicate, ← hbits] at hcorrupt
  exact congrArg _ hcorrupt

/-- Settles O21: on a lone leaf a 0 bit is decoded as its symbol, and no step takes a 1 bit. -/
theorem unpackByteOfALoneLeaf : Obligations.UnpackByteOfALoneLeaf := by
  intro s a y w hy hu n bits z
  rw [← hu] at hy
  have htake : (byteBits (symOperand a)).take n = bits := by rw [symOperand_eq_extract, byteBits_eq]
  have hlen : bits.length = n := List.length_take_of_le (budget_le _ _ 8)
  refine ⟨fun hzero => ?_, fun hone => ?_⟩
  · have hbits := htake.trans (eq_replicate_false hzero)
    rw [hlen] at hbits
    exact Decodes.execUnpackByte_eq rfl (hbits ▸ decodes_lone hy n)
  · obtain ⟨rest, hsplit⟩ := exists_eq_zeros_append hone
    have hz : z < n := hlen ▸ List.idxOf_lt_length_of_mem hone
    refine execUnpackByte_lone_corrupt hy (rest := rest ++ (byteBits (symOperand a)).drop n) ?_ hz
    rw [← List.cons_append, ← List.append_assoc, ← hsplit, ← htake, List.take_append_drop]

/-- Settles O22, by where the pointer stands. -/
theorem unpackEndCompletes : Obligations.UnpackEndCompletes := by
  intro s
  refine ⟨fun hu => ?_, fun hu => ?_⟩
  · exact (execUnpackEnd_eq s).trans (by simp [hu])
  · exact (execUnpackEnd_eq s).trans (by simp [hu])

end Sys2Proof.Machine
end

section
/-! The command lines of UNPACK_BYTE and UNPACK_END (spec/45_bit_unpacker.md R191, R192). -/

namespace Sys2Proof.Machine

theorem legal_unpackByte_iff (a : Arg) (p : Phase) (st : Stream) (cl : Bool) :
    legal (.unpackByte a) p st cl = true ↔ (p = .tree ∨ p = .codes) ∧ st ≠ .pack ∧ cl = false := by
  simp [legal, unpackOpen]

theorem legal_unpackEnd_iff (p : Phase) (st : Stream) (cl : Bool) :
    legal .unpackEnd p st cl = true ↔ (p = .tree ∨ p = .codes) ∧ st ≠ .pack ∧ cl = false := legal_unpackByte_iff 0 p st cl

/-- A phase with a tree is not ERROR. -/
theorem phase_ne_error_of_tree {p : Phase} (h : p = .tree ∨ p = .codes) : p ≠ .error := by
  rcases h with rfl | rfl <;> nofun

/-- A built tree's arena fits the 511 slots (R128). -/
theorem BuiltTree.length_nodes_le {s : State} {T : Tree} (h : BuiltTree s T) : s.nodes.length ≤ 511 := h.size ▸ h.size_le

/-- Settles O33: bits 31:16 decide whether the word is UNPACK_BYTE's, PHASE and the stream whether it is legal, OUT whether
it is accepted, and the arena what its bits do. -/
theorem unpackByteCommandLine : Obligations.UnpackByteCommandLine := by
  intro s w rest h hop r open_
  have hdecode := decode_of_symRow hasSymForm_unpackByte hop
  have hlegal := legal_unpackByte_iff (argField w) s.phase s.stream s.closed
  have hne : open_ → s.phase ≠ .error := fun ho => phase_ne_error_of_tree ho.1
  have hoperand : (argField w).extractLsb' 0 8 = w.extractLsb' 8 8 := by rw [← symOperand_eq_extract, symOperand_argField]
  have hrun : ∀ {t : State}, open_ → w.extractLsb' 16 16 = 0 → s.out.length ≤ 56 →
      exec (.unpackByte (argField w)) (accept (.unpackByte (argField w)) r) = .next t →
      step s = .next { t with pend := s.pend } := fun ho h0 hroom hx => by
    rw [h.step_reserved (hne ho) (hdecode h0) (hlegal.mpr ho) (Nat.add_le_add_right hroom 8) hx, h.idle]
  refine ⟨fun he => ?_, fun he h0 => ?_, fun he ho h0 => ?_, fun ho h0 hfull => ?_,
    fun T c ho h0 hroom hT hTn hc hcn => ?_, fun y v ho h0 hroom hy hu => ?_⟩
  · exact h.step_error he (ne_resetWord hop (by decide))
  · exact h.step_illegal he (not_command_of_symRow (fun _ => rfl) hop h0)
  · exact h.step_notLegal he (hdecode h0) (Bool.eq_false_iff.mpr (mt hlegal.mp ho))
  · exact h.step_noRoom (hne ho) (hdecode h0) (hlegal.mpr ho) (Nat.add_lt_add_right hfull 8)
  · obtain ⟨t, hx, ht, hspans⟩ := unpackByteCompletes (accept (.unpackByte (argField w)) r) (argField w) T c hT.spans hTn hc
      hcn hT.length_nodes_le
    rw [hoperand] at ht hspans
    refine ⟨_, hrun ho h0 hroom hx, ?_, hspans⟩
    rw [ht]
    rfl
  · obtain ⟨hzero, hone⟩ := unpackByteOfALoneLeaf (accept (.unpackByte (argField w)) r) (argField w) y v hy hu
    rw [hoperand] at hzero hone
    exact ⟨fun hbits => hrun ho h0 hroom (hzero hbits), fun hbits => hrun ho h0 hroom (hone hbits)⟩

/-- Settles O34: the word alone is UNPACK_END's, PHASE and the stream decide whether it is legal, and the pointer whether
PARTIAL is set. -/
theorem unpackEndCommandLine : Obligations.UnpackEndCommandLine := by
  intro s w rest h hop r open_
  have hdecode : w = 0x00000051#32 → decode w = .command .unpackEnd := fun hw => hw ▸ decode_encode .unpackEnd rfl
  have hlegal := legal_unpackEnd_iff s.phase s.stream s.closed
  have hrun : ∀ {t : State}, open_ → w = 0x00000051#32 → exec .unpackEnd (accept .unpackEnd r) = .next t →
      step s = .next { t with pend := s.pend } := fun ho hw hx => by
    rw [h.step_unreserved (phase_ne_error_of_tree ho.1) (hdecode hw) (hlegal.mpr ho) rfl hx, h.idle]
  obtain ⟨hroot, hpartial⟩ := unpackEndCompletes (accept .unpackEnd r)
  refine ⟨fun he => ?_, fun he hw => ?_, fun he ho hw => ?_, fun ho hw hu => hrun ho hw (hroot hu),
    fun ho hw hu => hrun ho hw (hpartial hu)⟩
  · exact h.step_error he (ne_resetWord hop (by decide))
  · exact h.step_illegal he (not_command_of_noneRow (i := .unpackEnd) (fun _ => rfl) hop hw)
  · exact h.step_notLegal he (hdecode hw) (Bool.eq_false_iff.mpr (mt hlegal.mp ho))

end Sys2Proof.Machine
end

section
/-! Whole unpack runs (spec/45_bit_unpacker.md R194, R195): the codes that DERIVE gives decode to their symbols, the padding
to copies of the symbol whose code is all zeros, and command lines with a DRAIN after each deliver what their bits decode
to. -/

namespace Sys2Proof.Machine

/-! ### Paths of a tree -/

/-- Only a lone leaf has its root's own path. -/
theorem Tree.eq_leaf_of_mem_paths {T : Tree} {x : Sym} {p : Bits} (h : (x, p) ∈ T.paths p) : ∃ w, T = .leaf x w := by
  cases T with
  | leaf y w =>
    cases List.mem_singleton.mp h
    exact ⟨w, rfl⟩
  | node l r =>
    have hlonger : ∀ b : Bool, ¬ p ++ [b] <+: p := fun b hb => by
      have hlen := hb.length_le
      rw [List.length_append, List.length_singleton] at hlen
      exact Nat.not_succ_le_self _ hlen
    rcases List.mem_append.mp h with h | h <;> exact absurd (Tree.prefix_of_mem_paths h) (hlonger _)

/-- A path that goes on with a bit starts at an internal node, and is a path of the child that the bit chooses. -/
theorem Tree.exists_child_of_mem_paths {T : Tree} {x : Sym} {p q : Bits} {b : Bool} (h : (x, p ++ b :: q) ∈ T.paths p) :
    ∃ l r, T = .node l r ∧ (x, p ++ [b] ++ q) ∈ (if b then r else l).paths (p ++ [b]) := by
  rw [List.append_cons p b q] at h
  cases T with
  | leaf y w => simpa using congrArg (fun y => y.2.length) (List.mem_singleton.mp h)
  | node l r =>
    refine ⟨l, r, rfl, ?_⟩
    have hbranch : ∀ {c : Bool}, p ++ [c] <+: p ++ [b] ++ q → c = b := fun hc => by
      rw [List.append_assoc, List.prefix_append_right_inj, List.singleton_append, List.cons_prefix_cons] at hc
      exact hc.1
    rcases List.mem_append.mp h with h | h <;> cases hbranch (Tree.prefix_of_mem_paths h) <;> exact h

/-- Some leaf is reached by left edges alone. -/
theorem Tree.exists_left_path (T : Tree) (p : Bits) : ∃ x d, (x, p ++ List.replicate d false) ∈ T.paths p := by
  induction T generalizing p with
  | leaf x w => exact ⟨x, 0, by simp [Tree.paths]⟩
  | node l r hl _ =>
    obtain ⟨x, d, h⟩ := hl (p ++ [false])
    rw [List.append_assoc] at h
    exact ⟨x, d + 1, List.mem_append_left _ h⟩

/-! ### Decoding along a path -/

section
variable {nodes : List Node} (hlen : nodes.length ≤ 511) {root i : NodeIdx} {T : Tree} {x : Sym} {p q : Bits}
  (h : Spans nodes T i)
include hlen h

/-- The bits of a path before its end emit nothing and take the pointer down, to the root of the subtree they lead to. -/
theorem Spans.decodes_prefix {q' : Bits} (hq : (x, p ++ (q ++ q')) ∈ T.paths p) (hq' : q' ≠ []) :
    ∃ (j : NodeIdx) (T' : Tree), Decodes nodes root i q [] j ∧ j.toNat + q.length ≤ i.toNat ∧ Spans nodes T' j ∧
      (x, p ++ q ++ q') ∈ T'.paths (p ++ q) := by
  induction q generalizing T i p with
  | nil => exact ⟨i, T, .nil i, Nat.le_refl _, h, by simpa using hq⟩
  | cons b q ih =>
    obtain ⟨l, r, rfl, hc⟩ := Tree.exists_child_of_mem_paths hq
    cases hb : (if b then r else l) with
    | leaf y w =>
      rw [hb] at hc
      simpa [hq'] using congrArg Prod.snd (List.mem_singleton.mp hc)
    | node c d =>
      rw [hb] at hc
      obtain ⟨k, hk, hspans, hbit⟩ := h.bitDecodes_node (root := root) hlen hb
      obtain ⟨j, T', hdec, hj, hT', hpath⟩ := ih hspans hc
      rw [← List.append_cons] at hpath
      exact ⟨j, T', .cons hbit hdec, by rw [List.length_cons]; omega, hT', hpath⟩

/-- The bits of a path emit its leaf's symbol and take the pointer back to the root. -/
theorem Spans.decodes_path (hq : (x, p ++ q) ∈ T.paths p) (hne : q ≠ []) : Decodes nodes root i q [x] root := by
  have hlast := List.dropLast_concat_getLast hne
  rw [← hlast] at hq ⊢
  obtain ⟨j, T', hdec, -, hT', hpath⟩ := h.decodes_prefix (root := root) hlen hq (List.cons_ne_nil _ _)
  obtain ⟨l, r, rfl, hc⟩ := Tree.exists_child_of_mem_paths hpath
  rw [List.append_nil] at hc
  obtain ⟨w, hw⟩ := Tree.eq_leaf_of_mem_paths hc
  exact hdec.append (.single (hT'.bitDecodes_leaf hlen hw))

end

/-! ### Decoding the codes (R194, R195) -/

section
variable {s t : State} {T : Tree} (h : BuiltTree s T) (ht : t.code = T.codes)
include h ht

/-- The code of a present symbol decodes to the symbol. -/
theorem BuiltTree.decodes_code {x : Sym} (hx : s.freqAt x ≠ 0) :
    Decodes s.nodes s.root s.root (t.codeAt x) [x] s.root := by
  obtain ⟨p, hp, hcode⟩ := h.exists_codeAt_eq (ht.trans (T.codes_eq s)) hx
  have hspans := h.spans
  rw [hcode]
  cases T with
  | leaf y w =>
    cases List.mem_singleton.mp hp
    exact decodes_lone hspans 1
  | node l r =>
    refine hspans.decodes_path h.length_nodes_le hp ?_
    rintro rfl
    obtain ⟨w, hw⟩ := Tree.eq_leaf_of_mem_paths hp
    cases hw

/-- The codes of an input decode to the input. -/
theorem BuiltTree.decodes_codes {input : List Byte} (hin : ∀ x ∈ input, s.freqAt x ≠ 0) :
    Decodes s.nodes s.root s.root (input.map t.codeAt).flatten input s.root := by
  induction input with
  | nil => exact .nil _
  | cons x input ih =>
    exact (h.decodes_code ht (hin x List.mem_cons_self)).append (ih fun y hy => hin y (List.mem_cons_of_mem x hy))

/-- Some present symbol's code is all zeros, and fewer zeros than it has decode to nothing and leave the root. -/
theorem BuiltTree.exists_zero_code :
    ∃ (z : Sym) (d : Nat), s.freqAt z ≠ 0 ∧ 0 < d ∧ t.codeAt z = List.replicate d false ∧
      ∀ k < d, ∃ j : NodeIdx, Decodes s.nodes s.root s.root (List.replicate k false) [] j ∧ j.toNat + k ≤ s.root.toNat := by
  obtain ⟨z, d, hz⟩ := T.exists_left_path []
  have hmem : z ∈ T.syms := T.paths_map_fst [] ▸ List.mem_map_of_mem hz
  have hpresent := (h.mem_syms_iff z).mp hmem
  have hcode := codeAt_of_mem_paths (ht.trans (T.codes_eq s)) h.syms_nodup hz
  cases hleaf : T.isLeaf with
  | true =>
    rw [hleaf, if_pos rfl] at hcode
    refine ⟨z, 1, hpresent, Nat.one_pos, hcode, fun k hk => ?_⟩
    obtain rfl := Nat.lt_one_iff.mp hk
    exact ⟨s.root, .nil _, Nat.le_refl _⟩
  | false =>
    rw [hleaf, if_neg Bool.false_ne_true] at hcode
    refine ⟨z, d, hpresent, Nat.pos_of_ne_zero ?_, hcode, fun k hk => ?_⟩
    · rintro rfl
      obtain ⟨w, rfl⟩ := Tree.eq_leaf_of_mem_paths hz
      cases hleaf
    · have hsplit : List.replicate d false = List.replicate k false ++ List.replicate (d - k) false := by
        rw [List.replicate_append_replicate, Nat.add_sub_cancel' (Nat.le_of_lt hk)]
      obtain ⟨j, -, hdec, hj, -⟩ := h.spans.decodes_prefix (root := s.root) h.length_nodes_le (hsplit ▸ hz)
        (by simpa using Nat.sub_ne_zero_of_lt hk)
      exact ⟨j, hdec, by simpa using hj⟩

/-- R195: zeros decode to copies of the symbol whose code is `d` zeros, and a rest of them leaves the root. -/
theorem BuiltTree.decodes_zeros :
    ∃ (z : Sym) (d : Nat), 0 < d ∧ t.codeAt z = List.replicate d false ∧ ∀ p : Nat, ∃ j : NodeIdx,
      Decodes s.nodes s.root s.root (List.replicate p false) (List.replicate (p / d) z) j ∧ (j ≠ s.root ↔ p % d ≠ 0) := by
  obtain ⟨z, d, hz, hd, hcode, hrest⟩ := h.exists_zero_code ht
  refine ⟨z, d, hd, hcode, fun p => ?_⟩
  obtain ⟨j, hdec, hj⟩ := hrest (p % d) (Nat.mod_lt p hd)
  have hcopies := h.decodes_codes ht (input := List.replicate (p / d) z) fun x hx => List.eq_of_mem_replicate hx ▸ hz
  have hsplit : List.replicate p false =
      ((List.replicate (p / d) z).map t.codeAt).flatten ++ List.replicate (p % d) false := by
    rw [List.map_replicate, hcode, List.flatten_replicate_replicate, List.replicate_append_replicate, Nat.div_add_mod']
  refine ⟨j, ?_, fun hne hzero => hne ?_, fun hmod hroot => hmod ?_⟩
  · have hall := hcopies.append hdec
    rwa [List.append_nil, ← hsplit] at hall
  · rw [hzero] at hdec
    cases hdec
    rfl
  · rw [hroot] at hj
    omega

end

/-! ### The unpack commands -/

/-- The block is ready for an unpack command: it has a tree, nothing is packed, the stream is open, OUT is drained. -/
structure UnpackReady (s : State) : Prop extends Drained s where
  phase : s.phase = .tree
  stream : s.stream ≠ .pack
  opened : s.closed = false

theorem wellFormed_unpackCmd (x : Byte) : (unpackCmd x).WellFormed := wellFormed_packCmd x

/-- The first bits of a byte and those after it, where only a byte taken whole is followed by others. -/
theorem take_byteBits_append (b : Byte) (xs : Bits) {m k : Nat} (hm : m ≤ 8) (hk : m < 8 → k = 0) :
    (byteBits b ++ xs).take (m + k) = (byteBits b).take m ++ xs.take k := by
  rcases Nat.eq_or_lt_of_le hm with rfl | hlt
  · exact List.take_length_add_append (l₁ := byteBits b) k
  · rw [hk hlt, Nat.add_zero, List.take_zero, List.append_nil, List.take_append_of_le_length hm]

section
variable {s : State} (h : UnpackReady s) {ys : List Sym} {j : NodeIdx} {n : Nat}
include h

/-- R191: UNPACK_BYTE delivers what the bits that the limit leaves decode to. -/
theorem UnpackReady.unpackByte {x : Byte} (hn : traversed (s.limitEn, s.limit) s.unpackBits = n)
    (hdec : Decodes s.nodes s.root s.uptr ((byteBits x).take n) ys j) :
    lineAndDrain (unpackCmd x) s = some ({ s with
      rej := false, stream := .unpack, uptr := j, unpackBits := s.unpackBits + BitVec.ofNat 64 n,
      limhit := s.limhit || decide (n < 8) }, ys) := by
  rw [← symOperand_setWidth x] at hdec
  have hx := Decodes.execUnpackByte_eq (s := accept (unpackCmd x) s) hn hdec
  rw [accept_out, h.out, List.nil_append] at hx
  have hlegal := (legal_unpackByte_iff (x.setWidth 9) _ _ _).mpr ⟨.inl h.phase, h.stream, h.opened⟩
  rw [h.lineAndDrain_eq (by simp [h.phase]) (wellFormed_unpackCmd x) hlegal hx]
  simp only [accept, h.idle, h.out]

/-- R192: UNPACK_END delivers nothing and sets PARTIAL if the pointer is off the root. -/
theorem UnpackReady.unpackEnd :
    lineAndDrain .unpackEnd s = some ({ s with
      rej := false, stream := .unpack, closed := true, partialFlag := s.partialFlag || decide (s.uptr ≠ s.root),
      uptr := s.root }, []) := by
  rw [h.lineAndDrain_eq (by simp [h.phase]) rfl ((legal_unpackEnd_iff _ _ _).mpr ⟨.inl h.phase, h.stream, h.opened⟩)
    (execUnpackEnd_eq (accept .unpackEnd s))]
  simp only [accept, h.idle, h.out]

/-- The UNPACK_BYTEs of a payload deliver what the bits that the limit leaves decode to, and the block stays ready. -/
theorem UnpackReady.runLines_unpackBytes {payload : List Byte}
    (hn : budget (s.limitEn, s.limit) s.unpackBits (8 * payload.length) = n)
    (hdec : Decodes s.nodes s.root s.uptr ((payload.flatMap byteBits).take n) ys j) :
    ∃ t : State, runLines (payload.map unpackCmd) s = some (t, ys) ∧ UnpackReady t ∧
      t = { s with rej := t.rej, stream := t.stream, uptr := j, unpackBits := t.unpackBits, limhit := t.limhit } := by
  induction payload generalizing s ys n with
  | nil =>
    rw [List.flatMap_nil, List.take_nil] at hdec
    cases hdec
    exact ⟨s, rfl, h, rfl⟩
  | cons b payload ih =>
    have hadd := budget_add (s.limitEn, s.limit) s.unpackBits 8 (8 * payload.length)
    have hspent := budget_spent (s.limitEn, s.limit) s.unpackBits (m := 8) (n := 8 * payload.length)
    have hle := budget_le (s.limitEn, s.limit) s.unpackBits 8
    generalize hm : budget (s.limitEn, s.limit) s.unpackBits 8 = m at hadd hspent hle
    generalize hk : budget (s.limitEn, s.limit) (s.unpackBits + BitVec.ofNat 64 m) (8 * payload.length) = k at hadd hspent
    rw [List.length_cons, Nat.mul_succ, Nat.add_comm, hadd] at hn
    rw [← hn, List.flatMap_cons, take_byteBits_append b _ hle hspent] at hdec
    obtain ⟨ys, zs, i, rfl, hfirst, hrest⟩ := hdec.split
    have hline := h.unpackByte hm hfirst
    obtain ⟨t, hrun, ht, hframe⟩ := ih (s := { s with
      rej := false, stream := .unpack, uptr := i, unpackBits := s.unpackBits + BitVec.ofNat 64 m,
      limhit := s.limhit || decide (m < 8) }) ⟨⟨h.outOfReset, h.idle, h.out⟩, h.phase, nofun, h.opened⟩ hk hrest
    exact ⟨t, runLines_cons hline hrun, ht, hframe⟩

end

/-! ### The run (R194, R195) -/

/-- The byte of a group of at most eight bits holds the group and then zeros (R172). -/
theorem byteBits_groupByte_padded {g : Bits} (h : g.length ≤ 8) :
    byteBits (groupByte g) = g ++ List.replicate (8 - g.length) false := by
  refine List.ext_getElem (by rw [byteBits_length, List.length_append, List.length_replicate]; omega) fun k hk _ => ?_
  rw [byteBits_length] at hk
  simp only [byteBits_eq, List.getElem_map, List.getElem_range, groupByte_getLsbD g k hk]
  by_cases hg : k < g.length
  · simp [List.getElem_append_left, hg]
  · simp [List.getElem_append_right, hg, Nat.le_of_not_lt hg]

/-- What PACK_FLUSH emits holds PACC and then zeros up to a whole byte. -/
theorem flatMap_byteBits_flushBytes {acc : Bits} (h : acc.length < 8) :
    (flushBytes acc).flatMap byteBits = acc ++ List.replicate (8 * ((acc.length + 7) / 8) - acc.length) false := by
  rw [flushBytes]
  split
  next hacc => rw [hacc]; rfl
  next hacc =>
    have hpos := List.length_pos_iff.mpr hacc
    have hone : (acc.length + 7) / 8 = 1 := by omega
    rw [List.flatMap_singleton, byteBits_groupByte_padded (Nat.le_of_lt h), hone]

theorem alphabet_ne_nil {s : State} {input : List Byte} (hne : input ≠ []) (hin : ∀ x ∈ input, s.freqAt x ≠ 0) :
    s.alphabet ≠ [] := by
  obtain ⟨x, hx⟩ := List.exists_mem_of_ne_nil input hne
  exact List.ne_nil_of_mem ((mem_alphabet s x).mpr (hin x hx))

/-- R173, R174: the payload of a pack run holds the codes of the input and then zeros up to a whole byte; the codes are
those of the tree that BUILD made, and decode to the input. -/
theorem exists_packRun_padded (freq : Vector Freq 256) (input : List Byte) (ha : (loaded freq).alphabet ≠ [])
    (hin : ∀ x ∈ input, (loaded freq).freqAt x ≠ 0) :
    ∃ (s : State) (payload : List Byte) (codes : Bits),
      runLines ([.build, .derive] ++ input.map packCmd ++ [.packFlush]) (loaded freq) = some (s, payload) ∧
      (input.map fun x => (s.codeAt x).length).sum = codes.length ∧ s.packBits = BitVec.ofNat 64 codes.length ∧
      payload.flatMap byteBits = codes ++ List.replicate (8 * ((codes.length + 7) / 8) - codes.length) false ∧
      ∃ (t : State) (T : Tree), lineAndDrain .build (loaded freq) = some (t, []) ∧ BuiltTree t T ∧ s.code = T.codes ∧
        Decodes t.nodes t.root t.root codes input t.root := by
  obtain ⟨s, groups, acc, hrun, -, -, hcount, hbits, hacc, t, T, hbuild, hT, hcode⟩ := exists_packRun freq input ha hin
  obtain ⟨u, -, hbuild', -, hframe⟩ := Drained.build (s := loaded freq) ⟨rfl, rfl, rfl⟩ ⟨rfl, rfl, rfl⟩ ha
  cases hbuild'.symm.trans hbuild
  refine ⟨s, _, _, hrun, ?_, hcount, ?_, t, T, hbuild, hT, hcode, hT.decodes_codes hcode ?_⟩
  · rw [List.length_flatten, List.map_map]
    rfl
  · have hlen := congrArg List.length hbits
    rw [List.length_append, length_flatMap_byteBits] at hlen
    rw [List.flatMap_append, flatMap_byteBits_flushBytes hacc, ← List.append_assoc, hbits]
    congr 2
    omega
  · rw [hframe]
    exact hin

/-- R128 item 5: BUILD on two blocks with the same table makes the same arena. -/
theorem Drained.build_congr {s u t v : State} {b c : List Byte} (hs : Drained s) (hu : Drained u) (hls : LoadReady s)
    (hlu : LoadReady u) (hfreq : s.freq = u.freq) (ha : s.alphabet ≠ []) (ht : lineAndDrain .build s = some (t, b))
    (hv : lineAndDrain .build u = some (v, c)) : v.nodes = t.nodes ∧ v.root = t.root := by
  obtain ⟨hps, -⟩ := id hls
  obtain ⟨hpu, -⟩ := id hlu
  obtain ⟨t', v', hx, hy, hnodes, hroot, -⟩ :=
    treeIsAFunctionOfTheTable (accept .build s) (accept .build u) hls hlu hfreq ha
  rw [hs.lineAndDrain_eq (by simp [hps]) rfl ((legal_build_iff _ _ _).mpr hps) hx] at ht
  rw [hu.lineAndDrain_eq (by simp [hpu]) rfl ((legal_build_iff _ _ _).mpr hpu) hy] at hv
  cases ht
  cases hv
  exact ⟨hnodes.symm, hroot.symm⟩

/-- An unpack run of a payload delivers what the bits that the limit leaves decode to, and PARTIAL tells whether they end
off the root. -/
theorem exists_unpackRun (freq : Vector Freq 256) (en : Bool) (bound : BitCount) {t : State}
    (ha : (loaded freq).alphabet ≠ []) (ht : lineAndDrain .build (loaded freq) = some (t, []))
    {payload : List Byte} {ys : List Sym} {j : NodeIdx} {n : Nat}
    (hn : budget (en, bound) 0 (8 * payload.length) = n)
    (hdec : Decodes t.nodes t.root t.root ((payload.flatMap byteBits).take n) ys j) :
    ∃ u : State, runLines ([.build] ++ payload.map unpackCmd ++ [.unpackEnd])
        { loaded freq with limitEn := en, limit := bound } = some (u, ys) ∧
      u.partialFlag = decide (j ≠ t.root) ∧ u.phase = .tree ∧ u.err = .none := by
  have hstart : Drained { loaded freq with limitEn := en, limit := bound } := ⟨rfl, rfl, rfl⟩
  obtain ⟨v, T, hbuild, -, hframe⟩ := hstart.build ⟨rfl, rfl, rfl⟩ ha
  obtain ⟨hnodes, hroot⟩ := Drained.build_congr (s := loaded freq) ⟨rfl, rfl, rfl⟩ hstart ⟨rfl, rfl, rfl⟩
    ⟨rfl, rfl, rfl⟩ rfl ha ht hbuild
  have hready : UnpackReady v := by
    rw [hframe]
    exact ⟨⟨rfl, rfl, rfl⟩, rfl, nofun, rfl⟩
  have huptr : v.uptr = v.root := by rw [hframe]
  rw [← hnodes, ← hroot] at hdec
  obtain ⟨w, hrun, hw, hwframe⟩ := hready.runLines_unpackBytes (payload := payload) (n := n) (by rw [hframe]; exact hn)
    (by rwa [huptr])
  have hall := runLines_append (runLines_append (runLines_singleton hbuild) hrun) (runLines_singleton hw.unpackEnd)
  rw [List.nil_append, List.append_nil] at hall
  refine ⟨_, hall, ?_, hw.phase, ?_⟩
  · rw [hwframe, hframe, hroot]
    rfl
  · rw [hwframe, hframe]
    rfl

/-- Settles O41: the limit leaves the bits of the codes, which decode to the input and end at the root. -/
theorem roundTripUnderTheLimit : Obligations.RoundTripUnderTheLimit := by
  intro freq input hne hin
  have ha := alphabet_ne_nil hne hin
  obtain ⟨s, payload, codes, hrun, hlen, hcount, hbits, t, T, hbuild, -, -, hdec⟩ := exists_packRun_padded freq input ha hin
  refine ⟨s, payload, hrun, fun hlt => ?_⟩
  have hn : budget (true, s.packBits) 0 (8 * payload.length) = codes.length := by
    have hbytes := congrArg List.length hbits
    have hzero : (0 : BitCount).toNat = 0 := rfl
    rw [length_flatMap_byteBits, List.length_append] at hbytes
    rw [hlen] at hlt
    simp only [budget, if_true, hcount, BitVec.toNat_ofNat, Nat.mod_eq_of_lt hlt, hzero]
    omega
  obtain ⟨u, hu, hpartial, hphase, herr⟩ := exists_unpackRun freq true s.packBits ha hbuild hn
    (by rw [hbits, List.take_left]; exact hdec)
  exact ⟨u, hu, hpartial.trans (decide_eq_false (not_not_intro rfl)), hphase, herr⟩

/-- Settles O42: without a limit the padding is decoded too, as zeros from the root on. -/
theorem baselineDecodeAddsThePadding : Obligations.BaselineDecodeAddsThePadding := by
  intro freq input hne hin
  have ha := alphabet_ne_nil hne hin
  obtain ⟨s, payload, codes, hrun, hlen, -, hbits, t, T, hbuild, hT, hcode, hdec⟩ :=
    exists_packRun_padded freq input ha hin
  obtain ⟨z, d, hd, hz, hzeros⟩ := hT.decodes_zeros hcode
  obtain ⟨j, hpad, hj⟩ := hzeros (8 * ((codes.length + 7) / 8) - codes.length)
  have hall := hdec.append hpad
  rw [← hbits] at hall
  obtain ⟨u, hu, hpartial, -⟩ := exists_unpackRun freq false 0 ha hbuild (budget_off (false, 0) 0 rfl _)
    (by rwa [← length_flatMap_byteBits, List.take_length])
  rw [← hlen] at hu hj
  exact ⟨s, payload, z, d, u, hrun, hd, hz, hu, by rw [hpartial, decide_eq_true_iff, hj]⟩

end Sys2Proof.Machine
end

section
/-! The ERROR phase (spec/60_exceptions.md R213, R214): no access touches PHASE or ERR, the only command that can be pending is
RESET, and a reset ends in LOAD with no error. -/

namespace Sys2Proof.Machine

/-! ### What leaves ERROR -/

/-- Both ways of R214 end in the block's reset values, up to the level of the reset input. -/
theorem Resetting.exists_step_eq {s : State} (h : Resetting s) :
    ∃ r b, step s = .next { resetBlock r with inReset := b } := by
  rcases h with ⟨⟨snap, hp⟩, hag | ⟨rest, hag⟩⟩ | ⟨rest, hag⟩
  · exact ⟨_, _, engineStepExecutesThePendingCommand s _ [] hp (.inr ⟨hag, rfl⟩)⟩
  · exact ⟨_, _, engineStepExecutesThePendingCommand s _ rest hp (.inl hag)⟩
  · exact ⟨_, true, step_cons s _ rest hag⟩

/-! ### What keeps ERROR -/

/-- RESET's row is the only one of R104 that admits ERROR. -/
theorem eq_reset_of_legal_error {c : Instr} {st : Stream} {cl : Bool} (h : legal c .error st cl = true) : c = .reset := by
  cases c with
  | reset => rfl
  | _ => simp [legal] at h

section
variable {s : State} (he : s.phase = .error)
include he

/-- A command is never evaluated in ERROR unless it is RESET (R213), so a CMD write raises nothing there. -/
theorem issue_keeps_error (w : Word) : (issue w s).phase = .error ∧ (issue w s).err = s.err := by
  rcases issue_cases w s with ⟨-, e⟩ | ⟨-, -, -, e⟩ | ⟨-, -, -, e⟩ | ⟨-, hne, -⟩ | ⟨_, -, hne, -⟩ | ⟨_, -, hne, -⟩ |
    ⟨_, -, hne, -⟩
  case inl | inr.inl | inr.inr.inl => rw [e]; exact ⟨he, rfl⟩
  all_goals exact absurd he hne

theorem regRead_keeps_error (off : Nat) : (regRead off s).phase = .error ∧ (regRead off s).err = s.err := by
  rcases regRead_cases off s with ⟨-, -, e⟩ | ⟨-, -, e⟩ | ⟨-, -, e⟩ <;> rw [e] <;> exact ⟨he, rfl⟩

theorem regWrite_keeps_error (off : Nat) (v : Word) :
    (regWrite off v s).phase = .error ∧ (regWrite off v s).err = s.err := by
  rcases regWrite_cases off v s with ⟨-, e⟩ | ⟨-, e⟩ | ⟨-, e⟩ | ⟨-, e⟩ | ⟨-, e⟩ | ⟨-, e⟩ | ⟨-, e⟩ <;> rw [e]
  · exact issue_keeps_error he v
  all_goals exact ⟨he, rfl⟩

theorem performAccess_keeps_error (a : HostAccess) : (performAccess a s).phase = .error ∧ (performAccess a s).err = s.err := by
  cases a with
  | read n off => exact regRead_keeps_error he off
  | write n off v => exact regWrite_keeps_error he off v

/-- Under the invariant the pending command was legal, so in ERROR the engine completes RESET or does nothing. -/
theorem Inv.complete_keeps_error {t : State} (h : Inv s) (hnr : ∀ snap, s.pend ≠ some ⟨.reset, snap⟩)
    (hc : complete s = .next t) : t.phase = .error ∧ t.err = s.err := by
  rcases (complete_next_iff s t).mp hc with ⟨-, rfl⟩ | ⟨⟨c, snap⟩, -, hp, -⟩
  · exact ⟨he, rfl⟩
  · obtain ⟨hl, -⟩ := h.pending _ hp
    rw [he] at hl
    cases eq_reset_of_legal_error hl
    exact absurd hp (hnr snap)

/-- R214: a plain step that is no reset keeps ERROR. -/
theorem Inv.step_keeps_error {t : State} (h : Inv s) (hplain : PlainEvent s) (hnr : ¬ Resetting s)
    (hs : step s = .next t) : t.phase = .error ∧ t.err = s.err := by
  rcases step_cases s t hs with ⟨hag, hc⟩ | ⟨rest, hag, hc⟩ | ⟨a, rest, -, -, -, rfl⟩ | ⟨w, rest, hag, -⟩ |
    ⟨b, rest, hag, rfl⟩
  · exact h.complete_keeps_error he (fun snap hp => hnr (.inl ⟨⟨snap, hp⟩, .inl hag⟩)) hc
  · exact Inv.complete_keeps_error (s := { s with agenda := rest }) he (h.withAgenda rest)
      (fun snap hp => hnr (.inl ⟨⟨snap, hp⟩, .inr ⟨rest, hag⟩⟩)) hc
  · exact performAccess_keeps_error (s := { s with agenda := rest }) he a
  · exact absurd hag (hplain w rest)
  · cases b with
    | true => exact absurd (.inr ⟨rest, hag⟩) hnr
    | false => exact ⟨he, rfl⟩

end

/-- Settles O46: a step that is no reset keeps ERROR, and a reset ends in LOAD. -/
theorem onlyResetLeavesError : Obligations.OnlyResetLeavesError := by
  intro s t h hplain he hs
  refine ⟨fun hnr => h.step_keeps_error he hplain hnr hs, fun hr => ?_⟩
  obtain ⟨r, b, hreset⟩ := hr.exists_step_eq
  cases hreset.symm.trans hs
  exact ⟨rfl, rfl⟩

end Sys2Proof.Machine
end

section
/-! Reset and hazards (spec/70_reset_and_hazards.md): the reset input (R240), reads while BUSY (R246), and the atomic reading of
a command line (R253). -/

namespace Sys2Proof.Machine

/-! ### The reset input (R240) -/

/-- While the reset input is asserted no access is performed, inside the contract of R61 or not. -/
theorem hostAccess_inReset {s : State} (a : HostAccess) (hr : s.inReset = true) :
    hostAccess a s = .refused .accessDuringReset := if_pos hr

/-- The assertion writes the reset values, the release finds them by the invariant. -/
theorem Inv.driveReset_false {s : State} (h : Inv s) (hr : s.inReset = true) :
    driveReset false s = { State.reset with agenda := s.agenda, seen := s.seen, draws := s.draws } :=
  congrArg (fun r : State => { r with inReset := false }) (h.reset hr)

/-- Settles O58: asserting resets the block, releasing keeps it reset, and between them accesses are refused. -/
theorem resetInput : Obligations.ResetInput := by
  refine ⟨fun s rest hag => step_cons s _ rest hag, fun s rest h hr hag => ?_, fun s a rest hr hag => ?_⟩
  · rw [step_cons s _ rest hag]
    exact congrArg _ ((h.withAgenda rest).driveReset_false hr)
  · rw [step_cons s _ rest hag]
    exact hostAccess_inReset (s := { s with agenda := rest }) a hr

/-! ### Reads while BUSY (R246) -/

/-- STATUS is read as it stands, BUSY or not. -/
theorem regRead_status (s : State) : regRead 0x04 s = note 0x04 (statusWord s) s := by
  rcases regRead_cases 0x04 s with ⟨-, h, -⟩ | ⟨-, h, -⟩ | ⟨-, -, h⟩
  · exact absurd rfl h
  · cases h
  · exact h.trans (congrArg (note 0x04 · s) (windowValue_offset s .status))

/-- R246: any other register gives the next free value. -/
theorem regRead_busy {s : State} (off : Nat) (hp : s.pend ≠ none) (ho : off ≠ 0x04) :
    regRead off s = { note off (Config.freeRead s.draws) s with draws := s.draws + 1 } := by
  rcases regRead_cases off s with ⟨-, -, h⟩ | ⟨h, -⟩ | ⟨h, -⟩
  · exact h
  · exact absurd h hp
  · exact absurd h (not_or_intro hp ho)

/-- R24: BUSY stands in STATUS's bit 0, and PEND shows nowhere else. -/
theorem statusWord_getLsbD_of_pos (s : State) (p : Option Pending) {k : Nat} (hk : 0 < k) :
    (statusWord { s with pend := p }).getLsbD k = (statusWord s).getLsbD k := by
  have hk' : ¬ k < 1 := by omega
  simp only [statusWord, BitVec.getLsbD_append, if_neg hk']

/-- Settles O53: a busy read of STATUS notes the word, any other draws a free value. -/
theorem readsWhileBusy : Obligations.ReadsWhileBusy := by
  intro s off rest h hr hp hal hlt hag
  have hstep : step s = .next (regRead off { s with agenda := rest }) := step_access s (.read 4 off) rest hr rfl hal hlt hag
  obtain ⟨p, hpend⟩ := Option.ne_none_iff_exists'.mp hp
  obtain ⟨-, -, -, hrejClear⟩ := h.pending p hpend
  obtain ⟨hbusy, -, -, -, hrej, -⟩ := statusWord_slices s
  refine ⟨fun ho => ?_, fun ho => ?_⟩
  · subst ho
    exact ⟨hstep.trans (congrArg _ (regRead_status _)), hbusy.trans (Option.isSome_iff_ne_none.mpr hp),
      hrej.trans hrejClear, fun k => statusWord_getLsbD_of_pos s none⟩
  · exact hstep.trans (congrArg _ (regRead_busy (s := { s with agenda := rest }) off hp ho))

/-! ### The command line (R253) -/

/-- The checks of R100 do not look at what the host does next, and keep it. -/
theorem issue_withAgenda (w : Word) (s : State) (ag : List Event) :
    issue w { s with agenda := ag } = { issue w s with agenda := ag } := by
  rcases issue_cases w s with ⟨hp, e⟩ | ⟨hp, he, rfl, e⟩ | ⟨hp, he, hw, e⟩ | ⟨hp, he, ⟨why, hd⟩, e⟩ | ⟨c, hp, he, hd, hl, e⟩ |
    ⟨c, hp, he, hd, hl, hroom, e⟩ | ⟨c, hp, he, hd, hl, hroom, e⟩ <;> rw [e]
  · exact issue_busy (s := { s with agenda := ag }) hp
  · exact issue_error_reset (s := { s with agenda := ag }) hp he
  · exact issue_error_other (s := { s with agenda := ag }) hp he hw
  · exact issue_illegal (s := { s with agenda := ag }) hp he ((decode_illegal_iff w).mp ⟨why, hd⟩)
  · exact issue_notLegal (s := { s with agenda := ag }) hp he hd hl
  · exact issue_noRoom (s := { s with agenda := ag }) hp he hd hl hroom
  · rw [issue_accept (s := { s with agenda := ag }) hp he hd hl hroom, accept, snapshot_agenda, accept]

section
variable {M : Host.Core} (s : M.State)

theorem run_one : M.run 1 s = M.step s := by
  cases h : M.step s <;> simp [Host.Core.run, h]

theorem run_succ_of_next {t : M.State} (k : Nat) (h : M.step s = .next t) : M.run (k + 1) s = M.run k t := by
  simp [Host.Core.run, h]

theorem run_succ_of_refused {r : M.Refusal} (k : Nat) (h : M.step s = .refused r) : M.run (k + 1) s = .refused r := by
  simp [Host.Core.run, h]

end

section
variable {s : State} {w : Word} {rest : List Event}

/-- A command line is an access too: it is refused while the reset input is asserted. -/
theorem step_commandLine_inReset (hr : s.inReset = true) (hag : s.agenda = .command w :: rest) :
    step s = .refused .accessDuringReset := by
  rw [step_cons s _ rest hag, perform, commandLine, hostAccess_inReset (s := { s with agenda := rest }) _ hr]

/-- Outside reset the line ends where the engine's event takes the state that the write leaves. -/
theorem step_commandLine_eq_step_issue (hr : s.inReset = false) :
    step { s with agenda := .command w :: rest } = step (issue w { s with agenda := .engine :: rest }) :=
  calc step { s with agenda := .command w :: rest }
    _ = complete (issue w { s with agenda := rest }) :=
      step_commandLine (s := { s with agenda := .command w :: rest }) hr rfl
    _ = complete { issue w s with agenda := rest } := congrArg complete (issue_withAgenda w s rest)
    _ = step { issue w s with agenda := .engine :: rest } :=
      (step_cons { issue w s with agenda := .engine :: rest } .engine rest rfl).symm
    _ = step (issue w { s with agenda := .engine :: rest }) := congrArg step (issue_withAgenda w s _).symm

/-- The write is refused, and the engine's event is not reached. -/
theorem run_write_engine_inReset (hr : s.inReset = true) (hag : s.agenda = .access (.write 4 0x00 w) :: .engine :: rest) :
    Host.Core.run Sys2Proof.core 2 s = .refused .accessDuringReset := by
  obtain ⟨-, -, hrefused⟩ := resetInput
  exact run_succ_of_refused (M := Sys2Proof.core) s 1 (hrefused s _ _ hr hag)

/-- The write issues, and the engine's event is the second step. -/
theorem run_write_engine (hr : s.inReset = false) (hag : s.agenda = .access (.write 4 0x00 w) :: .engine :: rest) :
    Host.Core.run Sys2Proof.core 2 s = step (issue w { s with agenda := .engine :: rest }) :=
  (run_succ_of_next (M := Sys2Proof.core) s 1 (step_cmdWrite hr hag)).trans (run_one (M := Sys2Proof.core) _)

end

/-- Settles O10: in reset both readings are refused, outside it both complete what the write issued. -/
theorem commandLineIsWriteThenCompletion : Obligations.CommandLineIsWriteThenCompletion := by
  intro s w rest
  rcases Bool.eq_false_or_eq_true s.inReset with hr | hr
  · have hline := step_commandLine_inReset (s := { s with agenda := .command w :: rest }) hr rfl
    exact hline.trans (run_write_engine_inReset
      (s := { s with agenda := .access (.write 4 0x00 w) :: .engine :: rest }) hr rfl).symm
  · have hline := step_commandLine_eq_step_issue (w := w) (rest := rest) hr
    exact hline.trans (run_write_engine
      (s := { s with agenda := .access (.write 4 0x00 w) :: .engine :: rest }) hr rfl).symm

end Sys2Proof.Machine
end
